-- ==== Sys2Proof/Word.lean ====
section
/-! DEFINITION. The words of the machine (00_scope.md R10, R16; 30_encoding.md R90, R103) and the one bit operation on them. -/

namespace Sys2Proof

/-- One cell of the EEPROM and one transfer on the data bus: 8 bits, not a parameter (R10). -/
abbrev Byte := BitVec 8

/-- The serialized address/control word, one bit per shift stage (R90). -/
abbrev Word16 := BitVec 16

/-- A command word, format CMD (R103). -/
abbrev CmdWord := BitVec 67

/-- A logic level: LOW = 0 is `false`, HIGH = 1 is `true` (R16). -/
abbrev Level := Bool

abbrev LOW : Level := false
abbrev HIGH : Level := true

/-- The direction of a data line: INPUT = 0 is `false`, OUTPUT = 1 is `true` (R16). -/
abbrev Dir := Bool

abbrev INPUT : Dir := false
abbrev OUTPUT : Dir := true

end Sys2Proof
end

