-- ==== Sys2Proof/Config.lean ====
section
/-! DEFINITION. The configuration record of 10_state.md R32 and the free values of the spec's open behaviours. -/

namespace Sys2Proof

/-- The configuration record (R32), fixed for the lifetime of the machine. `N` is a function of `a`; MEM0 is the memory a
state starts with (R38, log 4). The values of `pins`, `tWp` and `tWc` have no role in any step (R11, R12). -/
structure Config where
  /-- `A`, the number of wired address lines (R9). -/
  a : Nat
  /-- `PIN`: the twelve pin identifiers, in the order SER, SRCLK, RCLK, WE_n, D0..D7 (R12). -/
  pins : List Nat
  /-- `T_WP` in nanoseconds (R11). -/
  tWp : Nat
  /-- `T_WC` in nanoseconds (R11). -/
  tWc : Nat
  /-- `PBD`, the depth of the payload buffer (R102). -/
  pbd : Nat
  deriving DecidableEq, Repr

/-- `N`, the number of EEPROM cells, N = 2^A (R9). -/
def Config.n (c : Config) : Nat := 2 ^ c.a

/-- What the spec requires of a configuration: 11 <= A <= 15 (R9), twelve pairwise distinct pins (R12), the lower bounds of
T_WP and T_WC (R11), PBD >= N (R102). -/
def Config.wf (c : Config) : Bool :=
  decide (11 ≤ c.a ∧ c.a ≤ 15 ∧ c.pins.length = 12 ∧ c.pins.Nodup ∧ 100 ≤ c.tWp ∧ 10000000 ≤ c.tWc ∧ c.n ≤ c.pbd)

/-- The configuration `State.reset` carries: the spec's default A = 11 (R9); the rest DESIGN CHOICE (log 5). -/
def Config.standard : Config :=
  { a := 11, pins := [0, 1, 2, 3, 4, 5, 6, 7, 8, 9, 10, 11], tWp := 100, tWc := 10000000, pbd := 2048 }

/-- FREE VALUE: the level of data line Di while it floats, is contended, or belongs to a busy device, for the draw of this number:
a draw of its own for each line (R60, U2, U3, U4; log 6). -/
opaque Config.freeLevel : Nat → Fin 8 → Level

/-- FREE VALUE: the cell that a cut-short Write leaves (R225, U13; log 11). -/
opaque Config.freeCell : Nat → Byte

/-- FREE VALUE: the shift stages after a loss of power (R40, U7; log 11). -/
opaque Config.freeStages : Nat → Word16

/-- FREE VALUE: the output latches after a loss of power (R40, U7; log 11). -/
opaque Config.freeLatches : Nat → Word16

end Sys2Proof
end

