-- ==== Sys2Proof/Syntax.lean ====
section
/-! DEFINITION. The six host-visible operations (00_scope.md R4, 30_encoding.md R100): one constructor per row of
spec/opcode_table.json, operands as mathematical integers (R104, R131). -/

namespace Sys2Proof

/-- An operation with its operands. The fields that an operation ignores (R108) are no operands. The byte sequence of
WRITEBYTES stands in the payload buffer of the state (R102, R104); the operand is its length. -/
inductive Instr where
  /-- `setAddress(address, outputEnable)` (R140). -/
  | setaddr (addr : Int) (oe : Bool)
  /-- `Read(address)` (R150). -/
  | read (addr : Int)
  /-- `Write(address, byte)` (R160). -/
  | write (addr : Int) (byte : Int)
  /-- `writeBytes(startAddress, PB[0..len-1])` (R170). -/
  | writebytes (start : Int) (len : Int)
  /-- `eraseBytes(startAddress, count)` (R174). -/
  | erasebytes (start : Int) (count : Int)
  /-- `dumpRange(startAddress, count)` (R176). -/
  | dumprange (start : Int) (count : Int)
  deriving DecidableEq, Repr

end Sys2Proof
end

