-- ==== Sys2Proof/WellFormed.lean ====
section
/-! DEFINITION. Which operations can be written as a command word: every integer operand fits its 32-bit two's-complement
field (30_encoding.md R103, R104). Legal operand ranges (R106) are no matter of form: an operand outside them is encodable
and is answered with a result code. -/

namespace Sys2Proof

/-- The integers of a 32-bit two's-complement field, [-2^31, 2^31 - 1] (R104). -/
def fitsField (v : Int) : Bool := decide (-2147483648 ≤ v ∧ v ≤ 2147483647)

/-- Every integer operand of the operation fits its field. -/
def Instr.wellFormed : Instr → Bool
  | .setaddr addr _ => fitsField addr
  | .read addr => fitsField addr
  | .write addr byte => fitsField addr && fitsField byte
  | .writebytes start len => fitsField start && fitsField len
  | .erasebytes start count => fitsField start && fitsField count
  | .dumprange start count => fitsField start && fitsField count

end Sys2Proof
end

