-- ==== Sys2Proof/Decode.lean ====
section
/-! DEFINITION. The command word: decoder and encoder (30_encoding.md R103 to R109). The decoder is total on 67-bit words and
rejects the two reserved codes by name. -/

namespace Sys2Proof

/-- Why a word is no operation. -/
inductive DecodeError where
  /-- op = 0 or op = 7, the reserved codes (R107). -/
  | reservedOp (op : BitVec 3)
  /-- More than 67 bits: no word of the command port (R103). -/
  | notACommandWord
  deriving DecidableEq, Repr

/-- cmd[66:64], the operation code (R103). -/
def opField (w : CmdWord) : BitVec 3 := w.extractLsb' 64 3

/-- cmd[63:32] (R103). -/
def addrField (w : CmdWord) : BitVec 32 := w.extractLsb' 32 32

/-- cmd[31:0] (R103). -/
def argField (w : CmdWord) : BitVec 32 := w.extractLsb' 0 32

/-- `sext_32`: the field as a two's-complement integer (R16, R104). -/
def sext32 (f : BitVec 32) : Int := f.toInt

/-- The operation of a command word (R103, R104, R107): each integer operand is the sign-extended field; the flag of SETADDR
is arg[0]; unused fields are ignored (R108). -/
def decode (w : CmdWord) : Except DecodeError Instr :=
  match (opField w).toNat with
  | 1 => .ok (.setaddr (sext32 (addrField w)) ((argField w).getLsbD 0))
  | 2 => .ok (.read (sext32 (addrField w)))
  | 3 => .ok (.write (sext32 (addrField w)) (sext32 (argField w)))
  | 4 => .ok (.writebytes (sext32 (addrField w)) (sext32 (argField w)))
  | 5 => .ok (.erasebytes (sext32 (addrField w)) (sext32 (argField w)))
  | 6 => .ok (.dumprange (sext32 (addrField w)) (sext32 (argField w)))
  | _ => .error (.reservedOp (opField w))

/-- The decoder on any natural number: a number of more than 67 bits is no command word. -/
def decodeNat (w : Nat) : Except DecodeError Instr :=
  if w < 2 ^ 67 then decode (BitVec.ofNat 67 w) else .error .notACommandWord

/-- The operation that the table's numbering of an instruction's bits gives: bit 0 is cmd[0], the command word is one word of
67 bits (R103, R109). Bits above the row's `nbits` are 0. -/
def decodeTableWord (nbits w : Nat) : Option Instr :=
  match decodeNat (w % 2 ^ nbits) with
  | .ok i => some i
  | .error _ => none

/-- A 32-bit two's-complement field (R103). -/
def field32 (v : Int) : BitVec 32 := BitVec.ofInt 32 v

/-- The operation code of an operation (R107). -/
def Instr.opCode : Instr → BitVec 3
  | .setaddr _ _ => 1
  | .read _ => 2
  | .write _ _ => 3
  | .writebytes _ _ => 4
  | .erasebytes _ _ => 5
  | .dumprange _ _ => 6

/-- The address or startAddress operand (R103). -/
def Instr.addrOperand : Instr → Int
  | .setaddr addr _ => addr
  | .read addr => addr
  | .write addr _ => addr
  | .writebytes start _ => start
  | .erasebytes start _ => start
  | .dumprange start _ => start

/-- cmd[31:0] of an operation; the bits the operation ignores are written 0 (R103). -/
def Instr.argBits : Instr → BitVec 32
  | .setaddr _ oe => BitVec.ofNat 32 oe.toNat
  | .read _ => 0
  | .write _ byte => field32 byte
  | .writebytes _ len => field32 len
  | .erasebytes _ count => field32 count
  | .dumprange _ count => field32 count

/-- The command word of an operation: op, addr, arg, the most significant first (R103). -/
def encode (i : Instr) : CmdWord := i.opCode ++ (field32 i.addrOperand ++ i.argBits)

/-- A row of the opcode table: the bits of `mask` have the values of `pattern` (R109). -/
structure OpcodeRow where
  mnemonic : String
  mask : CmdWord
  pattern : CmdWord
  deriving DecidableEq, Repr

/-- The six rows of spec/opcode_table.json (R109). -/
def opcodeTable : List OpcodeRow :=
  [ ⟨"SETADDR", 0x70000000000000000, 0x10000000000000000⟩,
    ⟨"READ", 0x70000000000000000, 0x20000000000000000⟩,
    ⟨"WRITE", 0x70000000000000000, 0x30000000000000000⟩,
    ⟨"WRITEBYTES", 0x70000000000000000, 0x40000000000000000⟩,
    ⟨"ERASEBYTES", 0x70000000000000000, 0x50000000000000000⟩,
    ⟨"DUMPRANGE", 0x70000000000000000, 0x60000000000000000⟩ ]

/-- The word lies under the row. -/
def OpcodeRow.accepts (r : OpcodeRow) (w : CmdWord) : Bool := w &&& r.mask == r.pattern

/-- The mnemonic of an operation (R100). -/
def Instr.mnemonic : Instr → String
  | .setaddr _ _ => "SETADDR"
  | .read _ => "READ"
  | .write _ _ => "WRITE"
  | .writebytes _ _ => "WRITEBYTES"
  | .erasebytes _ _ => "ERASEBYTES"
  | .dumprange _ _ => "DUMPRANGE"

end Sys2Proof
end

