-- ==== Sys2Proof/Machine/State.lean ====
section
/-! DEFINITION. The state of the machine: every piece of state of 10_state.md R40, the configuration record (R32) and the
model's own fields, with the pin events (40_pin_primitives.md R126), the result codes (60_exceptions.md R191), the items of
DUMPRANGE (43_bulk_operations.md R178), the host's inputs, the faults and the refusals. -/

namespace Sys2Proof.Machine

/-- The twelve pins by their logical names (R20). -/
inductive Pin where
  | ser
  | srclk
  | rclk
  | weN
  /-- Data line Di. -/
  | d (i : Fin 8)
  deriving DecidableEq, Repr

/-- The two waits of `Write` (R125). -/
inductive Wait where
  | tWp
  | tWc
  deriving DecidableEq, Repr

/-- A pin event the sequencer has still to produce (R126). `PinMode` and `PinRead` range over the data lines only (R120,
R122, U6). -/
inductive PinEvent where
  | mode (i : Fin 8) (dir : Dir)
  | wr (p : Pin) (l : Level)
  | rd (i : Fin 8)
  | delay (t : Wait)
  deriving DecidableEq, Repr

/-- A pin event that has happened, as a trace lists it: a sample with the level it returned (R14, R18, R126). -/
inductive TraceEvent where
  | mode (i : Fin 8) (dir : Dir)
  | wr (p : Pin) (l : Level)
  | rd (i : Fin 8) (l : Level)
  | delay (t : Wait)
  deriving DecidableEq, Repr

/-- The result codes of R191. Codes 5, 6, 7 are never produced and have no name. -/
inductive ResultCode where
  | ok
  | addrRange
  | countRange
  | dataRange
  | illegalOp
  deriving DecidableEq, Repr

/-- The value of `ERR[2:0]` (R191). -/
def ResultCode.bits : ResultCode → BitVec 3
  | .ok => 0
  | .addrRange => 1
  | .countRange => 2
  | .dataRange => 3
  | .illegalOp => 4

/-- The register `OP`: which of the six operations (R29). -/
inductive Op where
  | setaddr
  | read
  | write
  | writebytes
  | erasebytes
  | dumprange
  deriving DecidableEq, Repr

/-- An item of the output list of DUMPRANGE (R176, R178). -/
inductive Item where
  | rowBase (addr : Nat)
  | byte (v : Byte)
  deriving DecidableEq, Repr

/-- What stands at the block's host side, in order: the model's form of R41's sequence of operations, of the payload write
port (R102) and of the reset input (R220). A reset and a loss of power carry how many pin events of a running operation
come before them (R225; log 8). -/
inductive HostInput where
  /-- A command word is presented (`cmd_valid`, `cmd`, R102). -/
  | command (w : CmdWord)
  /-- `pb_we` with `pb_idx` and `pb_val` (R102). -/
  | payload (idx : Nat) (val : BitVec 32)
  /-- Reset is applied and released, after `events` more pin events of the running operation, or when it ends (R220, R225). -/
  | reset (events : Nat)
  /-- Power is lost, returns, and the reset after it completes; landing as for `reset` (R215, R225; log 11). -/
  | powerLoss (events : Nat)
  /-- The host lets the time T_WC pass (R225). -/
  | settle
  deriving DecidableEq, Repr

/-- Why a step is a fault. The block itself has none: a range error is a result code (R190, R194). -/
inductive Fault where
  /-- Raised by a payload-buffer write whose index is not below PBD: an entry that does not exist (R102). Safe: the step stops
  where the spec gives no entry to write (log 12). -/
  | noSuchPayloadEntry
  deriving DecidableEq, Repr

/-- Why a step is refused. -/
inductive Refusal where
  /-- Raised by an arm of `exec` that has no meaning yet. Safe. -/
  | notModelled (mnemonic : String)
  /-- Raised by SETADDR with an address outside [0, 32767]: the spec has no step for it (R148, U1, D25). Safe. -/
  | addressBeyond15Bits
  /-- Raised by an edge of WE_n while OE_n = LOW, or some DIR[i] = INPUT, or WBUSY = 1 (R63, R64, U5). Safe. -/
  | strobeOutsideWrite
  /-- Raised by `PinWrite` on a data line that is an input (R121, U6). Safe. -/
  | writeToInputLine
  /-- Raised by `PinRead` on a data line that is an output (R122, U6). Safe. -/
  | readFromOutputLine
  /-- Raised by an operation presented while INITED = 0 (R222, U11, D30). Safe. -/
  | notInitialised
  deriving DecidableEq, Repr

/-- The EEPROM array as a list of cells in canonical form (R36): addresses strictly rising, no cell equal to what an
unlisted address reads as. -/
abbrev Memory := List Host.Cell

/-- The payload buffer of the port (R102) in the same canonical form. -/
abbrev PayloadBuffer := List (Nat × BitVec 32)

/-- Everything the spec gives the machine (R40), the configuration record it carries (R32) and the model's own fields. -/
structure State where
  /-- The configuration record (R32); no step changes it. -/
  cfg : Config
  /-- Register `SER` (R22). -/
  ser : Level
  /-- Register `SRCLK` (R22). -/
  srclk : Level
  /-- Register `RCLK` (R22). -/
  rclk : Level
  /-- Register `WE_n` (R22), active low. -/
  weN : Level
  /-- Register `DOUT[7:0]` (R23). -/
  dout : Byte
  /-- Register `DIR[7:0]` (R25): bit i is 1 iff line Di is OUTPUT. -/
  dir : BitVec 8
  /-- Register `RDATA[7:0]` (R24). -/
  rdata : Byte
  /-- Status `BUSY` (R28). -/
  busy : Bool
  /-- Status `ERR[2:0]` (R28, R191). -/
  err : ResultCode
  /-- Status `INITED` (R28). -/
  inited : Bool
  /-- `PHASE` (R30): the events of the current transaction still to be produced; empty is IDLE. -/
  phase : List PinEvent
  /-- Operand register `OP` (R29). -/
  op : Op
  /-- Operand register `OADDR` (R29). -/
  oaddr : Int
  /-- Operand register `OARG` (R29). -/
  oarg : Int
  /-- The captured payload `PB[0..L-1]` (R29). -/
  pb : List Int
  /-- Bulk counter `IDX` (R31). -/
  idx : Nat
  /-- Bulk address `CUR` (R31). -/
  cur : Nat
  /-- `OUTQ` (R39): the items emitted so far by the running DUMPRANGE. -/
  outq : List Item
  /-- The shift stages `SR[15:0]` (R33). -/
  sr : Word16
  /-- The output latches `Q[15:0]` (R34). -/
  q : Word16
  /-- The EEPROM array `MEM[0..N-1]` (R36). -/
  mem : Memory
  /-- The EEPROM's write-in-progress bit `WBUSY` (R37). -/
  wbusy : Bool
  /-- The payload buffer `PB[0..PBD-1]` of the port (R102). -/
  pbuf : PayloadBuffer
  /-- MODEL: what the host and the reset input do next, oldest first (log 8). -/
  inputs : List HostInput
  /-- MODEL: the levels s_0..s_7 sampled by the running READ (R150 step 3; log 13). -/
  samples : BitVec 8
  /-- MODEL: the events so far of the running, or last accepted, operation (R14; log 1). -/
  trace : List TraceEvent
  /-- Output `rsp_valid` (R102): an operation completed in the last step (log 16). -/
  rspValid : Bool
  /-- Output: the items handed to the host at the last completion (R39, R105; log 14). -/
  rspItems : List Item
  /-- MODEL: the number of the next free draw (log 6). -/
  draws : Nat
  deriving DecidableEq, Repr

/-- What one step of the machine answers. -/
abbrev Result := Host.Outcome State Fault Refusal

/-- What the port does with the next input while no operation runs (Machine/Port.lean). -/
inductive PortAction where
  /-- Run the operation on the state without its command. -/
  | run (i : Instr) (s : State)
  /-- Accept the operation only: a reset is due inside it, so its events are separate steps (log 7). -/
  | acceptOnly (i : Instr) (s : State)
  /-- The step's whole answer. -/
  | answer (r : Host.Outcome State Fault Refusal)

/-- The machine right after reset (R40, R220): the spec's values, and where the spec gives none the values of logs 2, 3, 4
and 5. -/
def State.reset : State :=
  { cfg := Config.standard
    ser := LOW
    srclk := LOW
    rclk := LOW
    weN := HIGH
    dout := 0
    dir := 0
    rdata := 0
    busy := false
    err := .ok
    inited := true
    phase := []
    op := .setaddr
    oaddr := 0
    oarg := 0
    pb := []
    idx := 0
    cur := 0
    outq := []
    sr := 0
    q := 0
    mem := []
    wbusy := false
    pbuf := []
    inputs := []
    samples := 0
    trace := []
    rspValid := false
    rspItems := []
    draws := 0 }

end Sys2Proof.Machine
end

