-- ==== Sys2Proof/Machine/Operands.lean ====
section
/-! DEFINITION. Operands and encodings inside the block: the serialized word (30_encoding.md R90, R91), the byte on the data
lines (R95, R96), the items at the port (R105), the payload, and the event lists of 40_pin_primitives.md R123, R124,
41_shift_register_bus.md R141, 42_transaction_engine.md R151, R161. -/

namespace Sys2Proof.Machine

/-- The value `v` with bit `i` set to `b` (R17's `REG[i] <- v`). -/
def setBit {w : Nat} (v : BitVec w) (i : Nat) (b : Bool) : BitVec w :=
  if b then v ||| BitVec.twoPow w i else v &&& ~~~ BitVec.twoPow w i

/-- HB of R91: the top bits of the address, bit 7 forced to 0 if outputEnable else 1. -/
def highByte (address : Nat) (oe : Bool) : Byte :=
  BitVec.ofNat 8 (((address >>> 8) &&& 0x7F) ||| (if oe then 0x00 else 0x80))

/-- LB of R91: the low 8 bits of the address. -/
def lowByte (address : Nat) : Byte := BitVec.ofNat 8 (address &&& 0xFF)

/-- The serialized word W = (HB, LB) (R90, R91). -/
def addressWord (address : Nat) (oe : Bool) : Word16 := highByte address oe ++ lowByte address

/-- An accepted integer operand as a byte (R106 has put it in [0, 255]). -/
def byteOf (v : Int) : Byte := BitVec.ofNat 8 v.toNat

/-- FILL (R13). -/
def fill : Byte := 0xFF

/-- ROW (R13). -/
def row : Nat := 16

/-- `ShiftOut(b)`: 24 events, most significant bit first; each bit is presented, then clocked (R123). -/
def shiftOut (b : Byte) : List PinEvent :=
  [7, 6, 5, 4, 3, 2, 1, 0].flatMap fun i => [.wr .ser (b.getLsbD i), .wr .srclk HIGH, .wr .srclk LOW]

/-- `LatchPulse()` (R124). -/
def latchPulse : List PinEvent := [.wr .rclk HIGH, .wr .rclk LOW]

/-- The eight data lines in the order the block uses them, D0 first (R95, R96, D17). -/
def dataLines : List (Fin 8) := [0, 1, 2, 3, 4, 5, 6, 7]

/-- Step 1 of `Read` and `Write`: all eight lines to one direction (R150, R160). -/
def setDirection (dir : Dir) : List PinEvent := dataLines.map fun i => .mode i dir

/-- The 50 events of `setAddress(address, outputEnable)` (R140, R141). -/
def setAddressEvents (address : Nat) (oe : Bool) : List PinEvent :=
  shiftOut (highByte address oe) ++ shiftOut (lowByte address) ++ latchPulse

/-- The 66 events of `Read(address)` (R150, R151). -/
def readEvents (address : Nat) : List PinEvent :=
  setDirection INPUT ++ setAddressEvents address true ++ dataLines.map fun i => .rd i

/-- Step 3 of `Write`: line Di takes bit i of the byte (R95). -/
def driveByte (b : Byte) : List PinEvent := dataLines.map fun i => .wr (.d i) (b.getLsbD i)

/-- Steps 4 and 5 of `Write` (R160). -/
def strobe : List PinEvent := [.wr .weN LOW, .delay .tWp, .wr .weN HIGH, .delay .tWc]

/-- The 70 events of `Write(address, byte)` (R160, R161). -/
def writeEvents (address : Nat) (b : Byte) : List PinEvent :=
  setDirection OUTPUT ++ setAddressEvents address false ++ driveByte b ++ strobe

/-- The 17 bits of an item at the port (R105). -/
def Item.encode : Item → BitVec 17
  | .rowBase addr => BitVec.ofNat 17 (addr % 2 ^ 15)
  | .byte v => (1 : BitVec 1) ++ ((0 : BitVec 8) ++ v)

end Sys2Proof.Machine
end

