-- ==== Sys2Proof/Machine/Flags.lean ====
section
/-! DEFINITION. The range checks that decide `ERR` (30_encoding.md R106, 60_exceptions.md R191, R192), in the order of R106,
on mathematical integers (R131). `none` is: every check passes. The block has no other flags (10_state.md R28). -/

namespace Sys2Proof.Machine

/-- 0 <= address <= N-1, else ADDR_RANGE (R106). -/
def checkAddr (n : Nat) (addr : Int) : Option ResultCode :=
  if 0 ≤ addr ∧ addr < n then none else some .addrRange

/-- 0 <= count and startAddress + count <= N, else COUNT_RANGE (R106). -/
def checkCount (n : Nat) (start count : Int) : Option ResultCode :=
  if 0 ≤ count ∧ start + count ≤ n then none else some .countRange

/-- A value of a byte operand (R106). -/
def isByte (v : Int) : Bool := decide (0 ≤ v ∧ v ≤ 255)

/-- 0 <= byte <= 255, else DATA_RANGE (R106). -/
def checkByte (v : Int) : Option ResultCode := if isByte v then none else some .dataRange

/-- Every element in [0, 255], else DATA_RANGE (R106). -/
def checkBytes (vs : List Int) : Option ResultCode := if vs.all isByte then none else some .dataRange

/-- The checks of READ (R106, R150). -/
def checkRead (n : Nat) (addr : Int) : Option ResultCode := checkAddr n addr

/-- The checks of WRITE, the address first (R106, R160). -/
def checkWrite (n : Nat) (addr byte : Int) : Option ResultCode :=
  (checkAddr n addr).or (checkByte byte)

/-- The checks of WRITEBYTES (R106, R170). -/
def checkWritebytes (n : Nat) (start len : Int) (payload : List Int) : Option ResultCode :=
  (checkAddr n start).or ((checkCount n start len).or (checkBytes payload))

/-- The checks of ERASEBYTES (R106, R174). -/
def checkErasebytes (n : Nat) (start count : Int) : Option ResultCode :=
  (checkAddr n start).or (checkCount n start count)

/-- The checks of DUMPRANGE (R106, R176). -/
def checkDumprange (n : Nat) (start count : Int) : Option ResultCode :=
  (checkAddr n start).or (checkCount n start count)

/-- The address range of SETADDR: the constraint the host keeps, [0, 32767] (R140, R148). -/
def fits15 (addr : Int) : Bool := decide (0 ≤ addr ∧ addr ≤ 32767)

end Sys2Proof.Machine
end

