-- ==== Sys2Proof/Machine/Ops.lean ====
section
/-! DEFINITION. The shared operations: sparse stores and the EEPROM array, the two devices and their reactions
(20_memory.md R55 to R66), the pin events (40_pin_primitives.md R120 to R125), the sequencer (10_state.md R30, R31), raising
and completing (60_exceptions.md R190, R194, R206), reset (70_reset_and_hazards.md R220, R225), and the functions of state
the spec names. -/

namespace Sys2Proof.Machine

/-- Run `f` on the state that `r` answers; a fault or a refusal stays. -/
def andThen (r : Result) (f : State → Result) : Result :=
  match r with
  | .next s => f s
  | .fault e => .fault e
  | .refused e => .refused e

/-! ### Sparse stores -/

/-- The entry at `a`; an unlisted one reads as `d`. -/
def sparseRead {w : Nat} (d : BitVec w) : List (Nat × BitVec w) → Nat → BitVec w
  | [], _ => d
  | (b, v) :: m, a => if a = b then v else sparseRead d m a

/-- The store with entry `a` set to `v`; setting it to `d` unlists it. -/
def sparseWrite {w : Nat} (d : BitVec w) : List (Nat × BitVec w) → Nat → BitVec w → List (Nat × BitVec w)
  | [], a, v => if v = d then [] else [(a, v)]
  | (b, u) :: m, a, v =>
    if a < b then (if v = d then (b, u) :: m else (a, v) :: (b, u) :: m)
    else if a = b then (if v = d then m else (a, v) :: m)
    else (b, u) :: sparseWrite d m a v

/-- Canonical form: keys strictly rising, no entry equal to `d`. -/
def sparseWf {w : Nat} (d : BitVec w) : List (Nat × BitVec w) → Bool
  | [] => true
  | (a, v) :: m => !(v == d) && (m.all fun e => decide (a < e.1)) && sparseWf d m

/-- What a cell that no entry lists reads as. DESIGN CHOICE (log 4): the spec leaves MEM0 open (R38). -/
def unlistedCell : Byte := 0x00

/-- What a payload entry that nothing has written reads as. DESIGN CHOICE (log 3): the spec leaves it open (R40). -/
def unlistedEntry : BitVec 32 := 0

/-- `MemRead(addr, 1)` (R17). -/
def Memory.read (m : Memory) (a : Nat) : Byte := sparseRead unlistedCell m a

/-- `MemWrite(addr, 1, v)` (R17). -/
def Memory.write (m : Memory) (a : Nat) (v : Byte) : Memory := sparseWrite unlistedCell m a v

/-- The canonical form of the array. -/
def Memory.wf (m : Memory) : Bool := sparseWf unlistedCell m

/-- Every listed cell is a cell of the array, MEM[0..N-1] (R36, R50). -/
def Memory.within (m : Memory) (n : Nat) : Bool := m.all fun e => decide (e.1 < n)

/-- `PB[i]` of the port's buffer (R102). -/
def PayloadBuffer.read (b : PayloadBuffer) (i : Nat) : BitVec 32 := sparseRead unlistedEntry b i

/-- The host's write of `PB[i]` (R102). -/
def PayloadBuffer.write (b : PayloadBuffer) (i : Nat) (v : BitVec 32) : PayloadBuffer := sparseWrite unlistedEntry b i v

/-- The canonical form of the payload buffer. -/
def PayloadBuffer.wf (b : PayloadBuffer) : Bool := sparseWf unlistedEntry b

/-- Every listed entry is an entry of the buffer, PB[0..PBD-1] (R102). -/
def PayloadBuffer.within (b : PayloadBuffer) (n : Nat) : Bool := b.all fun e => decide (e.1 < n)

/-- The captured payload: PB[i] read as sext_32, for i = 0..L-1; none for a negative L (R104, R170). -/
def payloadOf (b : PayloadBuffer) (len : Int) : List Int :=
  (List.range len.toNat).map fun i => sext32 (PayloadBuffer.read b i)

/-! ### Functions of state -/

/-- `OE_n` = Q[15] (R34). -/
def State.oeN (s : State) : Level := s.q.getLsbD 15

/-- `ABUS[14:0]` = Q[14:0] (R34). -/
def State.abus (s : State) : BitVec 15 := s.q.extractLsb' 0 15

/-- The cell the EEPROM selects: ABUS[A-1:0] (R55). -/
def State.cell (s : State) : Nat := s.abus.toNat % s.cfg.n

/-- The byte of the selected cell, MEM[ABUS[A-1:0]] (R60, R61). -/
def State.cellByte (s : State) : Byte := Memory.read s.mem s.cell

/-- Line Di of the data bus (R60): `some l` where exactly one agent drives it with level l, `none` where its level is a free
draw (contention, floating, device busy). -/
def State.line (s : State) (i : Fin 8) : Option Level :=
  match s.dir.getLsbD i, s.oeN, s.wbusy with
  | true, true, _ => some (s.dout.getLsbD i)
  | false, false, false => some (s.cellByte.getLsbD i)
  | true, false, _ => none
  | false, true, _ => none
  | false, false, true => none

/-- `DBUS[i]` at this moment (R35, R60): the driven level, or this line's own free draw. DESIGN CHOICE (log 6): a free line keeps its
draw until some line's free level is sampled. -/
def State.dbus (s : State) (i : Fin 8) : Level := (s.line i).getD (Config.freeLevel s.draws i)

/-- The state after `DBUS[i]` was sampled: a free draw is used once (R60's free draw for each sample; log 6). -/
def State.afterDraw (s : State) (i : Fin 8) : State :=
  match s.line i with
  | some _ => s
  | none => { s with draws := s.draws + 1 }

/-- `LVL(p)` (R27). -/
def State.lvl (s : State) : Pin → Level
  | .ser => s.ser
  | .srclk => s.srclk
  | .rclk => s.rclk
  | .weN => s.weN
  | .d i => s.dbus i

/-- The direction of the four control pins: OUTPUT from the end of reset on (R20, R26). DESIGN CHOICE (log 25): OUTPUT also before the
first reset has completed, where the spec gives no direction. -/
def controlPinDir : Dir := OUTPUT

/-- The direction of a pin (R25, R26; while INITED = 0, log 25). -/
def State.pinDir (s : State) : Pin → Dir
  | .ser => controlPinDir
  | .srclk => controlPinDir
  | .rclk => controlPinDir
  | .weN => controlPinDir
  | .d i => s.dir.getLsbD i

/-- `CONTENTION`: some line is driven by the block while OE_n = LOW (R230). -/
def State.contention (s : State) : Bool := !(s.dir == 0) && !s.oeN

/-- The bus floats: all lines are inputs and OE_n = HIGH (R231). -/
def State.floating (s : State) : Bool := s.dir == 0 && s.oeN

/-- The eight bits of DIR are equal (R25, R224). -/
def State.dirUniform (s : State) : Bool := s.dir == 0 || s.dir == BitVec.allOnes 8

/-- The quiet state of R224, WBUSY apart (its exception, R225): idle, clock and latch lines LOW, the strobe HIGH, the eight
bits of DIR equal. -/
def State.quiet (s : State) : Bool :=
  !s.busy && s.phase.isEmpty && !s.srclk && !s.rclk && s.weN && s.dirUniform

/-- `cmd_ready` = NOT BUSY AND INITED (R102). -/
def State.cmdReady (s : State) : Bool := !s.busy && s.inited

/-- `cmd_valid` and `cmd`: the command the host presents now, if any (R102). -/
def State.cmd (s : State) : Option CmdWord :=
  match s.inputs with
  | .command w :: _ => some w
  | _ => none

/-- `rsp_err` = ERR (R105). -/
def State.rspErr (s : State) : BitVec 3 := s.err.bits

/-- `rsp_data` = RDATA (R105). -/
def State.rspData (s : State) : Byte := s.rdata

/-- The stream of 17-bit items of the last completion, in emission order (R105). -/
def State.itemStream (s : State) : List (BitVec 17) := s.rspItems.map Item.encode

/-! ### Device reactions and pin events -/

/-- A rising edge of SRCLK shifts: SR <- (SR[14:0], SER) (R57). -/
def shiftStages (s : State) : State := { s with sr := (s.sr.setWidth 15).concat s.ser }

/-- A rising edge of RCLK latches: Q <- SR (R58). -/
def latchOutputs (s : State) : State := { s with q := s.sr }

/-- What the EEPROM requires at an edge of WE_n: OE_n = HIGH, every DIR[i] = OUTPUT, WBUSY = 0 (R63, R64). -/
def State.strobeAllowed (s : State) : Bool := s.oeN && s.dir == BitVec.allOnes 8 && !s.wbusy

/-- The device write at a rising edge of WE_n: the addressed cell takes the data bus, which the block alone drives, and
WBUSY <- 1 (R63). -/
def deviceWrite (s : State) : State :=
  { s with mem := Memory.write s.mem s.cell s.dout, wbusy := true }

/-- `PinMode(Di, d)` (R120). -/
def pinMode (i : Fin 8) (d : Dir) (s : State) : State := { s with dir := setBit s.dir i d }

/-- The block's side of `PinWrite(p, l)`: the register of the pin takes the level (R121). -/
def driveLevel (p : Pin) (l : Level) (s : State) : State :=
  match p with
  | .ser => { s with ser := l }
  | .srclk => { s with srclk := l }
  | .rclk => { s with rclk := l }
  | .weN => { s with weN := l }
  | .d i => { s with dout := setBit s.dout i l }

/-- The devices' side of `PinWrite(p, l)`, seen before the level changes: they react to an edge of SRCLK, RCLK or WE_n, and a
write that changes no level is no edge (R56). An edge of WE_n outside the device's conditions is refused (R63, R64), and so
is a write to a data line that is an input (R121). -/
def react (p : Pin) (l : Level) (s : State) : Result :=
  match p with
  | .ser => .next s
  | .srclk => .next (if l && !s.srclk then shiftStages s else s)
  | .rclk => .next (if l && !s.rclk then latchOutputs s else s)
  | .weN =>
    if l = s.weN then .next s
    else if s.strobeAllowed then .next (if l then deviceWrite s else s)
    else .refused .strobeOutsideWrite
  | .d i => if s.dir.getLsbD i then .next s else .refused .writeToInputLine

/-- `PinWrite(p, l)` (R121): the reaction and the new level are one step (R56). -/
def pinWrite (p : Pin) (l : Level) (s : State) : Result :=
  andThen (react p l s) fun t => .next (driveLevel p l t)

/-- `PinRead(Di)` and the storing of its level as s_i (R122, R150 step 3). -/
def pinRead (i : Fin 8) (s : State) : Result :=
  if s.dir.getLsbD i then .refused .readFromOutputLine
  else .next { s.afterDraw i with samples := setBit s.samples i (s.dbus i) }

/-- `Delay(T)`: the device's write cycle ends with the recovery wait (R125, R65). -/
def delay (t : Wait) (s : State) : State :=
  match t with
  | .tWp => s
  | .tWc => { s with wbusy := false }

/-- The event as the trace lists it, with the level a sample returns in this state (R18). -/
def PinEvent.record (s : State) : PinEvent → TraceEvent
  | .mode i d => .mode i d
  | .wr p l => .wr p l
  | .rd i => .rd i (s.dbus i)
  | .delay t => .delay t

/-- The effect of one pin event on the block and the devices (R120 to R125). -/
def pinEffect (e : PinEvent) (s : State) : Result :=
  match e with
  | .mode i d => .next (pinMode i d s)
  | .wr p l => pinWrite p l s
  | .rd i => pinRead i s
  | .delay t => .next (delay t s)

/-- One pin event: its effect, and its record at the end of the trace (R14). -/
def perform (e : PinEvent) (s : State) : Result :=
  pinEffect e { s with trace := s.trace ++ [e.record s] }

/-- A list of pin events, in order (R14, R70). -/
def performAll : List PinEvent → State → Result
  | [], s => .next s
  | e :: es, s => andThen (perform e s) (performAll es)

/-- The pin event that a trace event records. -/
def TraceEvent.erase : TraceEvent → PinEvent
  | .mode i d => .mode i d
  | .wr p l => .wr p l
  | .rd i _ => .rd i
  | .delay t => .delay t

/-- The record of an event when a sample of line Di returns bit i of `v`. -/
def PinEvent.recordWith (v : Byte) : PinEvent → TraceEvent
  | .mode i d => .mode i d
  | .wr p l => .wr p l
  | .rd i => .rd i (v.getLsbD i)
  | .delay t => .delay t

/-- The time a trace waits at least, in nanoseconds: the sum of its delays (R125, R240, R241, R243). -/
def Trace.waitNs (c : Config) : List TraceEvent → Nat
  | [] => 0
  | .delay .tWp :: es => c.tWp + waitNs c es
  | .delay .tWc :: es => c.tWc + waitNs c es
  | .mode _ _ :: es => waitNs c es
  | .wr _ _ :: es => waitNs c es
  | .rd _ _ :: es => waitNs c es

/-! ### The sequencer -/

/-- TAKING THE BLOCK'S ONE EXCEPTION, `raise RangeError(code)` (R190, R194), and the answer to a reserved code (R107): the
operation ends with no pin event and changes no state but ERR; the host is told. No handler, no saved state. -/
def raiseError (code : ResultCode) (s : State) : State :=
  { s with err := code, trace := [], rspValid := true, rspItems := [] }

/-- Completion, the return to IDLE after an operation (R30, R195, R206): ERR <- OK, the result is presented, BUSY <- 0;
OUTQ is handed to the host (R39). -/
def complete (s : State) : State :=
  { s with busy := false, phase := [], err := .ok, rspValid := true, rspItems := s.outq, outq := [] }

/-- How many transactions the running operation consists of (R133, R182): L or count, 1 for a single operation. -/
def State.transactions (s : State) : Nat :=
  match s.op with
  | .setaddr => 1
  | .read => 1
  | .write => 1
  | .writebytes => s.oarg.toNat
  | .erasebytes => s.oarg.toNat
  | .dumprange => s.oarg.toNat

/-- The number of events of one transaction of an operation (R126). -/
def Op.events : Op → Nat
  | .setaddr => 50
  | .read => 66
  | .write => 70
  | .writebytes => 70
  | .erasebytes => 70
  | .dumprange => 66

/-- The number of transactions that come after the current one. -/
def State.transactionsAfter (s : State) : Nat :=
  match s.op with
  | .setaddr => 0
  | .read => 0
  | .write => 0
  | .writebytes => s.oarg.toNat - (s.idx + 1)
  | .erasebytes => s.oarg.toNat - (s.idx + 1)
  | .dumprange => s.oarg.toNat - (s.idx + 1)

/-- How many pin events the running operation has still to produce; 0 when IDLE (R30). -/
def State.eventsLeft (s : State) : Nat :=
  if s.busy then s.phase.length + s.transactionsAfter * s.op.events else 0

/-- `PHASE` as the spec counts it: none is IDLE, else the index of the next event in the operation's trace (R30). -/
def State.phaseIndex (s : State) : Option Nat :=
  if s.busy then some (s.transactions * s.op.events - s.eventsLeft) else none

/-- The events of the transaction that the bulk counters IDX and CUR name (R170, R174, R176). -/
def bulkEvents (s : State) : List PinEvent :=
  match s.op with
  | .setaddr => []
  | .read => []
  | .write => []
  | .writebytes => writeEvents s.cur (byteOf (s.pb.getD s.idx 0))
  | .erasebytes => writeEvents s.cur fill
  | .dumprange => readEvents s.cur

/-- DUMPRANGE prefixes each row with its base address: emit(ROWBASE(CUR)) when IDX mod 16 = 0 (R176). -/
def emitRowBase (s : State) : State :=
  if s.op = .dumprange ∧ s.idx % row = 0 then { s with outq := s.outq ++ [.rowBase s.cur] } else s

/-- Begin the transaction that IDX and CUR name, or complete the bulk operation if none is left (R170, R174, R176, R186). -/
def bulkNext (s : State) : State :=
  if s.idx < s.oarg.toNat then { emitRowBase s with phase := bulkEvents s } else complete s

/-- One more transaction is done (R31). -/
def advance (s : State) : State := { s with idx := s.idx + 1, cur := s.cur + 1 }

/-- RDATA <- the sampled byte, step 4 of `Read` (R150). -/
def assemble (s : State) : State := { s with rdata := s.samples }

/-- emit(BYTE(v)) (R176). -/
def emitByte (s : State) : State := { s with outq := s.outq ++ [.byte s.rdata] }

/-- What the sequencer does after the last event of a transaction. -/
def endTransaction (s : State) : State :=
  match s.op with
  | .setaddr => complete s
  | .read => complete (assemble s)
  | .write => complete s
  | .writebytes => bulkNext (advance s)
  | .erasebytes => bulkNext (advance s)
  | .dumprange => bulkNext (advance (emitByte (assemble s)))

/-- Finish the transaction if its events are all produced. -/
def settlePhase (s : State) : State := if s.phase.isEmpty then endTransaction s else s

/-- One pin event of the running operation; PHASE advances by one (R30). Idle, nothing happens. -/
def tick (s : State) : Result :=
  match s.phase with
  | [] => .next s
  | e :: es => andThen (perform e { s with phase := es }) fun t => .next (settlePhase t)

/-- `n` pin events. -/
def ticks : Nat → State → Result
  | 0, s => .next s
  | n + 1, s => andThen (tick s) (ticks n)

/-- Run the operation in progress to its completion; idle, nothing happens. -/
def finish (s : State) : Result := ticks s.eventsLeft s

/-- A host-visible operation as a whole: a presented command waits while BUSY = 1 (R206, log 15), is accepted, and runs to its
completion (R70, R133). -/
def runOperation (accept : State → Result) (s : State) : Result :=
  andThen (andThen (finish s) accept) finish

/-- Acceptance (R206): only once INITED = 1; the trace begins anew and the response of the last operation ends. -/
def whenInitialised (body : State → Result) (s : State) : Result :=
  if s.inited then body s else .refused .notInitialised

/-- The operands are captured and BUSY is set (R29, R206); OUTQ is empty (R39). -/
def capture (op : Op) (addr : Int) (s : State) : State :=
  { s with op := op, oaddr := addr, busy := true, outq := [], trace := [], rspValid := false, rspItems := [] }

/-- The bulk counters at acceptance: IDX = 0, CUR = OADDR (R31). DEDUCED (log 24): with no transaction too, although R186 says that
such an operation changes no state. -/
def startBulk (s : State) : State := bulkNext { s with idx := 0, cur := s.oaddr.toNat }

/-! ### Reset -/

/-- The next event is one of a Write's events 67 to 69: its strobe has fallen and its recovery has not ended (R225). -/
def State.inStrobe (s : State) : Bool :=
  s.busy &&
  match s.phase with
  | .delay _ :: _ => true
  | .wr .weN true :: _ => true
  | _ => false

/-- A Write cut short between its strobe and the end of its recovery leaves any value in its cell, fixed from then on, and the
device busy until a time T_WC has passed (R225, U13; log 11). -/
def abandonWrite (s : State) : State :=
  if s.inStrobe then
    { s with mem := Memory.write s.mem s.cell (Config.freeCell s.draws), draws := s.draws + 1, wbusy := true }
  else s

/-- Every register of the block at its reset value; the devices are untouched (R40, R220; log 3 for the values the spec leaves
open). -/
def resetRegisters (s : State) : State :=
  { s with
    ser := State.reset.ser
    srclk := State.reset.srclk
    rclk := State.reset.rclk
    weN := State.reset.weN
    dout := State.reset.dout
    dir := State.reset.dir
    rdata := State.reset.rdata
    busy := State.reset.busy
    err := State.reset.err
    inited := State.reset.inited
    phase := State.reset.phase
    op := State.reset.op
    oaddr := State.reset.oaddr
    oarg := State.reset.oarg
    pb := State.reset.pb
    idx := State.reset.idx
    cur := State.reset.cur
    outq := State.reset.outq
    pbuf := State.reset.pbuf
    samples := State.reset.samples
    trace := State.reset.trace
    rspValid := State.reset.rspValid
    rspItems := State.reset.rspItems }

/-- Reset applied and released, idle or inside an operation (R201, R220, R225). -/
def applyReset (s : State) : State := resetRegisters (abandonWrite s)

/-- Loss of power, the next power-on and its reset (R215, R225): as a reset, and SR and Q hold any value (R40; log 11). -/
def applyPowerLoss (s : State) : State :=
  let t := applyReset s
  { t with
    sr := Config.freeStages t.draws
    q := Config.freeLatches t.draws
    draws := t.draws + 1 }

end Sys2Proof.Machine
end

