-- ==== Sys2Proof/Machine/Bulk.lean ====
section
/-! DEFINITION. The Bulk Operations (43_bulk_operations.md): WRITEBYTES, ERASEBYTES, DUMPRANGE. Every check is made at
acceptance, on the whole range and every element (R180). -/

namespace Sys2Proof.Machine

/-- Acceptance of WRITEBYTES (R170); the payload is captured (R104, R187). -/
def acceptWritebytes (start len : Int) : State → Result :=
  whenInitialised fun s =>
    match checkWritebytes s.cfg.n start len (payloadOf s.pbuf len) with
    | some code => .next (raiseError code s)
    | none => .next (startBulk { capture .writebytes start s with oarg := len, pb := payloadOf s.pbuf len })

/-- WRITEBYTES, `writeBytes(startAddress, PB[0..L-1])` (R170). -/
def execWritebytes (start len : Int) (s : State) : Result := runOperation (acceptWritebytes start len) s

/-- Acceptance of ERASEBYTES (R174). -/
def acceptErasebytes (start count : Int) : State → Result :=
  whenInitialised fun s =>
    match checkErasebytes s.cfg.n start count with
    | some code => .next (raiseError code s)
    | none => .next (startBulk { capture .erasebytes start s with oarg := count })

/-- ERASEBYTES, `eraseBytes(startAddress, count)` (R174). -/
def execErasebytes (start count : Int) (s : State) : Result := runOperation (acceptErasebytes start count) s

/-- Acceptance of DUMPRANGE (R176). -/
def acceptDumprange (start count : Int) : State → Result :=
  whenInitialised fun s =>
    match checkDumprange s.cfg.n start count with
    | some code => .next (raiseError code s)
    | none => .next (startBulk { capture .dumprange start s with oarg := count })

/-- DUMPRANGE, `dumpRange(startAddress, count)` (R176). -/
def execDumprange (start count : Int) (s : State) : Result := runOperation (acceptDumprange start count) s

end Sys2Proof.Machine
end

