-- ==== Sys2Proof/Machine/ShiftBus.lean ====
section
/-! DEFINITION. The Shift-Register Bus (41_shift_register_bus.md): SETADDR. -/

namespace Sys2Proof.Machine

/-- Acceptance of SETADDR (R140): no range check; an address outside [0, 32767] is refused (R148, U1). -/
def acceptSetaddr (addr : Int) (oe : Bool) : State → Result :=
  whenInitialised fun s =>
    if fits15 addr then
      .next { capture .setaddr addr s with
              oarg := if oe then 1 else 0
              phase := setAddressEvents addr.toNat oe }
    else .refused .addressBeyond15Bits

/-- SETADDR, `setAddress(address, outputEnable)` (R140). -/
def execSetaddr (addr : Int) (oe : Bool) (s : State) : Result := runOperation (acceptSetaddr addr oe) s

end Sys2Proof.Machine
end

