-- ==== Sys2Proof/Machine/Transaction.lean ====
section
/-! DEFINITION. The EEPROM Transaction Engine (42_transaction_engine.md): READ and WRITE. -/

namespace Sys2Proof.Machine

/-- Acceptance of READ (R150). -/
def acceptRead (addr : Int) : State → Result :=
  whenInitialised fun s =>
    match checkRead s.cfg.n addr with
    | some code => .next (raiseError code s)
    | none => .next { capture .read addr s with phase := readEvents addr.toNat }

/-- READ, `Read(address)` (R150). -/
def execRead (addr : Int) (s : State) : Result := runOperation (acceptRead addr) s

/-- Acceptance of WRITE (R160). -/
def acceptWrite (addr byte : Int) : State → Result :=
  whenInitialised fun s =>
    match checkWrite s.cfg.n addr byte with
    | some code => .next (raiseError code s)
    | none => .next { capture .write addr s with oarg := byte, phase := writeEvents addr.toNat (byteOf byte) }

/-- WRITE, `Write(address, byte)` (R160). -/
def execWrite (addr byte : Int) (s : State) : Result := runOperation (acceptWrite addr byte) s

end Sys2Proof.Machine
end

