-- ==== Sys2Proof/Machine/Dispatch.lean ====
section
/-! DEFINITION. One arm per operation. -/

namespace Sys2Proof.Machine

/-- The meaning of an operation: the whole of it, from acceptance to completion. -/
def exec (i : Instr) (s : State) : Host.Outcome State Fault Refusal :=
  match i with
  | .setaddr addr oe => Sys2Proof.Machine.execSetaddr addr oe s
  | .read addr => Sys2Proof.Machine.execRead addr s
  | .write addr byte => Sys2Proof.Machine.execWrite addr byte s
  | .writebytes start len => Sys2Proof.Machine.execWritebytes start len s
  | .erasebytes start count => Sys2Proof.Machine.execErasebytes start count s
  | .dumprange start count => Sys2Proof.Machine.execDumprange start count s

end Sys2Proof.Machine
end

