-- ==== Sys2Proof/Machine/Accept.lean ====
section
/-! DEFINITION. Acceptance of an operation without running it (60_exceptions.md R206): the state in which PHASE stands before
its first event. The step uses it where a reset lands inside the operation (70_reset_and_hazards.md R225; log 7). -/

namespace Sys2Proof.Machine

/-- Accept the operation (R206). -/
def accept (i : Instr) (s : State) : Result :=
  match i with
  | .setaddr addr oe => acceptSetaddr addr oe s
  | .read addr => acceptRead addr s
  | .write addr byte => acceptWrite addr byte s
  | .writebytes start len => acceptWritebytes start len s
  | .erasebytes start count => acceptErasebytes start count s
  | .dumprange start count => acceptDumprange start count s

end Sys2Proof.Machine
end

