-- ==== Sys2Proof/Machine/Port.lean ====
section
/-! DEFINITION. The block's host side (30_encoding.md R102 to R107, 60_exceptions.md R206, R216): what the next input does
while an operation runs and while none does. -/

namespace Sys2Proof.Machine

/-- While BUSY = 1 (R201, R206, R225): a reset or a loss of power that is due wins; otherwise one pin event happens, and one
that is not yet due comes one event nearer. Every other input waits. -/
def stepBusy (s : State) : Result :=
  match s.inputs with
  | .reset 0 :: rest => .next (applyReset { s with inputs := rest })
  | .reset (n + 1) :: rest => tick { s with inputs := .reset n :: rest }
  | .powerLoss 0 :: rest => .next (applyPowerLoss { s with inputs := rest })
  | .powerLoss (n + 1) :: rest => tick { s with inputs := .powerLoss n :: rest }
  | _ => tick s

/-- A reset or a loss of power is the next thing to happen after the command, so it can land inside the operation. -/
def cutAhead (rest : List HostInput) : Bool :=
  match rest with
  | .reset _ :: _ => true
  | .powerLoss _ :: _ => true
  | _ => false

/-- A presented command word (R102, R107, R222): refused before the first reset; a reserved code is answered with ILLEGAL_OP;
any other word is an operation. -/
def serveCommand (w : CmdWord) (rest : List HostInput) (s : State) : PortAction :=
  if s.inited then
    match decode w with
    | .error _ => .answer (.next (raiseError .illegalOp s))
    | .ok i => if cutAhead rest then .acceptOnly i s else .run i s
  else .answer (.refused .notInitialised)

/-- A payload write (R102): the entry must exist. -/
def servePayload (idx : Nat) (val : BitVec 32) (s : State) : Result :=
  if idx < s.cfg.pbd then .next { s with pbuf := PayloadBuffer.write s.pbuf idx val, rspValid := false }
  else .fault .noSuchPayloadEntry

/-- A time T_WC passes with no operation running (R225): the device's write cycle is over. -/
def letSettle (s : State) : State := { s with wbusy := false, rspValid := false }

/-- While BUSY = 0: the next input, taken off the list; with none the block stays idle (R195, R206). -/
def serveIdle (s : State) : PortAction :=
  match s.inputs with
  | [] => .answer (.next { s with rspValid := false })
  | .command w :: rest => serveCommand w rest { s with inputs := rest }
  | .payload idx val :: rest => .answer (servePayload idx val { s with inputs := rest })
  | .reset _ :: rest => .answer (.next (applyReset { s with inputs := rest }))
  | .powerLoss _ :: rest => .answer (.next (applyPowerLoss { s with inputs := rest }))
  | .settle :: rest => .answer (.next (letSettle { s with inputs := rest }))

/-- What the machine does next. -/
def serve (s : State) : PortAction := if s.busy then .answer (stepBusy s) else serveIdle s

/-- The state in which the word's operation is the next thing that runs: no operation in progress, INITED = 1, the command
presented and nothing after it (log 17). -/
def presentWord (s : State) (nbits w : Nat) : State :=
  { s with inputs := [.command (BitVec.ofNat 67 (w % 2 ^ nbits))], busy := false, phase := [], inited := true }

end Sys2Proof.Machine
end

