-- ==== Sys2Proof/Machine/Step.lean ====
section
/-! DEFINITION. One step of the machine: the port says what is next (Machine/Port.lean), and an operation is run by `exec`. -/

namespace Sys2Proof.Machine

/-- One step. -/
def step (s : State) : Host.Outcome State Fault Refusal :=
  match serve s with
  | .run i t => exec i t
  | .acceptOnly i t => accept i t
  | .answer r => r

/-- The state whose next step runs the instruction with these bits (log 17). -/
def State.withFetchWord (s : State) (nbits w : Nat) : State := presentWord s nbits w

end Sys2Proof.Machine
end

