-- ==== Sys2Proof/Safety.lean ====
section
/-! DEFINITION. What a sound state is, in the terms the claims use: the stores in canonical form, the quiet state of
70_reset_and_hazards.md R224 carried through a running operation, and the sequencer's place in the fixed event list of
10_state.md R30, R31. -/

namespace Sys2Proof.Machine

/-! ### The stores -/

/-- The array and the payload buffer are in canonical form and list only entries that exist (R36, R50, R102). -/
def State.storesCanonical (s : State) : Bool :=
  Memory.wf s.mem && Memory.within s.mem s.cfg.n && PayloadBuffer.wf s.pbuf && PayloadBuffer.within s.pbuf s.cfg.pbd

/-! ### The quiet state -/

/-- The level a control or data pin's register has after these events, if it has `l` before them. -/
def levelAfter (p : Pin) : List PinEvent → Level → Level
  | [], l => l
  | .wr p' l' :: es, l => levelAfter p es (if p' = p then l' else l)
  | .mode _ _ :: es, l => levelAfter p es l
  | .rd _ :: es, l => levelAfter p es l
  | .delay _ :: es, l => levelAfter p es l

/-- DIR after these events, if it is `d` before them. -/
def dirAfter : List PinEvent → BitVec 8 → BitVec 8
  | [], d => d
  | .mode i x :: es, d => dirAfter es (setBit d i x)
  | .wr _ _ :: es, d => dirAfter es d
  | .rd _ :: es, d => dirAfter es d
  | .delay _ :: es, d => dirAfter es d

/-- Idle, the state is quiet (R224); while an operation runs, it is initialised, some event is left, and the events left bring
the lines back to the quiet levels. -/
def State.quietInv (s : State) : Prop :=
  if s.busy then
    s.inited = true ∧ s.phase ≠ [] ∧
    levelAfter .srclk s.phase s.srclk = LOW ∧ levelAfter .rclk s.phase s.rclk = LOW ∧
    levelAfter .weN s.phase s.weN = HIGH ∧
    (dirAfter s.phase s.dir = 0 ∨ dirAfter s.phase s.dir = BitVec.allOnes 8)
  else s.quiet = true

/-! ### The sequencer's place -/

/-- The operand registers are within the ranges that acceptance checked (R106, R140). -/
def State.operandsLegal (s : State) : Prop :=
  match s.op with
  | .setaddr => 0 ≤ s.oaddr ∧ s.oaddr ≤ 32767 ∧ (s.oarg = 0 ∨ s.oarg = 1)
  | .read => 0 ≤ s.oaddr ∧ s.oaddr < s.cfg.n
  | .write => 0 ≤ s.oaddr ∧ s.oaddr < s.cfg.n ∧ 0 ≤ s.oarg ∧ s.oarg ≤ 255
  | .writebytes =>
    0 ≤ s.oaddr ∧ 0 ≤ s.oarg ∧ s.oaddr + s.oarg ≤ s.cfg.n ∧ s.pb.length = s.oarg.toNat ∧
    ∀ v ∈ s.pb, 0 ≤ v ∧ v ≤ 255
  | .erasebytes => 0 ≤ s.oaddr ∧ 0 ≤ s.oarg ∧ s.oaddr + s.oarg ≤ s.cfg.n
  | .dumprange => 0 ≤ s.oaddr ∧ 0 ≤ s.oarg ∧ s.oaddr + s.oarg ≤ s.cfg.n

/-- A bulk operation keeps CUR = OADDR + IDX, with IDX below the count (R31). -/
def State.countersInStep (s : State) : Prop :=
  match s.op with
  | .setaddr => True
  | .read => True
  | .write => True
  | .writebytes => (s.cur : Int) = s.oaddr + s.idx ∧ s.idx < s.oarg.toNat
  | .erasebytes => (s.cur : Int) = s.oaddr + s.idx ∧ s.idx < s.oarg.toNat
  | .dumprange => (s.cur : Int) = s.oaddr + s.idx ∧ s.idx < s.oarg.toNat

/-- The events of the `i`-th transaction of the operation in the operand registers (R171, R174, R177). -/
def State.transactionEvents (s : State) (i : Nat) : List PinEvent :=
  match s.op with
  | .setaddr => setAddressEvents s.oaddr.toNat (s.oarg == 1)
  | .read => readEvents s.oaddr.toNat
  | .write => writeEvents s.oaddr.toNat (byteOf s.oarg)
  | .writebytes => writeEvents (s.oaddr.toNat + i) (byteOf (s.pb.getD i 0))
  | .erasebytes => writeEvents (s.oaddr.toNat + i) fill
  | .dumprange => readEvents (s.oaddr.toNat + i)

/-- The transactions from the `i`-th on, `k` of them. -/
def State.transactionsFrom (s : State) (i k : Nat) : List PinEvent :=
  (List.range' i k).flatMap s.transactionEvents

/-- The fixed event list of the operation in the operand registers (R30, R182). -/
def State.plan (s : State) : List PinEvent := s.transactionsFrom 0 s.transactions

/-- The number of the transaction that runs: IDX in a bulk operation, 0 otherwise. -/
def State.transactionNow (s : State) : Nat :=
  match s.op with
  | .setaddr => 0
  | .read => 0
  | .write => 0
  | .writebytes => s.idx
  | .erasebytes => s.idx
  | .dumprange => s.idx

/-- The events of the transactions after the one that runs. -/
def State.later (s : State) : List PinEvent := s.transactionsFrom (s.transactionNow + 1) s.transactionsAfter

/-- While an operation runs: its operands are legal, the counters are in step, some event is left, and the events produced so
far followed by those left are exactly its fixed event list (R30, R31, R134). -/
def State.sequencerInv (s : State) : Prop :=
  s.busy = true →
    s.operandsLegal ∧ s.countersInStep ∧ s.phase ≠ [] ∧
    s.trace.map TraceEvent.erase ++ (s.phase ++ s.later) = s.plan

/-- A sound state. -/
def State.Inv (s : State) : Prop :=
  s.cfg.wf = true ∧ s.storesCanonical = true ∧ s.quietInv ∧ s.sequencerInv

end Sys2Proof.Machine
end

