-- ==== Sys2Proof/Certificates/Slice0/Obligations.lean ====
section
/-! DEFINITION. The statements for the provers, and the spec's own forms that they compare the machine with: the serialized word
as a number (30_encoding.md R91), the traces of R141, R151, R161 bit by bit of the word, the report of R178, the order of the
range checks of R106. None of these uses the model's event lists, word assembly or checks. -/

namespace Sys2Proof.Spec

open Sys2Proof.Machine

/-- An operation can be accepted: initialised, and in the quiet state that every operation starts from (R206, R224). -/
def ready (s : State) : Prop := s.inited = true ∧ s.quiet = true

/-- `W = address + (0 if outputEnable else 32768)` (R91). -/
def word (address : Int) (oe : Bool) : Word16 := BitVec.ofNat 16 (address.toNat + if oe then 0 else 32768)

/-- The events of R141, by the bits of W: sixteen groups of three, then the latch pulse. -/
def setAddressTrace (w : Word16) : List TraceEvent :=
  ([15, 14, 13, 12, 11, 10, 9, 8, 7, 6, 5, 4, 3, 2, 1, 0].flatMap fun k =>
    [.wr .ser (w.getLsbD k), .wr .srclk HIGH, .wr .srclk LOW]) ++ [.wr .rclk HIGH, .wr .rclk LOW]

/-- The events of an accepted READ that samples the byte `v` (R151). -/
def readTrace (address : Int) (v : Byte) : List TraceEvent :=
  (List.finRange 8).map (fun i => .mode i INPUT) ++ setAddressTrace (word address true) ++
    (List.finRange 8).map (fun i => .rd i (v.getLsbD i))

/-- The events of an accepted WRITE (R161). -/
def writeTrace (address : Int) (b : Byte) : List TraceEvent :=
  (List.finRange 8).map (fun i => .mode i OUTPUT) ++ setAddressTrace (word address false) ++
    (List.finRange 8).map (fun i => .wr (.d i) (b.getLsbD i)) ++
    [.wr .weN LOW, .delay .tWp, .wr .weN HIGH, .delay .tWc]

/-- The rows of DUMPRANGE over a reading of the array (R178). -/
def report (cell : Nat → Byte) (start count : Nat) : List Item :=
  (List.range ((count + 15) / 16)).flatMap fun r =>
    .rowBase (start + 16 * r) :: (List.range (min 16 (count - 16 * r))).map fun j => .byte (cell (start + 16 * r + j))

/-- Element `i` of the payload, an integer (R104). -/
def element (s : State) (i : Nat) : Int := (PayloadBuffer.read s.pbuf i).toInt

/-- The first failing check of R106, top to bottom. -/
def rejection (s : State) : Instr → Option ResultCode
  | .setaddr _ _ => none
  | .read addr => if addr < 0 ∨ addr > s.cfg.n - 1 then some .addrRange else none
  | .write addr byte =>
    if addr < 0 ∨ addr > s.cfg.n - 1 then some .addrRange
    else if byte < 0 ∨ byte > 255 then some .dataRange else none
  | .writebytes start len =>
    if start < 0 ∨ start > s.cfg.n - 1 then some .addrRange
    else if len < 0 ∨ start + len > s.cfg.n then some .countRange
    else if ∃ i ∈ List.range len.toNat, element s i < 0 ∨ element s i > 255 then some .dataRange else none
  | .erasebytes start count =>
    if start < 0 ∨ start > s.cfg.n - 1 then some .addrRange
    else if count < 0 ∨ start + count > s.cfg.n then some .countRange else none
  | .dumprange start count =>
    if start < 0 ∨ start > s.cfg.n - 1 then some .addrRange
    else if count < 0 ∨ start + count > s.cfg.n then some .countRange else none

/-- What a rejected operation leaves (R190): ERR, and the port's answer (the trace and the response are the model's record of
the operation, logs 1, 14, 16). -/
def rejected (s : State) (code : ResultCode) : State :=
  { s with err := code, trace := [], rspValid := true, rspItems := [] }

/-- The record of a completed operation: result OK, its trace, its items. -/
def completed (s : State) (trace : List TraceEvent) (items : List Item) : State :=
  { s with err := .ok, outq := [], trace := trace, rspValid := true, rspItems := items }

/-- The latch and its lines after `setAddress` (R142). -/
def latched (s : State) (w : Word16) : State := { s with sr := w, q := w, ser := w.getLsbD 0 }

/-- The level SER has at each rising edge of SRCLK of a trace, in order (R149). -/
def serAtEdges : List TraceEvent → Level → Level → List Level
  | [], _, _ => []
  | .wr .ser l :: es, _, clk => serAtEdges es l clk
  | .wr .srclk l :: es, ser, clk => (if l && !clk then [ser] else []) ++ serAtEdges es ser l
  | .wr .rclk _ :: es, ser, clk => serAtEdges es ser clk
  | .wr .weN _ :: es, ser, clk => serAtEdges es ser clk
  | .wr (.d _) _ :: es, ser, clk => serAtEdges es ser clk
  | .mode _ _ :: es, ser, clk => serAtEdges es ser clk
  | .rd _ _ :: es, ser, clk => serAtEdges es ser clk
  | .delay _ :: es, ser, clk => serAtEdges es ser clk

/-- A number from its bits, the most significant first. -/
def ofBits (bs : List Level) : Nat := bs.foldl (fun n b => 2 * n + b.toNat) 0

/-- The cells an operation stores to. -/
def storesTo : Instr → Nat → Prop
  | .setaddr _ _, _ => False
  | .read _, _ => False
  | .write addr _, c => (c : Int) = addr
  | .writebytes start len, c => start ≤ (c : Int) ∧ (c : Int) < start + len
  | .erasebytes start count, c => start ≤ (c : Int) ∧ (c : Int) < start + count
  | .dumprange _ _, _ => False

/-- The registers at the values after reset that the spec gives (R40, R220). -/
def registersReset (t : State) : Prop :=
  t.ser = LOW ∧ t.srclk = LOW ∧ t.rclk = LOW ∧ t.weN = HIGH ∧ t.dout = 0 ∧ t.dir = 0 ∧ t.busy = false ∧ t.err = .ok ∧
  t.inited = true ∧ t.phase = [] ∧ t.outq = []

/-- What a reset or a loss of power leaves of the array and of WBUSY (R225, log 11): all as it was, but a cell of a Write cut short
between its strobe and its recovery takes a free value, while the device stays busy. -/
def arrayAfterCut (s t : State) : Prop :=
  (s.inStrobe = false → t.mem = s.mem ∧ t.wbusy = s.wbusy) ∧
  (s.inStrobe = true → t.wbusy = true ∧
    ∀ c, Memory.read t.mem c = if c = s.cell then Config.freeCell s.draws else Memory.read s.mem c)

/-- Operations one after the other, each complete before the next is accepted (R70). -/
def execAll : List Instr → State → Result
  | [], s => .next s
  | i :: is, s => andThen (exec i s) (execAll is)

end Sys2Proof.Spec

open Sys2Proof Sys2Proof.Machine Sys2Proof.Spec

/-! ### Encodings -/

/-- The worked command words of R110 decode to the operations they stand for. -/
def Obligations.WorkedCommandWordsDecode : Prop :=
  decode 0x300000005000000A5 = .ok (.write 5 0xA5) ∧
  decode 0x3FFFFFFFF00000000 = .ok (.write (-1) 0) ∧
  decode 0x2000007FF00000000 = .ok (.read 0x7FF) ∧
  decode 0x10000123400000000 = .ok (.setaddr 0x1234 false) ∧
  decode 0x10000123400000001 = .ok (.setaddr 0x1234 true)

/-- Decoding an encoded well-formed operation gives it back, with every operand (R103, R104, R107). -/
def Obligations.DecodeInvertsEncode : Prop :=
  ∀ i : Instr, i.wellFormed = true → decode (encode i) = .ok i

/-- The six operations by their fields, whatever the fields hold: operands are sign-extended, unused bits are ignored, the two
reserved codes are no operation (R103, R104, R107, R108). -/
def Obligations.CommandWordFieldsDecode : Prop :=
  ∀ addr arg : BitVec 32,
    decode ((1 : BitVec 3) ++ (addr ++ arg)) = .ok (.setaddr addr.toInt (arg.getLsbD 0)) ∧
    decode ((2 : BitVec 3) ++ (addr ++ arg)) = .ok (.read addr.toInt) ∧
    decode ((3 : BitVec 3) ++ (addr ++ arg)) = .ok (.write addr.toInt arg.toInt) ∧
    decode ((4 : BitVec 3) ++ (addr ++ arg)) = .ok (.writebytes addr.toInt arg.toInt) ∧
    decode ((5 : BitVec 3) ++ (addr ++ arg)) = .ok (.erasebytes addr.toInt arg.toInt) ∧
    decode ((6 : BitVec 3) ++ (addr ++ arg)) = .ok (.dumprange addr.toInt arg.toInt) ∧
    decode ((0 : BitVec 3) ++ (addr ++ arg)) = .error (.reservedOp 0) ∧
    decode ((7 : BitVec 3) ++ (addr ++ arg)) = .error (.reservedOp 7)

/-- The opcode table selects the operation: a word that decodes lies under the row of its operation and under no other, and a
word that does not decode lies under no row and has a reserved code (R107, R109). -/
def Obligations.TableRowsSelectTheOperation : Prop :=
  ∀ w : CmdWord,
    (∀ i, decode w = .ok i → ∀ r ∈ opcodeTable, r.accepts w = true ↔ r.mnemonic = i.mnemonic) ∧
    (∀ e, decode w = .error e → (∀ r ∈ opcodeTable, r.accepts w = false) ∧ (opField w = 0 ∨ opField w = 7))

/-- The serialized word (R91): the two bytes, and W = address + (0 or 32768). -/
def Obligations.SerializedWordValue : Prop :=
  ∀ (address : Nat) (oe : Bool), address ≤ 32767 →
    highByte address oe = BitVec.ofNat 8 (((address >>> 8) &&& 0x7F) ||| (if oe then 0x00 else 0x80)) ∧
    lowByte address = BitVec.ofNat 8 (address &&& 0xFF) ∧
    (addressWord address oe).toNat = (highByte address oe).toNat * 256 + (lowByte address).toNat ∧
    (addressWord address oe).toNat = address + (if oe then 0 else 32768)

/-- A byte on the data lines: driving it and then assembling the sampled levels is the identity, for any earlier contents of
the two registers (R95, R96, R132). -/
def Obligations.DriveThenSampleIsIdentity : Prop :=
  ∀ (b : Byte) (dout samples : Byte),
    (List.finRange 8).foldl (fun v (i : Fin 8) => setBit v i (b.getLsbD i)) dout = b ∧
    (List.finRange 8).foldl (fun v (i : Fin 8) => setBit v i
      (((List.finRange 8).foldl (fun v (j : Fin 8) => setBit v j (b.getLsbD j)) dout).getLsbD i)) samples = b

/-- The 17 bits of an item at the port (R105). -/
def Obligations.ItemsAtThePort : Prop :=
  (∀ addr : Nat, addr ≤ 32767 → (Item.encode (.rowBase addr)).toNat = addr) ∧
  (∀ v : Byte, (Item.encode (.byte v)).toNat = 65536 + v.toNat)

/-! ### Pin events and devices -/

/-- `ShiftOut(b)` from an idle clock: 24 events; the old low eight stages move up, the byte fills the low eight; SER ends as b[0],
SRCLK LOW, and Q and everything else are unchanged (R123). -/
def Obligations.ShiftOutMovesAByteIn : Prop :=
  ∀ (s : State) (b : Byte), s.srclk = LOW →
    ∃ t, performAll (shiftOut b) s = .next t ∧ (shiftOut b).length = 24 ∧
      (∀ k < 8, t.sr.getLsbD k = b.getLsbD k) ∧ (∀ k < 8, t.sr.getLsbD (k + 8) = s.sr.getLsbD k) ∧
      t.ser = b.getLsbD 0 ∧
      t = { s with sr := t.sr, ser := t.ser, trace := t.trace }

/-- `LatchPulse()` from an idle latch line: the sixteen outputs take the sixteen stages, the stages stay, RCLK ends LOW, and
nothing else changes (R58, R124). -/
def Obligations.LatchPulseCopiesStages : Prop :=
  ∀ s : State, s.rclk = LOW →
    performAll latchPulse s = .next { s with
      q := s.sr, trace := s.trace ++ [.wr .rclk HIGH, .wr .rclk LOW] }

/-- A rising edge of SRCLK shifts and a rising edge of RCLK latches; a falling edge, and a write that changes no level, move no
device; a write to SER moves none (R56, R57, R58). -/
def Obligations.OnlyEdgesMoveTheDevices : Prop :=
  ∀ s : State,
    (s.srclk = LOW → ∃ t, pinWrite .srclk HIGH s = .next t ∧ t.srclk = HIGH ∧ t.q = s.q ∧ t.sr.getLsbD 0 = s.ser ∧
      ∀ k < 15, t.sr.getLsbD (k + 1) = s.sr.getLsbD k) ∧
    (s.srclk = HIGH → pinWrite .srclk HIGH s = .next s) ∧
    pinWrite .srclk LOW s = .next { s with srclk := LOW } ∧
    (s.rclk = LOW → pinWrite .rclk HIGH s = .next { s with rclk := HIGH, q := s.sr }) ∧
    (s.rclk = HIGH → pinWrite .rclk HIGH s = .next s) ∧
    pinWrite .rclk LOW s = .next { s with rclk := LOW } ∧
    pinWrite .weN s.weN s = .next s ∧
    ∀ l, pinWrite .ser l s = .next { s with ser := l }

/-- The data bus, the five lines of R60: an output line has the block's level where the block alone drives it, and a free value where
the EEPROM drives it too; an input line has the EEPROM's bit where the EEPROM alone drives it, and a free value where the line
floats or the device is busy. A sample returns that level. A free value is whatever this line's draw gives, and a sample uses the
draw up (log 6). That WE_n has no part in it is log 18. -/
def Obligations.DataBusResolution : Prop :=
  ∀ (s : State) (i : Fin 8),
    (s.dir.getLsbD i = OUTPUT → s.oeN = HIGH → s.lvl (.d i) = s.dout.getLsbD i) ∧
    (s.dir.getLsbD i = OUTPUT → s.oeN = LOW → s.lvl (.d i) = Config.freeLevel s.draws i) ∧
    (s.dir.getLsbD i = INPUT → s.oeN = LOW → s.wbusy = false →
      s.lvl (.d i) = (Memory.read s.mem (s.q.toNat % 2 ^ 15 % s.cfg.n)).getLsbD i ∧
      pinRead i s = .next { s with samples := setBit s.samples i (s.lvl (.d i)) }) ∧
    (s.dir.getLsbD i = INPUT → (s.oeN = HIGH ∨ s.wbusy = true) →
      s.lvl (.d i) = Config.freeLevel s.draws i ∧
      pinRead i s = .next { s with
        samples := setBit s.samples i (Config.freeLevel s.draws i), draws := s.draws + 1 })

/-- Sampling (R66): the event `rd(Di)` returns and records the level of the data bus at that moment, and changes no state of either
device. -/
def Obligations.SampleReturnsTheBus : Prop :=
  ∀ (s t : State) (i : Fin 8), perform (.rd i) s = .next t →
    t.samples.getLsbD i = s.dbus i ∧ t.trace = s.trace ++ [.rd i (s.dbus i)] ∧
    t.sr = s.sr ∧ t.q = s.q ∧ t.mem = s.mem ∧ t.wbusy = s.wbusy

/-- An edge of WE_n (R63, R64): with OE_n HIGH, every line OUTPUT and the device idle, a falling edge starts the pulse and a rising
edge stores DOUT in the addressed cell and sets WBUSY; otherwise the step is refused. -/
def Obligations.StrobeEdgeStoresOrIsRefused : Prop :=
  ∀ s : State,
    (s.oeN = HIGH ∧ s.dir = BitVec.allOnes 8 ∧ s.wbusy = false →
      (s.weN = HIGH → pinWrite .weN LOW s = .next { s with weN := LOW }) ∧
      (s.weN = LOW → pinWrite .weN HIGH s = .next { s with
        weN := HIGH, wbusy := true, mem := Memory.write s.mem (s.q.toNat % 2 ^ 15 % s.cfg.n) s.dout })) ∧
    (¬ (s.oeN = HIGH ∧ s.dir = BitVec.allOnes 8 ∧ s.wbusy = false) →
      ∀ l, l ≠ s.weN → pinWrite .weN l s = .refused .strobeOutsideWrite)

/-- A write to an input line and a sample of an output line are refused; a write to an output line sets that bit of DOUT and
nothing else; a direction is set on one line, DOUT unchanged (R120, R121, R122). -/
def Obligations.LineDirectionGuardsItsUse : Prop :=
  ∀ (s : State) (i : Fin 8) (l : Level) (d : Dir),
    (s.dir.getLsbD i = INPUT → pinWrite (.d i) l s = .refused .writeToInputLine) ∧
    (s.dir.getLsbD i = OUTPUT → pinRead i s = .refused .readFromOutputLine) ∧
    (s.dir.getLsbD i = OUTPUT → ∃ t, pinWrite (.d i) l s = .next t ∧ t = { s with dout := t.dout } ∧
      ∀ j : Fin 8, t.dout.getLsbD j = if j = i then l else s.dout.getLsbD j) ∧
    pinMode i d s = { s with dir := (pinMode i d s).dir } ∧
    ∀ j : Fin 8, (pinMode i d s).dir.getLsbD j = if j = i then d else s.dir.getLsbD j

/-- `delay(T_WC)` ends the device's write cycle and changes nothing else; `delay(T_WP)` changes nothing (R65, R125). -/
def Obligations.RecoveryWaitEndsTheWriteCycle : Prop :=
  ∀ s : State, pinEffect (.delay .tWc) s = .next { s with wbusy := false } ∧ pinEffect (.delay .tWp) s = .next s

/-! ### SETADDR -/

/-- SETADDR with a legal address: 50 events, the word is latched, and every other register and the array are unchanged (R140,
R141, R142, R143). OARG, and that the captured payload, IDX and CUR stay, is log 10; the recorded trace and the answer are logs 1,
14 and 16. -/
def Obligations.SetaddrFollowsItsRule : Prop :=
  ∀ (s : State) (addr : Int) (oe : Bool), ready s → 0 ≤ addr → addr ≤ 32767 →
    exec (.setaddr addr oe) s = .next
      { completed (latched s (word addr oe)) (setAddressTrace (word addr oe)) [] with
        op := .setaddr, oaddr := addr, oarg := if oe then 1 else 0 }

/-- SETADDR outside [0, 32767] is refused (R148). -/
def Obligations.SetaddrBeyond15BitsIsRefused : Prop :=
  ∀ (s : State) (addr : Int) (oe : Bool), s.inited = true → s.busy = false → (addr < 0 ∨ addr > 32767) →
    exec (.setaddr addr oe) s = .refused .addressBeyond15Bits

/-- The round trip of R149: the trace of SETADDR has exactly 16 rising edges of SRCLK, and SER at those edges gives two bytes that
decode back to the flag and the address (R93). -/
def Obligations.SetaddrTraceDecodesBack : Prop :=
  ∀ (s : State) (addr : Int) (oe : Bool), ready s → 0 ≤ addr → addr ≤ 32767 →
    ∃ t, exec (.setaddr addr oe) s = .next t ∧
      (serAtEdges t.trace s.ser s.srclk).length = 16 ∧
      ∃ b1 b2 : Nat, b1 = ofBits ((serAtEdges t.trace s.ser s.srclk).take 8) ∧
        b2 = ofBits ((serAtEdges t.trace s.ser s.srclk).drop 8) ∧
        (b1 / 128 = if oe then 0 else 1) ∧ ((b1 % 128 * 256 + b2 : Nat) : Int) = addr ∧
        (t.oeN = !oe) ∧ (t.abus.toNat : Int) = addr

/-- SETADDR validates nothing up to 32767: an address from N on is accepted and silently selects cell address mod N (R236). -/
def Obligations.SetaddrSelectsModuloN : Prop :=
  ∀ (s : State) (addr : Int) (oe : Bool), ready s → s.cfg.wf = true → (s.cfg.n : Int) ≤ addr → addr ≤ 32767 →
    ∃ t, exec (.setaddr addr oe) s = .next t ∧ t.err = .ok ∧ t.cell = addr.toNat % s.cfg.n

/-- Atomic presentation (R145): through event 47 the outputs keep the value they had, from event 48 on they hold the whole word. -/
def Obligations.SetaddrPresentsAtomically : Prop :=
  ∀ (s : State) (addr : Int) (oe : Bool), ready s → 0 ≤ addr → addr ≤ 32767 →
    ∃ u, accept (.setaddr addr oe) s = .next u ∧
      ∀ k, k ≤ 50 → ∃ v, ticks k u = .next v ∧ v.q = if k ≤ 48 then s.q else word addr oe

/-! ### READ and WRITE -/

/-- READ (R150, R151, R153, R154): rejected with ADDR_RANGE outside [0, N-1]; otherwise 66 events, RDATA is the cell, and the array
and every register it does not name are unchanged. That OARG, the captured payload, IDX and CUR are among those is the model's
choice (log 10); the samples, the recorded trace and the answer are logs 13, 1, 14 and 16. -/
def Obligations.ReadFollowsItsRule : Prop :=
  ∀ (s : State) (addr : Int), ready s → s.cfg.wf = true → s.wbusy = false →
    exec (.read addr) s = .next
      (if 0 ≤ addr ∧ addr ≤ s.cfg.n - 1 then
        { completed (latched s (word addr true)) (readTrace addr (Memory.read s.mem addr.toNat)) [] with
          op := .read, oaddr := addr, dir := 0
          samples := Memory.read s.mem addr.toNat, rdata := Memory.read s.mem addr.toNat }
      else rejected s .addrRange)

/-- A READ while the device is still in a write cycle that a reset cut short completes; the bits it returns are free draws, and
the array is unchanged (R60, R65, U4). -/
def Obligations.ReadOfABusyDeviceCompletes : Prop :=
  ∀ (s : State) (addr : Int), ready s → s.cfg.wf = true → s.wbusy = true → 0 ≤ addr → addr ≤ s.cfg.n - 1 →
    ∃ t, exec (.read addr) s = .next t ∧ t.err = .ok ∧ t.mem = s.mem ∧ t.wbusy = true ∧
      t.draws = s.draws + 8 ∧ ∀ i : Fin 8, t.rdata.getLsbD i = Config.freeLevel (s.draws + i) i

/-- WRITE (R160, R161, R163, R164): ADDR_RANGE is decided before DATA_RANGE; otherwise 70 events, the addressed cell takes the byte,
every other cell is unchanged, and so is every register it does not name. That the captured payload, IDX and CUR are among those
is the model's choice (log 10); the recorded trace and the answer are logs 1, 14 and 16. -/
def Obligations.WriteFollowsItsRule : Prop :=
  ∀ (s : State) (addr byte : Int), ready s → s.cfg.wf = true → s.storesCanonical = true → s.wbusy = false →
    (¬ (0 ≤ addr ∧ addr ≤ s.cfg.n - 1) → exec (.write addr byte) s = .next (rejected s .addrRange)) ∧
    (0 ≤ addr ∧ addr ≤ s.cfg.n - 1 → ¬ (0 ≤ byte ∧ byte ≤ 255) →
      exec (.write addr byte) s = .next (rejected s .dataRange)) ∧
    (0 ≤ addr ∧ addr ≤ s.cfg.n - 1 → 0 ≤ byte ∧ byte ≤ 255 →
      ∃ t, exec (.write addr byte) s = .next t ∧
        (∀ c, (Memory.read t.mem c).toNat = if (c : Int) = addr then byte.toNat else (Memory.read s.mem c).toNat) ∧
        t = { completed (latched s (word addr false)) (writeTrace addr (BitVec.ofNat 8 byte.toNat)) [] with
              op := .write, oaddr := addr, oarg := byte, dir := BitVec.allOnes 8
              dout := BitVec.ofNat 8 byte.toNat, mem := t.mem })

/-- A WRITE while the device is still in a write cycle that a reset cut short is refused at its strobe (R64, U5). -/
def Obligations.WriteToABusyDeviceIsRefused : Prop :=
  ∀ (s : State) (addr byte : Int), ready s → s.cfg.wf = true → s.wbusy = true → 0 ≤ addr → addr ≤ s.cfg.n - 1 →
    0 ≤ byte → byte ≤ 255 → exec (.write addr byte) s = .refused .strobeOutsideWrite

/-- The contention window of WRITE (R162, R230): with OE_n LOW before it, CONTENTION holds after each of its events 0 to 55 and
after none of its later events; with OE_n HIGH before it, after none at all. -/
def Obligations.WriteContentionWindow : Prop :=
  ∀ (s : State) (addr byte : Int), ready s → s.cfg.wf = true → s.wbusy = false → 0 ≤ addr → addr ≤ s.cfg.n - 1 →
    0 ≤ byte → byte ≤ 255 →
    ∃ u, accept (.write addr byte) s = .next u ∧
      ∀ k, k < 70 → ∃ v, ticks (k + 1) u = .next v ∧ v.contention = (decide (k ≤ 55) && !s.oeN)

/-- READ avoids contention (R152): from its event 7 on no line is contended, whatever state came before. -/
def Obligations.ReadEndsContentionAtItsDirections : Prop :=
  ∀ (s : State) (addr : Int), ready s → s.cfg.wf = true → 0 ≤ addr → addr ≤ s.cfg.n - 1 →
    ∃ u, accept (.read addr) s = .next u ∧
      ∀ k, 7 ≤ k → k < 66 → ∃ v, ticks (k + 1) u = .next v ∧ v.contention = false

/-- Setup before the strobe (R235, R163): after each of the events 65 to 68 of WRITE the address, OE_n HIGH, the eight outputs and
the byte are in place; WE_n is LOW after events 66 and 67 only, and the array first changes at event 68. -/
def Obligations.WriteHoldsAddressAndDataAcrossStrobe : Prop :=
  ∀ (s : State) (addr byte : Int), ready s → s.cfg.wf = true → s.wbusy = false → 0 ≤ addr → addr ≤ s.cfg.n - 1 →
    0 ≤ byte → byte ≤ 255 →
    ∃ u, accept (.write addr byte) s = .next u ∧
      ∀ k, 65 ≤ k → k ≤ 68 → ∃ v, ticks (k + 1) u = .next v ∧
        v.oeN = HIGH ∧ (v.abus.toNat : Int) = addr ∧ v.dir = BitVec.allOnes 8 ∧ (v.dout.toNat : Int) = byte ∧
        (v.weN = LOW ↔ k = 66 ∨ k = 67) ∧ (v.wbusy = true ↔ k = 68) ∧ (k < 68 → v.mem = s.mem)

/-- Write then read (R71): the byte written to a cell is what the next READ of it returns. -/
def Obligations.WriteThenReadReturnsTheByte : Prop :=
  ∀ (s : State) (addr byte : Int), ready s → s.cfg.wf = true → s.storesCanonical = true → s.wbusy = false →
    0 ≤ addr → addr ≤ s.cfg.n - 1 → 0 ≤ byte → byte ≤ 255 →
    ∃ t u, exec (.write addr byte) s = .next t ∧ exec (.read addr) t = .next u ∧ (u.rdata.toNat : Int) = byte

/-- A READ returns the last write (R71): the byte written to a cell, whatever operations come between that do not store to that
cell, rejected ones that name it included; and with no write to it at all, the byte it held. -/
def Obligations.ReadReturnsTheLastWrite : Prop :=
  ∀ (s : State) (addr byte : Int) (ops : List Instr), ready s → s.cfg.wf = true → s.storesCanonical = true → s.wbusy = false →
    0 ≤ addr → addr ≤ s.cfg.n - 1 → 0 ≤ byte → byte ≤ 255 → (∀ i ∈ ops, storesTo i addr.toNat → rejection s i ≠ none) →
    (∃ t, exec (.write addr byte) s = .next t ∧
      ∀ u, execAll ops t = .next u → ∃ v, exec (.read addr) u = .next v ∧ v.err = .ok ∧ (v.rdata.toNat : Int) = byte) ∧
    (∀ u, execAll ops s = .next u →
      ∃ v, exec (.read addr) u = .next v ∧ v.err = .ok ∧ v.rdata = Memory.read s.mem addr.toNat)

/-- Two stores (R136): to the same cell the later byte stays; to different cells the order does not matter to the array. -/
def Obligations.StoresCommuteOrOverwrite : Prop :=
  ∀ (s : State) (a b x y : Int), ready s → s.cfg.wf = true → s.storesCanonical = true → s.wbusy = false →
    0 ≤ a → a ≤ s.cfg.n - 1 → 0 ≤ b → b ≤ s.cfg.n - 1 → 0 ≤ x → x ≤ 255 → 0 ≤ y → y ≤ 255 →
    ∃ t u t' u', exec (.write a x) s = .next t ∧ exec (.write b y) t = .next u ∧
      exec (.write b y) s = .next t' ∧ exec (.write a x) t' = .next u' ∧
      (a ≠ b → u.mem = u'.mem) ∧ (a = b → u.mem = t'.mem)

/-! ### Bulk operations -/

/-- WRITEBYTES (R170, R171, R172): the checks of R106 in order; otherwise the traces of its single writes one after the other, cell
startAddress + i takes element i, every other cell is unchanged, and the rest is as the last write leaves it (with nothing to
write, as it was). OARG and the captured payload are log 10; that IDX, CUR and the operands are set with nothing to write too is
log 24; the recorded trace and the answer are logs 1, 14 and 16. -/
def Obligations.WritebytesFollowsItsRule : Prop :=
  ∀ (s : State) (start len : Int), ready s → s.cfg.wf = true → s.storesCanonical = true → s.wbusy = false →
    rejection s (.writebytes start len) = none →
    ∃ t, exec (.writebytes start len) s = .next t ∧
      (∀ c, Memory.read t.mem c = if start ≤ (c : Int) ∧ (c : Int) < start + len
        then BitVec.ofNat 8 (element s (c - start.toNat)).toNat else Memory.read s.mem c) ∧
      t = { completed
              (if len = 0 then s else
                { latched s (word (start + len - 1) false) with
                  dir := BitVec.allOnes 8, dout := BitVec.ofNat 8 (element s (len.toNat - 1)).toNat })
              ((List.range len.toNat).flatMap fun (i : Nat) =>
                writeTrace (start + (i : Int)) (BitVec.ofNat 8 (element s i).toNat)) [] with
            op := .writebytes, oaddr := start, oarg := len, pb := (List.range len.toNat).map (element s)
            idx := len.toNat, cur := start.toNat + len.toNat, mem := t.mem }

/-- ERASEBYTES (R174): as a bulk write of the byte 0xFF. That it leaves the captured payload is the model's choice (log 10), and so is
that IDX, CUR and the operands are set with nothing to erase too (log 24); the recorded trace and the answer are logs 1, 14
and 16. -/
def Obligations.ErasebytesFollowsItsRule : Prop :=
  ∀ (s : State) (start count : Int), ready s → s.cfg.wf = true → s.storesCanonical = true → s.wbusy = false →
    rejection s (.erasebytes start count) = none →
    ∃ t, exec (.erasebytes start count) s = .next t ∧
      (∀ c, Memory.read t.mem c = if start ≤ (c : Int) ∧ (c : Int) < start + count then 0xFF else Memory.read s.mem c) ∧
      t = { completed
              (if count = 0 then s else
                { latched s (word (start + count - 1) false) with dir := BitVec.allOnes 8, dout := 0xFF })
              ((List.range count.toNat).flatMap fun (i : Nat) => writeTrace (start + (i : Int)) 0xFF) [] with
            op := .erasebytes, oaddr := start, oarg := count
            idx := count.toNat, cur := start.toNat + count.toNat, mem := t.mem }

/-- DUMPRANGE (R176, R177, R178): the traces of its single reads one after the other, the report row by row, the array unchanged,
and the rest as the last read leaves it. That it leaves the captured payload is the model's choice (log 10), and so is that IDX,
CUR and the operands are set with nothing to read too (log 24); the samples are log 13, the recorded trace and the answer logs 1,
14 and 16. -/
def Obligations.DumprangeFollowsItsRule : Prop :=
  ∀ (s : State) (start count : Int), ready s → s.cfg.wf = true → s.wbusy = false →
    rejection s (.dumprange start count) = none →
    exec (.dumprange start count) s = .next
      { completed
          (if count = 0 then s else
            { latched s (word (start + count - 1) true) with
              dir := 0
              samples := Memory.read s.mem (start.toNat + count.toNat - 1)
              rdata := Memory.read s.mem (start.toNat + count.toNat - 1) })
          ((List.range count.toNat).flatMap fun (i : Nat) =>
            readTrace (start + (i : Int)) (Memory.read s.mem (start.toNat + i)))
          (report (Memory.read s.mem) start.toNat count.toNat) with
        op := .dumprange, oaddr := start, oarg := count
        idx := count.toNat, cur := start.toNat + count.toNat }

/-- DUMPRANGE while the device is still in a write cycle that a reset cut short completes; its bytes are free draws, eight for
each cell in order, and the array is unchanged (R60, R65, U4). -/
def Obligations.DumprangeOfABusyDeviceCompletes : Prop :=
  ∀ (s : State) (start count : Int), ready s → s.cfg.wf = true → s.wbusy = true →
    rejection s (.dumprange start count) = none →
    ∃ t, exec (.dumprange start count) s = .next t ∧ t.err = .ok ∧ t.mem = s.mem ∧ t.wbusy = true ∧
      t.draws = s.draws + 8 * count.toNat ∧
      ∃ cell : Nat → Byte,
        (∀ k < count.toNat, ∀ j : Fin 8,
          (cell (start.toNat + k)).getLsbD j = Config.freeLevel (s.draws + 8 * k + j) j) ∧
        t.rspItems = report cell start.toNat count.toNat

/-- WRITEBYTES and ERASEBYTES while the device is still in a write cycle that a reset cut short: refused at the first strobe
(R64, U5); with nothing to write they complete, without an event. -/
def Obligations.BulkWriteToABusyDevice : Prop :=
  ∀ (s : State) (start len : Int) (i : Instr), ready s → s.cfg.wf = true → s.wbusy = true →
    (i = .writebytes start len ∨ i = .erasebytes start len) → rejection s i = none →
    (0 < len → exec i s = .refused .strobeOutsideWrite) ∧
    (len = 0 → ∃ t, exec i s = .next t ∧ t.err = .ok ∧ t.trace = [] ∧ t.mem = s.mem)

/-- ERASEBYTES is WRITEBYTES with a constant byte (R101, R175): where the payload is 0xFF throughout, both are accepted or both
are rejected with one code, with the same trace, the same array and the same levels and registers at the pins and devices. -/
def Obligations.EraseIsAConstantWrite : Prop :=
  ∀ (s : State) (start count : Int), ready s → s.cfg.wf = true → s.storesCanonical = true → s.wbusy = false →
    (∀ i < count.toNat, element s i = 0xFF) →
    ∃ t u, exec (.erasebytes start count) s = .next t ∧ exec (.writebytes start count) s = .next u ∧
      t.err = u.err ∧ t.trace = u.trace ∧ t.mem = u.mem ∧ t.dir = u.dir ∧ t.dout = u.dout ∧ t.ser = u.ser ∧
      t.srclk = u.srclk ∧ t.rclk = u.rclk ∧ t.weN = u.weN ∧ t.sr = u.sr ∧ t.q = u.q ∧ t.wbusy = u.wbusy ∧
      t.rdata = u.rdata

/-- A bulk write or erase after its k-th transaction (R68, R183): exactly the first k cells of the range have their new values, the
rest of the array its old ones; the block runs that far by itself, and a reset there rolls nothing back. -/
def Obligations.BulkWriteLeavesAPrefix : Prop :=
  ∀ (s : State) (start len : Int) (i : Instr) (new : Nat → Byte), ready s → s.cfg.wf = true → s.storesCanonical = true →
    s.wbusy = false → rejection s i = none →
    (i = .writebytes start len ∧ (∀ j, new j = BitVec.ofNat 8 (element s j).toNat) ∨
      i = .erasebytes start len ∧ ∀ j, new j = 0xFF) →
    ∃ u, accept i s = .next u ∧
      ∀ k ≤ len.toNat, ∃ v, ticks (70 * k) u = .next v ∧
        (∀ c, Memory.read v.mem c = if start ≤ (c : Int) ∧ (c : Int) < start + k
          then new (c - start.toNat) else Memory.read s.mem c) ∧
        (applyReset v).mem = v.mem

/-! ### Errors -/

/-- A rejected operation (R106, R190, R191, R192, R194): the first failing check gives the code, and nothing changes but ERR and
the port's answer (logs 1, 9, 14, 16), from any idle initialised state; `rsp_err` is 1, 2 or 3. An accepted operation that
completes leaves `rsp_err` = 0 (R105, R191). -/
def Obligations.RejectionChangesOnlyErr : Prop :=
  ∀ (s : State) (i : Instr), s.inited = true → s.busy = false →
    (∀ code, rejection s i = some code →
      ∃ t, exec i s = .next t ∧ t = rejected s code ∧
        (code = .addrRange ∧ t.rspErr = 1 ∨ code = .countRange ∧ t.rspErr = 2 ∨ code = .dataRange ∧ t.rspErr = 3)) ∧
    (rejection s i = none → ∀ t, exec i s = .next t → t.rspErr = 0)

/-- A command with a reserved code (R107, R191): accepted, no event, only ERR changes, to ILLEGAL_OP, and `rsp_err` is 4. -/
def Obligations.ReservedCodesAnswerIllegalOp : Prop :=
  ∀ (s : State) (w : CmdWord) (rest : List HostInput), s.inited = true → s.busy = false →
    s.inputs = .command w :: rest → (opField w = 0 ∨ opField w = 7) →
    ∃ t, step s = .next t ∧ t = rejected { s with inputs := rest } .illegalOp ∧ t.rspErr = 4

/-- Before the first reset every operation is refused (R222), by `exec` and by the step that is presented its command. -/
def Obligations.OperationsBeforeResetAreRefused : Prop :=
  ∀ s : State, s.inited = false → s.busy = false →
    (∀ i : Instr, exec i s = .refused .notInitialised) ∧
    ∀ (w : CmdWord) (rest : List HostInput), s.inputs = .command w :: rest → step s = .refused .notInitialised

/-! ### Frames -/

/-- What the operations that store nothing leave alone, whether accepted or rejected (R142, R143, R154, R177): every address reads
as before, and so do the strobe, DOUT, WBUSY, the payload buffer, INITED, the inputs and the configuration; SETADDR also leaves
DIR, RDATA, the captured payload and the bulk counters alone, READ the captured payload and the bulk counters. The clauses on the
captured payload and the bulk counters are the model's choice (log 10), not those rules'. -/
def Obligations.FrameOfOperationsThatStoreNothing : Prop :=
  ∀ (s t : State) (i : Instr), ready s → s.cfg.wf = true → exec i s = .next t →
    ((∃ addr oe, i = .setaddr addr oe) ∨ (∃ addr, i = .read addr) ∨ (∃ start count, i = .dumprange start count) →
      (∀ c, Memory.read t.mem c = Memory.read s.mem c) ∧
      t.weN = s.weN ∧ t.srclk = s.srclk ∧ t.rclk = s.rclk ∧ t.dout = s.dout ∧ t.wbusy = s.wbusy ∧ t.pbuf = s.pbuf ∧
      t.inited = s.inited ∧ t.busy = s.busy ∧ t.phase = s.phase ∧ t.inputs = s.inputs ∧ t.cfg = s.cfg ∧ t.pb = s.pb) ∧
    ((∃ addr oe, i = .setaddr addr oe) ∨ (∃ addr, i = .read addr) → t.idx = s.idx ∧ t.cur = s.cur) ∧
    ((∃ addr oe, i = .setaddr addr oe) → t.dir = s.dir ∧ t.rdata = s.rdata)

/-- What the storing operations leave alone, whether accepted or rejected (R163, R164, R172): every cell they do not store to, and
RDATA, the clock, latch and strobe lines, WBUSY, the payload buffer, INITED, the inputs and the configuration; WRITE also the
captured payload and the bulk counters, ERASEBYTES the captured payload. The clauses on the captured payload and the bulk counters
are the model's choice (log 10), not those rules'. -/
def Obligations.FrameOfOperationsThatStore : Prop :=
  ∀ (s t : State) (i : Instr), ready s → s.cfg.wf = true → s.storesCanonical = true → exec i s = .next t →
    ((∃ addr byte, i = .write addr byte) ∨ (∃ start len, i = .writebytes start len) ∨
        (∃ start count, i = .erasebytes start count) →
      (∀ c, ¬ storesTo i c → Memory.read t.mem c = Memory.read s.mem c) ∧
      t.rdata = s.rdata ∧ t.srclk = s.srclk ∧ t.rclk = s.rclk ∧ t.weN = s.weN ∧ t.wbusy = s.wbusy ∧ t.pbuf = s.pbuf ∧
      t.inited = s.inited ∧ t.busy = s.busy ∧ t.phase = s.phase ∧ t.inputs = s.inputs ∧ t.cfg = s.cfg) ∧
    ((∃ addr byte, i = .write addr byte) → t.idx = s.idx ∧ t.cur = s.cur ∧ t.pb = s.pb) ∧
    ((∃ start count, i = .erasebytes start count) → t.pb = s.pb)

/-! ### Whole-machine rules -/

/-- No data-dependent control (R134, R138): the events of an operation, the levels sampled aside, are the same from any two ready
states with the same configuration and payload. -/
def Obligations.EventListIgnoresTheState : Prop :=
  ∀ (s s' t t' : State) (i : Instr), ready s → ready s' → s.cfg = s'.cfg → s.cfg.wf = true → s.pbuf = s'.pbuf →
    exec i s = .next t → exec i s' = .next t' →
    t.trace.map TraceEvent.erase = t'.trace.map TraceEvent.erase ∧ t.err = t'.err

/-- The reset draws are forgotten (R138, R144): an accepted operation that contains a `setAddress` (SETADDR, READ, WRITE, and a bulk
operation of at least one transaction) answers the same state whatever the shift stages and the output latches held. -/
def Obligations.ResetDrawsAreForgotten : Prop :=
  ∀ (s : State) (x y : Word16) (i : Instr), ready s → s.cfg.wf = true → s.wbusy = false → rejection s i = none →
    ((∃ addr oe, i = .setaddr addr oe ∧ 0 ≤ addr ∧ addr ≤ 32767) ∨ (∃ addr, i = .read addr) ∨
      (∃ addr byte, i = .write addr byte) ∨
      (∃ start n, 0 < n ∧ (i = .writebytes start n ∨ i = .erasebytes start n ∨ i = .dumprange start n))) →
    ∃ t, exec i { s with sr := x, q := y } = .next t ∧ exec i s = .next t

/-- Every operation ends in the quiet state with BUSY = 0, accepted or rejected (R205, R206, R224). -/
def Obligations.OperationsEndQuiet : Prop :=
  ∀ (s t : State) (i : Instr), ready s → exec i s = .next t → ready t

/-- Every step keeps the quiet state of R224, carried through a running operation as the levels its events still bring. -/
def Obligations.StepKeepsTheQuietState : Prop :=
  ∀ s t : State, s.quietInv → step s = .next t → t.quietInv

/-- Every step keeps the array and the payload buffer in canonical form and within their spaces (R36, R50, R102). -/
def Obligations.StepKeepsTheStoresCanonical : Prop :=
  ∀ s t : State, s.storesCanonical = true → step s = .next t → t.storesCanonical = true

/-- Every step keeps the sequencer in its place (R30, R31, R134): while an operation runs its operands are legal, CUR = OADDR + IDX,
and the events produced so far followed by those left are its fixed event list. -/
def Obligations.StepKeepsTheSequencerInPlace : Prop :=
  ∀ s t : State, s.sequencerInv → step s = .next t → t.sequencerInv

/-- No step changes the configuration record (R32). -/
def Obligations.ConfigurationNeverChanges : Prop :=
  ∀ s t : State, step s = .next t → t.cfg = s.cfg

/-- A write keeps the array canonical, and a read after it gives the byte at its address and what was there elsewhere (R36, R17);
two canonical arrays that read alike are equal. -/
def Obligations.ArrayHoldsWhatIsWritten : Prop :=
  ∀ (m : Memory) (a : Nat) (v : Byte), Memory.wf m = true →
    Memory.wf (Memory.write m a v) = true ∧
    (∀ c, Memory.read (Memory.write m a v) c = if c = a then v else Memory.read m c) ∧
    ∀ m' : Memory, Memory.wf m' = true → (∀ c, Memory.read m c = Memory.read m' c) → m = m'

/-- A WRITE waits at least T_WP + T_WC, and a bulk write of L bytes L times that; READ and SETADDR do not wait (R243). -/
def Obligations.WritesWaitForTheDevice : Prop :=
  ∀ (s t : State) (i : Instr), ready s → s.cfg.wf = true → rejection s i = none → exec i s = .next t →
    Trace.waitNs s.cfg t.trace = match i with
      | .setaddr _ _ => 0
      | .read _ => 0
      | .write _ _ => s.cfg.tWp + s.cfg.tWc
      | .writebytes _ len => len.toNat * (s.cfg.tWp + s.cfg.tWc)
      | .erasebytes _ count => count.toNat * (s.cfg.tWp + s.cfg.tWc)
      | .dumprange _ _ => 0

/-! ### Reset, the port and the step -/

/-- The reset values of R40 that the spec gives. -/
def Obligations.ResetValues : Prop :=
  State.reset.ser = LOW ∧ State.reset.srclk = LOW ∧ State.reset.rclk = LOW ∧ State.reset.weN = HIGH ∧
  State.reset.dout = 0x00 ∧ (∀ i : Fin 8, State.reset.dir.getLsbD i = INPUT) ∧ State.reset.busy = false ∧
  State.reset.err = .ok ∧ State.reset.inited = true ∧ State.reset.phaseIndex = none ∧ State.reset.outq = [] ∧
  State.reset.wbusy = false ∧ State.reset.cfg.a = 11 ∧ State.reset.cfg.n = 2048

/-- The state after reset is sound. -/
def Obligations.ResetStateIsSound : Prop := State.reset.Inv

/-- Reset, and loss of power, from any state (R215, R220, R225): the registers of the block take the values of R40; the array keeps
its contents, the cell of a Write cut short between its strobe and its recovery apart, which takes a free value while the device
stays busy. SR and Q keep what they held over a reset, and hold any value after a loss of power, each by a draw later than the
cell's (log 11). -/
def Obligations.ResetFromAnyState : Prop :=
  ∀ s : State, s.storesCanonical = true →
    (let t := applyReset s
     registersReset t ∧ arrayAfterCut s t ∧ t.sr = s.sr ∧ t.q = s.q ∧ t.cfg = s.cfg ∧ t.inputs = s.inputs) ∧
    (let t := applyPowerLoss s
     let d := if s.inStrobe then s.draws + 1 else s.draws
     registersReset t ∧ arrayAfterCut s t ∧ t.sr = Config.freeStages d ∧ t.q = Config.freeLatches d ∧ t.draws = d + 1 ∧
     t.cfg = s.cfg ∧ t.inputs = s.inputs)

/-- A step runs the decoded operation: idle and initialised, with a command at the head of the inputs, the step is `exec` of the
operation on the state without that command; where a reset or a loss of power comes right after the command, the step only
accepts it, so that its events are steps of their own (log 7). -/
def Obligations.StepRunsTheDecodedOperation : Prop :=
  ∀ (s : State) (w : CmdWord) (rest : List HostInput) (i : Instr), s.busy = false → s.inited = true →
    s.inputs = .command w :: rest → decode w = .ok i →
    ((∀ n r, rest ≠ .reset n :: r ∧ rest ≠ .powerLoss n :: r) → step s = exec i { s with inputs := rest }) ∧
    ((∃ n r, rest = .reset n :: r ∨ rest = .powerLoss n :: r) → step s = accept i { s with inputs := rest })

/-- `exec` from an idle state is acceptance followed by the operation's events, each as the step of a running operation does it
(R30, R133). -/
def Obligations.ExecIsAcceptanceThenItsEvents : Prop :=
  ∀ (s u : State) (i : Instr), s.busy = false → accept i s = .next u → exec i s = ticks u.eventsLeft u

/-- While BUSY = 1 a step is one pin event. A presented command waits, neither lost nor reordered (R206), and so do a payload write
and a time T_WC (log 8). A reset or a loss of power that is due wins; one not yet due comes one event nearer (R201, R225). -/
def Obligations.CommandWaitsWhileBusy : Prop :=
  ∀ (s : State) (rest : List HostInput), s.busy = true →
    (s.inputs = [] ∨ (∃ w, s.inputs = .command w :: rest) ∨ (∃ idx val, s.inputs = .payload idx val :: rest) ∨
        s.inputs = .settle :: rest →
      step s = tick s ∧ ∀ t, step s = .next t → t.inputs = s.inputs) ∧
    (∀ n, s.inputs = .reset (n + 1) :: rest →
      step s = tick { s with inputs := .reset n :: rest } ∧ ∀ t, step s = .next t → t.inputs = .reset n :: rest) ∧
    (∀ n, s.inputs = .powerLoss (n + 1) :: rest →
      step s = tick { s with inputs := .powerLoss n :: rest } ∧ ∀ t, step s = .next t → t.inputs = .powerLoss n :: rest) ∧
    (s.inputs = .reset 0 :: rest → step s = .next (applyReset { s with inputs := rest })) ∧
    (s.inputs = .powerLoss 0 :: rest → step s = .next (applyPowerLoss { s with inputs := rest }))

/-- The other inputs of an idle block (R201, R215, R220, R225; log 8): with none it stays as it is, but for `rsp_valid`; a time T_WC
ends a write cycle (log 11), and `rsp_valid`; in both cases `rsp_valid` ends because it lasts one step (log 16). A reset gives the
quiet state and leaves both devices as they are; after a loss of power the shift stages and the latches hold any value and the
array is unchanged (log 11). -/
def Obligations.IdleInputsAreServed : Prop :=
  ∀ (s : State) (n : Nat) (rest : List HostInput), s.busy = false →
    (s.inputs = [] → step s = .next { s with rspValid := false }) ∧
    (s.inputs = .settle :: rest → step s = .next { s with wbusy := false, inputs := rest, rspValid := false }) ∧
    (s.inputs = .reset n :: rest → ∃ t, step s = .next t ∧ ready t ∧ t.err = .ok ∧ t.sr = s.sr ∧ t.q = s.q ∧ t.mem = s.mem ∧
      t.wbusy = s.wbusy ∧ t.inputs = rest) ∧
    (s.inputs = .powerLoss n :: rest → ∃ t, step s = .next t ∧ ready t ∧ t.err = .ok ∧
      t.sr = Config.freeStages s.draws ∧ t.q = Config.freeLatches s.draws ∧ t.draws = s.draws + 1 ∧
      t.mem = s.mem ∧ t.inputs = rest)

/-- A payload write while idle sets that entry and no other (R102), and `rsp_valid` ends with the step (log 16); an index from PBD on
is a fault (log 12). -/
def Obligations.PayloadWriteSetsItsEntry : Prop :=
  ∀ (s : State) (idx : Nat) (val : BitVec 32) (rest : List HostInput), s.busy = false → s.storesCanonical = true →
    s.inputs = .payload idx val :: rest →
    (idx < s.cfg.pbd → ∃ t, step s = .next t ∧
      (∀ i, element t i = if i = idx then val.toInt else element s i) ∧
      t = { s with pbuf := t.pbuf, inputs := rest, rspValid := false }) ∧
    (¬ idx < s.cfg.pbd → step s = .fault .noSuchPayloadEntry)
end

