-- ==== Sys2Proof/Laws/State.lean ====
section
/-! SUPPORT. One lemma per field per named update of the state, each true by rfl, so that no later proof unfolds a record
update. -/

namespace Sys2Proof.Machine

variable (s : State)

@[simp] theorem pinMode_cfg (i : Fin 8) (d : Dir) : (pinMode i d s).cfg = s.cfg := rfl
@[simp] theorem pinMode_ser (i : Fin 8) (d : Dir) : (pinMode i d s).ser = s.ser := rfl
@[simp] theorem pinMode_srclk (i : Fin 8) (d : Dir) : (pinMode i d s).srclk = s.srclk := rfl
@[simp] theorem pinMode_rclk (i : Fin 8) (d : Dir) : (pinMode i d s).rclk = s.rclk := rfl
@[simp] theorem pinMode_weN (i : Fin 8) (d : Dir) : (pinMode i d s).weN = s.weN := rfl
@[simp] theorem pinMode_dout (i : Fin 8) (d : Dir) : (pinMode i d s).dout = s.dout := rfl
@[simp] theorem pinMode_dir (i : Fin 8) (d : Dir) : (pinMode i d s).dir = setBit s.dir i d := rfl
@[simp] theorem pinMode_rdata (i : Fin 8) (d : Dir) : (pinMode i d s).rdata = s.rdata := rfl
@[simp] theorem pinMode_busy (i : Fin 8) (d : Dir) : (pinMode i d s).busy = s.busy := rfl
@[simp] theorem pinMode_err (i : Fin 8) (d : Dir) : (pinMode i d s).err = s.err := rfl
@[simp] theorem pinMode_inited (i : Fin 8) (d : Dir) : (pinMode i d s).inited = s.inited := rfl
@[simp] theorem pinMode_phase (i : Fin 8) (d : Dir) : (pinMode i d s).phase = s.phase := rfl
@[simp] theorem pinMode_op (i : Fin 8) (d : Dir) : (pinMode i d s).op = s.op := rfl
@[simp] theorem pinMode_oaddr (i : Fin 8) (d : Dir) : (pinMode i d s).oaddr = s.oaddr := rfl
@[simp] theorem pinMode_oarg (i : Fin 8) (d : Dir) : (pinMode i d s).oarg = s.oarg := rfl
@[simp] theorem pinMode_pb (i : Fin 8) (d : Dir) : (pinMode i d s).pb = s.pb := rfl
@[simp] theorem pinMode_idx (i : Fin 8) (d : Dir) : (pinMode i d s).idx = s.idx := rfl
@[simp] theorem pinMode_cur (i : Fin 8) (d : Dir) : (pinMode i d s).cur = s.cur := rfl
@[simp] theorem pinMode_outq (i : Fin 8) (d : Dir) : (pinMode i d s).outq = s.outq := rfl
@[simp] theorem pinMode_sr (i : Fin 8) (d : Dir) : (pinMode i d s).sr = s.sr := rfl
@[simp] theorem pinMode_q (i : Fin 8) (d : Dir) : (pinMode i d s).q = s.q := rfl
@[simp] theorem pinMode_mem (i : Fin 8) (d : Dir) : (pinMode i d s).mem = s.mem := rfl
@[simp] theorem pinMode_wbusy (i : Fin 8) (d : Dir) : (pinMode i d s).wbusy = s.wbusy := rfl
@[simp] theorem pinMode_pbuf (i : Fin 8) (d : Dir) : (pinMode i d s).pbuf = s.pbuf := rfl
@[simp] theorem pinMode_inputs (i : Fin 8) (d : Dir) : (pinMode i d s).inputs = s.inputs := rfl
@[simp] theorem pinMode_samples (i : Fin 8) (d : Dir) : (pinMode i d s).samples = s.samples := rfl
@[simp] theorem pinMode_trace (i : Fin 8) (d : Dir) : (pinMode i d s).trace = s.trace := rfl
@[simp] theorem pinMode_rspValid (i : Fin 8) (d : Dir) : (pinMode i d s).rspValid = s.rspValid := rfl
@[simp] theorem pinMode_rspItems (i : Fin 8) (d : Dir) : (pinMode i d s).rspItems = s.rspItems := rfl
@[simp] theorem pinMode_draws (i : Fin 8) (d : Dir) : (pinMode i d s).draws = s.draws := rfl

@[simp] theorem shiftStages_cfg : (shiftStages s).cfg = s.cfg := rfl
@[simp] theorem shiftStages_ser : (shiftStages s).ser = s.ser := rfl
@[simp] theorem shiftStages_srclk : (shiftStages s).srclk = s.srclk := rfl
@[simp] theorem shiftStages_rclk : (shiftStages s).rclk = s.rclk := rfl
@[simp] theorem shiftStages_weN : (shiftStages s).weN = s.weN := rfl
@[simp] theorem shiftStages_dout : (shiftStages s).dout = s.dout := rfl
@[simp] theorem shiftStages_dir : (shiftStages s).dir = s.dir := rfl
@[simp] theorem shiftStages_rdata : (shiftStages s).rdata = s.rdata := rfl
@[simp] theorem shiftStages_busy : (shiftStages s).busy = s.busy := rfl
@[simp] theorem shiftStages_err : (shiftStages s).err = s.err := rfl
@[simp] theorem shiftStages_inited : (shiftStages s).inited = s.inited := rfl
@[simp] theorem shiftStages_phase : (shiftStages s).phase = s.phase := rfl
@[simp] theorem shiftStages_op : (shiftStages s).op = s.op := rfl
@[simp] theorem shiftStages_oaddr : (shiftStages s).oaddr = s.oaddr := rfl
@[simp] theorem shiftStages_oarg : (shiftStages s).oarg = s.oarg := rfl
@[simp] theorem shiftStages_pb : (shiftStages s).pb = s.pb := rfl
@[simp] theorem shiftStages_idx : (shiftStages s).idx = s.idx := rfl
@[simp] theorem shiftStages_cur : (shiftStages s).cur = s.cur := rfl
@[simp] theorem shiftStages_outq : (shiftStages s).outq = s.outq := rfl
@[simp] theorem shiftStages_sr : (shiftStages s).sr = (s.sr.setWidth 15).concat s.ser := rfl
@[simp] theorem shiftStages_q : (shiftStages s).q = s.q := rfl
@[simp] theorem shiftStages_mem : (shiftStages s).mem = s.mem := rfl
@[simp] theorem shiftStages_wbusy : (shiftStages s).wbusy = s.wbusy := rfl
@[simp] theorem shiftStages_pbuf : (shiftStages s).pbuf = s.pbuf := rfl
@[simp] theorem shiftStages_inputs : (shiftStages s).inputs = s.inputs := rfl
@[simp] theorem shiftStages_samples : (shiftStages s).samples = s.samples := rfl
@[simp] theorem shiftStages_trace : (shiftStages s).trace = s.trace := rfl
@[simp] theorem shiftStages_rspValid : (shiftStages s).rspValid = s.rspValid := rfl
@[simp] theorem shiftStages_rspItems : (shiftStages s).rspItems = s.rspItems := rfl
@[simp] theorem shiftStages_draws : (shiftStages s).draws = s.draws := rfl

@[simp] theorem latchOutputs_cfg : (latchOutputs s).cfg = s.cfg := rfl
@[simp] theorem latchOutputs_ser : (latchOutputs s).ser = s.ser := rfl
@[simp] theorem latchOutputs_srclk : (latchOutputs s).srclk = s.srclk := rfl
@[simp] theorem latchOutputs_rclk : (latchOutputs s).rclk = s.rclk := rfl
@[simp] theorem latchOutputs_weN : (latchOutputs s).weN = s.weN := rfl
@[simp] theorem latchOutputs_dout : (latchOutputs s).dout = s.dout := rfl
@[simp] theorem latchOutputs_dir : (latchOutputs s).dir = s.dir := rfl
@[simp] theorem latchOutputs_rdata : (latchOutputs s).rdata = s.rdata := rfl
@[simp] theorem latchOutputs_busy : (latchOutputs s).busy = s.busy := rfl
@[simp] theorem latchOutputs_err : (latchOutputs s).err = s.err := rfl
@[simp] theorem latchOutputs_inited : (latchOutputs s).inited = s.inited := rfl
@[simp] theorem latchOutputs_phase : (latchOutputs s).phase = s.phase := rfl
@[simp] theorem latchOutputs_op : (latchOutputs s).op = s.op := rfl
@[simp] theorem latchOutputs_oaddr : (latchOutputs s).oaddr = s.oaddr := rfl
@[simp] theorem latchOutputs_oarg : (latchOutputs s).oarg = s.oarg := rfl
@[simp] theorem latchOutputs_pb : (latchOutputs s).pb = s.pb := rfl
@[simp] theorem latchOutputs_idx : (latchOutputs s).idx = s.idx := rfl
@[simp] theorem latchOutputs_cur : (latchOutputs s).cur = s.cur := rfl
@[simp] theorem latchOutputs_outq : (latchOutputs s).outq = s.outq := rfl
@[simp] theorem latchOutputs_sr : (latchOutputs s).sr = s.sr := rfl
@[simp] theorem latchOutputs_q : (latchOutputs s).q = s.sr := rfl
@[simp] theorem latchOutputs_mem : (latchOutputs s).mem = s.mem := rfl
@[simp] theorem latchOutputs_wbusy : (latchOutputs s).wbusy = s.wbusy := rfl
@[simp] theorem latchOutputs_pbuf : (latchOutputs s).pbuf = s.pbuf := rfl
@[simp] theorem latchOutputs_inputs : (latchOutputs s).inputs = s.inputs := rfl
@[simp] theorem latchOutputs_samples : (latchOutputs s).samples = s.samples := rfl
@[simp] theorem latchOutputs_trace : (latchOutputs s).trace = s.trace := rfl
@[simp] theorem latchOutputs_rspValid : (latchOutputs s).rspValid = s.rspValid := rfl
@[simp] theorem latchOutputs_rspItems : (latchOutputs s).rspItems = s.rspItems := rfl
@[simp] theorem latchOutputs_draws : (latchOutputs s).draws = s.draws := rfl

@[simp] theorem deviceWrite_cfg : (deviceWrite s).cfg = s.cfg := rfl
@[simp] theorem deviceWrite_ser : (deviceWrite s).ser = s.ser := rfl
@[simp] theorem deviceWrite_srclk : (deviceWrite s).srclk = s.srclk := rfl
@[simp] theorem deviceWrite_rclk : (deviceWrite s).rclk = s.rclk := rfl
@[simp] theorem deviceWrite_weN : (deviceWrite s).weN = s.weN := rfl
@[simp] theorem deviceWrite_dout : (deviceWrite s).dout = s.dout := rfl
@[simp] theorem deviceWrite_dir : (deviceWrite s).dir = s.dir := rfl
@[simp] theorem deviceWrite_rdata : (deviceWrite s).rdata = s.rdata := rfl
@[simp] theorem deviceWrite_busy : (deviceWrite s).busy = s.busy := rfl
@[simp] theorem deviceWrite_err : (deviceWrite s).err = s.err := rfl
@[simp] theorem deviceWrite_inited : (deviceWrite s).inited = s.inited := rfl
@[simp] theorem deviceWrite_phase : (deviceWrite s).phase = s.phase := rfl
@[simp] theorem deviceWrite_op : (deviceWrite s).op = s.op := rfl
@[simp] theorem deviceWrite_oaddr : (deviceWrite s).oaddr = s.oaddr := rfl
@[simp] theorem deviceWrite_oarg : (deviceWrite s).oarg = s.oarg := rfl
@[simp] theorem deviceWrite_pb : (deviceWrite s).pb = s.pb := rfl
@[simp] theorem deviceWrite_idx : (deviceWrite s).idx = s.idx := rfl
@[simp] theorem deviceWrite_cur : (deviceWrite s).cur = s.cur := rfl
@[simp] theorem deviceWrite_outq : (deviceWrite s).outq = s.outq := rfl
@[simp] theorem deviceWrite_sr : (deviceWrite s).sr = s.sr := rfl
@[simp] theorem deviceWrite_q : (deviceWrite s).q = s.q := rfl
@[simp] theorem deviceWrite_mem : (deviceWrite s).mem = Memory.write s.mem s.cell s.dout := rfl
@[simp] theorem deviceWrite_wbusy : (deviceWrite s).wbusy = true := rfl
@[simp] theorem deviceWrite_pbuf : (deviceWrite s).pbuf = s.pbuf := rfl
@[simp] theorem deviceWrite_inputs : (deviceWrite s).inputs = s.inputs := rfl
@[simp] theorem deviceWrite_samples : (deviceWrite s).samples = s.samples := rfl
@[simp] theorem deviceWrite_trace : (deviceWrite s).trace = s.trace := rfl
@[simp] theorem deviceWrite_rspValid : (deviceWrite s).rspValid = s.rspValid := rfl
@[simp] theorem deviceWrite_rspItems : (deviceWrite s).rspItems = s.rspItems := rfl
@[simp] theorem deviceWrite_draws : (deviceWrite s).draws = s.draws := rfl

@[simp] theorem raiseError_cfg (c : ResultCode) : (raiseError c s).cfg = s.cfg := rfl
@[simp] theorem raiseError_ser (c : ResultCode) : (raiseError c s).ser = s.ser := rfl
@[simp] theorem raiseError_srclk (c : ResultCode) : (raiseError c s).srclk = s.srclk := rfl
@[simp] theorem raiseError_rclk (c : ResultCode) : (raiseError c s).rclk = s.rclk := rfl
@[simp] theorem raiseError_weN (c : ResultCode) : (raiseError c s).weN = s.weN := rfl
@[simp] theorem raiseError_dout (c : ResultCode) : (raiseError c s).dout = s.dout := rfl
@[simp] theorem raiseError_dir (c : ResultCode) : (raiseError c s).dir = s.dir := rfl
@[simp] theorem raiseError_rdata (c : ResultCode) : (raiseError c s).rdata = s.rdata := rfl
@[simp] theorem raiseError_busy (c : ResultCode) : (raiseError c s).busy = s.busy := rfl
@[simp] theorem raiseError_err (c : ResultCode) : (raiseError c s).err = c := rfl
@[simp] theorem raiseError_inited (c : ResultCode) : (raiseError c s).inited = s.inited := rfl
@[simp] theorem raiseError_phase (c : ResultCode) : (raiseError c s).phase = s.phase := rfl
@[simp] theorem raiseError_op (c : ResultCode) : (raiseError c s).op = s.op := rfl
@[simp] theorem raiseError_oaddr (c : ResultCode) : (raiseError c s).oaddr = s.oaddr := rfl
@[simp] theorem raiseError_oarg (c : ResultCode) : (raiseError c s).oarg = s.oarg := rfl
@[simp] theorem raiseError_pb (c : ResultCode) : (raiseError c s).pb = s.pb := rfl
@[simp] theorem raiseError_idx (c : ResultCode) : (raiseError c s).idx = s.idx := rfl
@[simp] theorem raiseError_cur (c : ResultCode) : (raiseError c s).cur = s.cur := rfl
@[simp] theorem raiseError_outq (c : ResultCode) : (raiseError c s).outq = s.outq := rfl
@[simp] theorem raiseError_sr (c : ResultCode) : (raiseError c s).sr = s.sr := rfl
@[simp] theorem raiseError_q (c : ResultCode) : (raiseError c s).q = s.q := rfl
@[simp] theorem raiseError_mem (c : ResultCode) : (raiseError c s).mem = s.mem := rfl
@[simp] theorem raiseError_wbusy (c : ResultCode) : (raiseError c s).wbusy = s.wbusy := rfl
@[simp] theorem raiseError_pbuf (c : ResultCode) : (raiseError c s).pbuf = s.pbuf := rfl
@[simp] theorem raiseError_inputs (c : ResultCode) : (raiseError c s).inputs = s.inputs := rfl
@[simp] theorem raiseError_samples (c : ResultCode) : (raiseError c s).samples = s.samples := rfl
@[simp] theorem raiseError_trace (c : ResultCode) : (raiseError c s).trace = [] := rfl
@[simp] theorem raiseError_rspValid (c : ResultCode) : (raiseError c s).rspValid = true := rfl
@[simp] theorem raiseError_rspItems (c : ResultCode) : (raiseError c s).rspItems = [] := rfl
@[simp] theorem raiseError_draws (c : ResultCode) : (raiseError c s).draws = s.draws := rfl

@[simp] theorem complete_cfg : (complete s).cfg = s.cfg := rfl
@[simp] theorem complete_ser : (complete s).ser = s.ser := rfl
@[simp] theorem complete_srclk : (complete s).srclk = s.srclk := rfl
@[simp] theorem complete_rclk : (complete s).rclk = s.rclk := rfl
@[simp] theorem complete_weN : (complete s).weN = s.weN := rfl
@[simp] theorem complete_dout : (complete s).dout = s.dout := rfl
@[simp] theorem complete_dir : (complete s).dir = s.dir := rfl
@[simp] theorem complete_rdata : (complete s).rdata = s.rdata := rfl
@[simp] theorem complete_busy : (complete s).busy = false := rfl
@[simp] theorem complete_err : (complete s).err = .ok := rfl
@[simp] theorem complete_inited : (complete s).inited = s.inited := rfl
@[simp] theorem complete_phase : (complete s).phase = [] := rfl
@[simp] theorem complete_op : (complete s).op = s.op := rfl
@[simp] theorem complete_oaddr : (complete s).oaddr = s.oaddr := rfl
@[simp] theorem complete_oarg : (complete s).oarg = s.oarg := rfl
@[simp] theorem complete_pb : (complete s).pb = s.pb := rfl
@[simp] theorem complete_idx : (complete s).idx = s.idx := rfl
@[simp] theorem complete_cur : (complete s).cur = s.cur := rfl
@[simp] theorem complete_outq : (complete s).outq = [] := rfl
@[simp] theorem complete_sr : (complete s).sr = s.sr := rfl
@[simp] theorem complete_q : (complete s).q = s.q := rfl
@[simp] theorem complete_mem : (complete s).mem = s.mem := rfl
@[simp] theorem complete_wbusy : (complete s).wbusy = s.wbusy := rfl
@[simp] theorem complete_pbuf : (complete s).pbuf = s.pbuf := rfl
@[simp] theorem complete_inputs : (complete s).inputs = s.inputs := rfl
@[simp] theorem complete_samples : (complete s).samples = s.samples := rfl
@[simp] theorem complete_trace : (complete s).trace = s.trace := rfl
@[simp] theorem complete_rspValid : (complete s).rspValid = true := rfl
@[simp] theorem complete_rspItems : (complete s).rspItems = s.outq := rfl
@[simp] theorem complete_draws : (complete s).draws = s.draws := rfl

@[simp] theorem capture_cfg (o : Op) (a : Int) : (capture o a s).cfg = s.cfg := rfl
@[simp] theorem capture_ser (o : Op) (a : Int) : (capture o a s).ser = s.ser := rfl
@[simp] theorem capture_srclk (o : Op) (a : Int) : (capture o a s).srclk = s.srclk := rfl
@[simp] theorem capture_rclk (o : Op) (a : Int) : (capture o a s).rclk = s.rclk := rfl
@[simp] theorem capture_weN (o : Op) (a : Int) : (capture o a s).weN = s.weN := rfl
@[simp] theorem capture_dout (o : Op) (a : Int) : (capture o a s).dout = s.dout := rfl
@[simp] theorem capture_dir (o : Op) (a : Int) : (capture o a s).dir = s.dir := rfl
@[simp] theorem capture_rdata (o : Op) (a : Int) : (capture o a s).rdata = s.rdata := rfl
@[simp] theorem capture_busy (o : Op) (a : Int) : (capture o a s).busy = true := rfl
@[simp] theorem capture_err (o : Op) (a : Int) : (capture o a s).err = s.err := rfl
@[simp] theorem capture_inited (o : Op) (a : Int) : (capture o a s).inited = s.inited := rfl
@[simp] theorem capture_phase (o : Op) (a : Int) : (capture o a s).phase = s.phase := rfl
@[simp] theorem capture_op (o : Op) (a : Int) : (capture o a s).op = o := rfl
@[simp] theorem capture_oaddr (o : Op) (a : Int) : (capture o a s).oaddr = a := rfl
@[simp] theorem capture_oarg (o : Op) (a : Int) : (capture o a s).oarg = s.oarg := rfl
@[simp] theorem capture_pb (o : Op) (a : Int) : (capture o a s).pb = s.pb := rfl
@[simp] theorem capture_idx (o : Op) (a : Int) : (capture o a s).idx = s.idx := rfl
@[simp] theorem capture_cur (o : Op) (a : Int) : (capture o a s).cur = s.cur := rfl
@[simp] theorem capture_outq (o : Op) (a : Int) : (capture o a s).outq = [] := rfl
@[simp] theorem capture_sr (o : Op) (a : Int) : (capture o a s).sr = s.sr := rfl
@[simp] theorem capture_q (o : Op) (a : Int) : (capture o a s).q = s.q := rfl
@[simp] theorem capture_mem (o : Op) (a : Int) : (capture o a s).mem = s.mem := rfl
@[simp] theorem capture_wbusy (o : Op) (a : Int) : (capture o a s).wbusy = s.wbusy := rfl
@[simp] theorem capture_pbuf (o : Op) (a : Int) : (capture o a s).pbuf = s.pbuf := rfl
@[simp] theorem capture_inputs (o : Op) (a : Int) : (capture o a s).inputs = s.inputs := rfl
@[simp] theorem capture_samples (o : Op) (a : Int) : (capture o a s).samples = s.samples := rfl
@[simp] theorem capture_trace (o : Op) (a : Int) : (capture o a s).trace = [] := rfl
@[simp] theorem capture_rspValid (o : Op) (a : Int) : (capture o a s).rspValid = false := rfl
@[simp] theorem capture_rspItems (o : Op) (a : Int) : (capture o a s).rspItems = [] := rfl
@[simp] theorem capture_draws (o : Op) (a : Int) : (capture o a s).draws = s.draws := rfl

@[simp] theorem advance_cfg : (advance s).cfg = s.cfg := rfl
@[simp] theorem advance_ser : (advance s).ser = s.ser := rfl
@[simp] theorem advance_srclk : (advance s).srclk = s.srclk := rfl
@[simp] theorem advance_rclk : (advance s).rclk = s.rclk := rfl
@[simp] theorem advance_weN : (advance s).weN = s.weN := rfl
@[simp] theorem advance_dout : (advance s).dout = s.dout := rfl
@[simp] theorem advance_dir : (advance s).dir = s.dir := rfl
@[simp] theorem advance_rdata : (advance s).rdata = s.rdata := rfl
@[simp] theorem advance_busy : (advance s).busy = s.busy := rfl
@[simp] theorem advance_err : (advance s).err = s.err := rfl
@[simp] theorem advance_inited : (advance s).inited = s.inited := rfl
@[simp] theorem advance_phase : (advance s).phase = s.phase := rfl
@[simp] theorem advance_op : (advance s).op = s.op := rfl
@[simp] theorem advance_oaddr : (advance s).oaddr = s.oaddr := rfl
@[simp] theorem advance_oarg : (advance s).oarg = s.oarg := rfl
@[simp] theorem advance_pb : (advance s).pb = s.pb := rfl
@[simp] theorem advance_idx : (advance s).idx = s.idx + 1 := rfl
@[simp] theorem advance_cur : (advance s).cur = s.cur + 1 := rfl
@[simp] theorem advance_outq : (advance s).outq = s.outq := rfl
@[simp] theorem advance_sr : (advance s).sr = s.sr := rfl
@[simp] theorem advance_q : (advance s).q = s.q := rfl
@[simp] theorem advance_mem : (advance s).mem = s.mem := rfl
@[simp] theorem advance_wbusy : (advance s).wbusy = s.wbusy := rfl
@[simp] theorem advance_pbuf : (advance s).pbuf = s.pbuf := rfl
@[simp] theorem advance_inputs : (advance s).inputs = s.inputs := rfl
@[simp] theorem advance_samples : (advance s).samples = s.samples := rfl
@[simp] theorem advance_trace : (advance s).trace = s.trace := rfl
@[simp] theorem advance_rspValid : (advance s).rspValid = s.rspValid := rfl
@[simp] theorem advance_rspItems : (advance s).rspItems = s.rspItems := rfl
@[simp] theorem advance_draws : (advance s).draws = s.draws := rfl

@[simp] theorem assemble_cfg : (assemble s).cfg = s.cfg := rfl
@[simp] theorem assemble_ser : (assemble s).ser = s.ser := rfl
@[simp] theorem assemble_srclk : (assemble s).srclk = s.srclk := rfl
@[simp] theorem assemble_rclk : (assemble s).rclk = s.rclk := rfl
@[simp] theorem assemble_weN : (assemble s).weN = s.weN := rfl
@[simp] theorem assemble_dout : (assemble s).dout = s.dout := rfl
@[simp] theorem assemble_dir : (assemble s).dir = s.dir := rfl
@[simp] theorem assemble_rdata : (assemble s).rdata = s.samples := rfl
@[simp] theorem assemble_busy : (assemble s).busy = s.busy := rfl
@[simp] theorem assemble_err : (assemble s).err = s.err := rfl
@[simp] theorem assemble_inited : (assemble s).inited = s.inited := rfl
@[simp] theorem assemble_phase : (assemble s).phase = s.phase := rfl
@[simp] theorem assemble_op : (assemble s).op = s.op := rfl
@[simp] theorem assemble_oaddr : (assemble s).oaddr = s.oaddr := rfl
@[simp] theorem assemble_oarg : (assemble s).oarg = s.oarg := rfl
@[simp] theorem assemble_pb : (assemble s).pb = s.pb := rfl
@[simp] theorem assemble_idx : (assemble s).idx = s.idx := rfl
@[simp] theorem assemble_cur : (assemble s).cur = s.cur := rfl
@[simp] theorem assemble_outq : (assemble s).outq = s.outq := rfl
@[simp] theorem assemble_sr : (assemble s).sr = s.sr := rfl
@[simp] theorem assemble_q : (assemble s).q = s.q := rfl
@[simp] theorem assemble_mem : (assemble s).mem = s.mem := rfl
@[simp] theorem assemble_wbusy : (assemble s).wbusy = s.wbusy := rfl
@[simp] theorem assemble_pbuf : (assemble s).pbuf = s.pbuf := rfl
@[simp] theorem assemble_inputs : (assemble s).inputs = s.inputs := rfl
@[simp] theorem assemble_samples : (assemble s).samples = s.samples := rfl
@[simp] theorem assemble_trace : (assemble s).trace = s.trace := rfl
@[simp] theorem assemble_rspValid : (assemble s).rspValid = s.rspValid := rfl
@[simp] theorem assemble_rspItems : (assemble s).rspItems = s.rspItems := rfl
@[simp] theorem assemble_draws : (assemble s).draws = s.draws := rfl

@[simp] theorem emitByte_cfg : (emitByte s).cfg = s.cfg := rfl
@[simp] theorem emitByte_ser : (emitByte s).ser = s.ser := rfl
@[simp] theorem emitByte_srclk : (emitByte s).srclk = s.srclk := rfl
@[simp] theorem emitByte_rclk : (emitByte s).rclk = s.rclk := rfl
@[simp] theorem emitByte_weN : (emitByte s).weN = s.weN := rfl
@[simp] theorem emitByte_dout : (emitByte s).dout = s.dout := rfl
@[simp] theorem emitByte_dir : (emitByte s).dir = s.dir := rfl
@[simp] theorem emitByte_rdata : (emitByte s).rdata = s.rdata := rfl
@[simp] theorem emitByte_busy : (emitByte s).busy = s.busy := rfl
@[simp] theorem emitByte_err : (emitByte s).err = s.err := rfl
@[simp] theorem emitByte_inited : (emitByte s).inited = s.inited := rfl
@[simp] theorem emitByte_phase : (emitByte s).phase = s.phase := rfl
@[simp] theorem emitByte_op : (emitByte s).op = s.op := rfl
@[simp] theorem emitByte_oaddr : (emitByte s).oaddr = s.oaddr := rfl
@[simp] theorem emitByte_oarg : (emitByte s).oarg = s.oarg := rfl
@[simp] theorem emitByte_pb : (emitByte s).pb = s.pb := rfl
@[simp] theorem emitByte_idx : (emitByte s).idx = s.idx := rfl
@[simp] theorem emitByte_cur : (emitByte s).cur = s.cur := rfl
@[simp] theorem emitByte_outq : (emitByte s).outq = s.outq ++ [.byte s.rdata] := rfl
@[simp] theorem emitByte_sr : (emitByte s).sr = s.sr := rfl
@[simp] theorem emitByte_q : (emitByte s).q = s.q := rfl
@[simp] theorem emitByte_mem : (emitByte s).mem = s.mem := rfl
@[simp] theorem emitByte_wbusy : (emitByte s).wbusy = s.wbusy := rfl
@[simp] theorem emitByte_pbuf : (emitByte s).pbuf = s.pbuf := rfl
@[simp] theorem emitByte_inputs : (emitByte s).inputs = s.inputs := rfl
@[simp] theorem emitByte_samples : (emitByte s).samples = s.samples := rfl
@[simp] theorem emitByte_trace : (emitByte s).trace = s.trace := rfl
@[simp] theorem emitByte_rspValid : (emitByte s).rspValid = s.rspValid := rfl
@[simp] theorem emitByte_rspItems : (emitByte s).rspItems = s.rspItems := rfl
@[simp] theorem emitByte_draws : (emitByte s).draws = s.draws := rfl

@[simp] theorem letSettle_cfg : (letSettle s).cfg = s.cfg := rfl
@[simp] theorem letSettle_ser : (letSettle s).ser = s.ser := rfl
@[simp] theorem letSettle_srclk : (letSettle s).srclk = s.srclk := rfl
@[simp] theorem letSettle_rclk : (letSettle s).rclk = s.rclk := rfl
@[simp] theorem letSettle_weN : (letSettle s).weN = s.weN := rfl
@[simp] theorem letSettle_dout : (letSettle s).dout = s.dout := rfl
@[simp] theorem letSettle_dir : (letSettle s).dir = s.dir := rfl
@[simp] theorem letSettle_rdata : (letSettle s).rdata = s.rdata := rfl
@[simp] theorem letSettle_busy : (letSettle s).busy = s.busy := rfl
@[simp] theorem letSettle_err : (letSettle s).err = s.err := rfl
@[simp] theorem letSettle_inited : (letSettle s).inited = s.inited := rfl
@[simp] theorem letSettle_phase : (letSettle s).phase = s.phase := rfl
@[simp] theorem letSettle_op : (letSettle s).op = s.op := rfl
@[simp] theorem letSettle_oaddr : (letSettle s).oaddr = s.oaddr := rfl
@[simp] theorem letSettle_oarg : (letSettle s).oarg = s.oarg := rfl
@[simp] theorem letSettle_pb : (letSettle s).pb = s.pb := rfl
@[simp] theorem letSettle_idx : (letSettle s).idx = s.idx := rfl
@[simp] theorem letSettle_cur : (letSettle s).cur = s.cur := rfl
@[simp] theorem letSettle_outq : (letSettle s).outq = s.outq := rfl
@[simp] theorem letSettle_sr : (letSettle s).sr = s.sr := rfl
@[simp] theorem letSettle_q : (letSettle s).q = s.q := rfl
@[simp] theorem letSettle_mem : (letSettle s).mem = s.mem := rfl
@[simp] theorem letSettle_wbusy : (letSettle s).wbusy = false := rfl
@[simp] theorem letSettle_pbuf : (letSettle s).pbuf = s.pbuf := rfl
@[simp] theorem letSettle_inputs : (letSettle s).inputs = s.inputs := rfl
@[simp] theorem letSettle_samples : (letSettle s).samples = s.samples := rfl
@[simp] theorem letSettle_trace : (letSettle s).trace = s.trace := rfl
@[simp] theorem letSettle_rspValid : (letSettle s).rspValid = false := rfl
@[simp] theorem letSettle_rspItems : (letSettle s).rspItems = s.rspItems := rfl
@[simp] theorem letSettle_draws : (letSettle s).draws = s.draws := rfl

@[simp] theorem resetRegisters_cfg : (resetRegisters s).cfg = s.cfg := rfl
@[simp] theorem resetRegisters_ser : (resetRegisters s).ser = State.reset.ser := rfl
@[simp] theorem resetRegisters_srclk : (resetRegisters s).srclk = State.reset.srclk := rfl
@[simp] theorem resetRegisters_rclk : (resetRegisters s).rclk = State.reset.rclk := rfl
@[simp] theorem resetRegisters_weN : (resetRegisters s).weN = State.reset.weN := rfl
@[simp] theorem resetRegisters_dout : (resetRegisters s).dout = State.reset.dout := rfl
@[simp] theorem resetRegisters_dir : (resetRegisters s).dir = State.reset.dir := rfl
@[simp] theorem resetRegisters_rdata : (resetRegisters s).rdata = State.reset.rdata := rfl
@[simp] theorem resetRegisters_busy : (resetRegisters s).busy = State.reset.busy := rfl
@[simp] theorem resetRegisters_err : (resetRegisters s).err = State.reset.err := rfl
@[simp] theorem resetRegisters_inited : (resetRegisters s).inited = State.reset.inited := rfl
@[simp] theorem resetRegisters_phase : (resetRegisters s).phase = State.reset.phase := rfl
@[simp] theorem resetRegisters_op : (resetRegisters s).op = State.reset.op := rfl
@[simp] theorem resetRegisters_oaddr : (resetRegisters s).oaddr = State.reset.oaddr := rfl
@[simp] theorem resetRegisters_oarg : (resetRegisters s).oarg = State.reset.oarg := rfl
@[simp] theorem resetRegisters_pb : (resetRegisters s).pb = State.reset.pb := rfl
@[simp] theorem resetRegisters_idx : (resetRegisters s).idx = State.reset.idx := rfl
@[simp] theorem resetRegisters_cur : (resetRegisters s).cur = State.reset.cur := rfl
@[simp] theorem resetRegisters_outq : (resetRegisters s).outq = State.reset.outq := rfl
@[simp] theorem resetRegisters_sr : (resetRegisters s).sr = s.sr := rfl
@[simp] theorem resetRegisters_q : (resetRegisters s).q = s.q := rfl
@[simp] theorem resetRegisters_mem : (resetRegisters s).mem = s.mem := rfl
@[simp] theorem resetRegisters_wbusy : (resetRegisters s).wbusy = s.wbusy := rfl
@[simp] theorem resetRegisters_pbuf : (resetRegisters s).pbuf = State.reset.pbuf := rfl
@[simp] theorem resetRegisters_inputs : (resetRegisters s).inputs = s.inputs := rfl
@[simp] theorem resetRegisters_samples : (resetRegisters s).samples = State.reset.samples := rfl
@[simp] theorem resetRegisters_trace : (resetRegisters s).trace = State.reset.trace := rfl
@[simp] theorem resetRegisters_rspValid : (resetRegisters s).rspValid = State.reset.rspValid := rfl
@[simp] theorem resetRegisters_rspItems : (resetRegisters s).rspItems = State.reset.rspItems := rfl
@[simp] theorem resetRegisters_draws : (resetRegisters s).draws = s.draws := rfl

@[simp] theorem driveLevel_cfg (p : Pin) (l : Level) : (driveLevel p l s).cfg = s.cfg := by cases p <;> rfl
@[simp] theorem driveLevel_dir (p : Pin) (l : Level) : (driveLevel p l s).dir = s.dir := by cases p <;> rfl
@[simp] theorem driveLevel_rdata (p : Pin) (l : Level) : (driveLevel p l s).rdata = s.rdata := by cases p <;> rfl
@[simp] theorem driveLevel_busy (p : Pin) (l : Level) : (driveLevel p l s).busy = s.busy := by cases p <;> rfl
@[simp] theorem driveLevel_err (p : Pin) (l : Level) : (driveLevel p l s).err = s.err := by cases p <;> rfl
@[simp] theorem driveLevel_inited (p : Pin) (l : Level) : (driveLevel p l s).inited = s.inited := by cases p <;> rfl
@[simp] theorem driveLevel_phase (p : Pin) (l : Level) : (driveLevel p l s).phase = s.phase := by cases p <;> rfl
@[simp] theorem driveLevel_op (p : Pin) (l : Level) : (driveLevel p l s).op = s.op := by cases p <;> rfl
@[simp] theorem driveLevel_oaddr (p : Pin) (l : Level) : (driveLevel p l s).oaddr = s.oaddr := by cases p <;> rfl
@[simp] theorem driveLevel_oarg (p : Pin) (l : Level) : (driveLevel p l s).oarg = s.oarg := by cases p <;> rfl
@[simp] theorem driveLevel_pb (p : Pin) (l : Level) : (driveLevel p l s).pb = s.pb := by cases p <;> rfl
@[simp] theorem driveLevel_idx (p : Pin) (l : Level) : (driveLevel p l s).idx = s.idx := by cases p <;> rfl
@[simp] theorem driveLevel_cur (p : Pin) (l : Level) : (driveLevel p l s).cur = s.cur := by cases p <;> rfl
@[simp] theorem driveLevel_outq (p : Pin) (l : Level) : (driveLevel p l s).outq = s.outq := by cases p <;> rfl
@[simp] theorem driveLevel_sr (p : Pin) (l : Level) : (driveLevel p l s).sr = s.sr := by cases p <;> rfl
@[simp] theorem driveLevel_q (p : Pin) (l : Level) : (driveLevel p l s).q = s.q := by cases p <;> rfl
@[simp] theorem driveLevel_mem (p : Pin) (l : Level) : (driveLevel p l s).mem = s.mem := by cases p <;> rfl
@[simp] theorem driveLevel_wbusy (p : Pin) (l : Level) : (driveLevel p l s).wbusy = s.wbusy := by cases p <;> rfl
@[simp] theorem driveLevel_pbuf (p : Pin) (l : Level) : (driveLevel p l s).pbuf = s.pbuf := by cases p <;> rfl
@[simp] theorem driveLevel_inputs (p : Pin) (l : Level) : (driveLevel p l s).inputs = s.inputs := by cases p <;> rfl
@[simp] theorem driveLevel_samples (p : Pin) (l : Level) : (driveLevel p l s).samples = s.samples := by cases p <;> rfl
@[simp] theorem driveLevel_trace (p : Pin) (l : Level) : (driveLevel p l s).trace = s.trace := by cases p <;> rfl
@[simp] theorem driveLevel_rspValid (p : Pin) (l : Level) : (driveLevel p l s).rspValid = s.rspValid := by cases p <;> rfl
@[simp] theorem driveLevel_rspItems (p : Pin) (l : Level) : (driveLevel p l s).rspItems = s.rspItems := by cases p <;> rfl
@[simp] theorem driveLevel_draws (p : Pin) (l : Level) : (driveLevel p l s).draws = s.draws := by cases p <;> rfl

end Sys2Proof.Machine
end

