-- ==== Sys2Proof/Laws/Bits.lean ====
section
/-! SUPPORT. The laws of the bit operations: setting one bit, eight bits at once, and the address word. -/

namespace Sys2Proof.Machine

@[simp] theorem getLsbD_setBit {w : Nat} (v : BitVec w) (i : Nat) (b : Bool) (j : Nat) :
    (setBit v i b).getLsbD j = if j = i ∧ i < w then b else v.getLsbD j := by
  by_cases hw : j < w
  · by_cases hj : j = i
    · subst hj
      cases b <;> simp [setBit, hw]
    · cases b <;> simp [setBit, hj, hw]
  · rw [BitVec.getLsbD_of_ge _ _ (by omega), BitVec.getLsbD_of_ge _ _ (by omega)]
    split
    · omega
    · rfl

/-- A statement about the bits of an 8-bit value is eight statements. -/
theorem byte_ext {x y : BitVec 8} (h0 : x.getLsbD 0 = y.getLsbD 0) (h1 : x.getLsbD 1 = y.getLsbD 1)
    (h2 : x.getLsbD 2 = y.getLsbD 2) (h3 : x.getLsbD 3 = y.getLsbD 3) (h4 : x.getLsbD 4 = y.getLsbD 4)
    (h5 : x.getLsbD 5 = y.getLsbD 5) (h6 : x.getLsbD 6 = y.getLsbD 6) (h7 : x.getLsbD 7 = y.getLsbD 7) : x = y := by
  apply BitVec.eq_of_getLsbD_eq
  intro i hi
  interval_cases i <;> assumption

/-- Writing the eight bits of `b`, D0 first, leaves `b` (R95, R96). -/
theorem setBits_byte (v b : BitVec 8) :
    setBit (setBit (setBit (setBit (setBit (setBit (setBit (setBit v 0 (b.getLsbD 0)) 1 (b.getLsbD 1)) 2 (b.getLsbD 2)) 3
      (b.getLsbD 3)) 4 (b.getLsbD 4)) 5 (b.getLsbD 5)) 6 (b.getLsbD 6)) 7 (b.getLsbD 7) = b := by
  apply byte_ext <;> simp only [getLsbD_setBit] <;> norm_num

/-- Setting all eight bits to one value (R25). -/
theorem setBits_const (v : BitVec 8) (x : Bool) :
    setBit (setBit (setBit (setBit (setBit (setBit (setBit (setBit v 0 x) 1 x) 2 x) 3 x) 4 x) 5 x) 6 x) 7 x =
      if x then BitVec.allOnes 8 else 0 := by
  apply byte_ext <;> simp only [getLsbD_setBit] <;> cases x <;> rfl

/-- Eight shifts put a byte, most significant bit first, into the low eight stages (R57, R123). -/
theorem shift_byte (sr : BitVec 16) (b : BitVec 8) :
    ((((((((((((((((sr.setWidth 15).concat (b.getLsbD 7)).setWidth 15).concat (b.getLsbD 6)).setWidth 15).concat
      (b.getLsbD 5)).setWidth 15).concat (b.getLsbD 4)).setWidth 15).concat (b.getLsbD 3)).setWidth 15).concat
      (b.getLsbD 2)).setWidth 15).concat (b.getLsbD 1)).setWidth 15).concat (b.getLsbD 0) : BitVec 16) =
      (sr.setWidth 8 ++ b : BitVec 16) := by
  apply BitVec.eq_of_getLsbD_eq
  intro i hi
  have hi : i < 16 := hi
  interval_cases i <;> simp only [BitVec.getLsbD_concat, BitVec.getLsbD_append, BitVec.getLsbD_setWidth] <;> simp

theorem or_128 {x : Nat} (h : x < 128) : x ||| 128 = x + 128 := by
  have := Nat.two_pow_add_eq_or_of_lt (i := 7) (b := x) h 1
  rw [Nat.lor_comm]
  simpa [Nat.add_comm] using this.symm

theorem highByte_toNat {a : Nat} (h : a ≤ 32767) (oe : Bool) :
    (highByte a oe).toNat = a / 256 + if oe then 0 else 128 := by
  have h1 : (a >>> 8 &&& 127) = a / 256 := by
    rw [show (127 : Nat) = 2 ^ 7 - 1 from rfl, Nat.and_two_pow_sub_one_eq_mod, Nat.shiftRight_eq_div_pow]
    omega
  unfold highByte
  rw [BitVec.toNat_ofNat, h1]
  cases oe
  · simp only [Bool.false_eq_true, if_false]
    rw [or_128 (by omega)]
    omega
  · simp only [if_true, Nat.or_zero]
    omega

theorem lowByte_toNat (a : Nat) : (lowByte a).toNat = a % 256 := by
  unfold lowByte
  rw [BitVec.toNat_ofNat, show (0xFF : Nat) = 2 ^ 8 - 1 from rfl, Nat.and_two_pow_sub_one_eq_mod]
  omega

/-- The value of the serialized word (R91). -/
theorem addressWord_toNat {a : Nat} (h : a ≤ 32767) (oe : Bool) :
    (addressWord a oe).toNat = a + if oe then 0 else 32768 := by
  unfold addressWord
  rw [BitVec.toNat_append, ← Nat.shiftLeft_add_eq_or_of_lt (lowByte a).isLt, Nat.shiftLeft_eq, highByte_toNat h,
    lowByte_toNat]
  cases oe <;> simp <;> omega

/-- The two bytes of the word, one after the other, are the word (R92). -/
theorem shift_word (sr : BitVec 16) (a : Nat) (oe : Bool) :
    (((sr.setWidth 8 ++ highByte a oe : BitVec 16).setWidth 8 ++ lowByte a) : BitVec 16) = addressWord a oe := by
  unfold addressWord
  apply BitVec.eq_of_getLsbD_eq
  intro i hi
  have hi : i < 16 := hi
  interval_cases i <;> simp only [BitVec.getLsbD_append, BitVec.getLsbD_setWidth] <;> simp

/-- OE_n is NOT outputEnable (R90, R91). -/
theorem addressWord_oeN (a : Nat) (oe : Bool) : (addressWord a oe).getLsbD 15 = !oe := by
  unfold addressWord highByte
  rw [BitVec.getLsbD_append]
  cases oe <;> simp

/-- The last level on SER is bit 0 of the word (R142). -/
theorem addressWord_bit0 (a : Nat) (oe : Bool) : (addressWord a oe).getLsbD 0 = (lowByte a).getLsbD 0 := by
  unfold addressWord
  simp only [BitVec.getLsbD_append]
  simp

/-- ABUS of the word is the address (R93). -/
theorem addressWord_abus {a : Nat} (h : a ≤ 32767) (oe : Bool) : ((addressWord a oe).extractLsb' 0 15).toNat = a := by
  rw [BitVec.extractLsb'_toNat, addressWord_toNat h, Nat.shiftRight_zero]
  cases oe <;> simp <;> omega

end Sys2Proof.Machine
end

