-- ==== Sys2Proof/Laws/Events.lean ====
section
/-! SUPPORT. What a list of pin events does: one lemma per block of events (40_pin_primitives.md R123, R124,
41_shift_register_bus.md R141, 42_transaction_engine.md R151, R161). -/

namespace Sys2Proof.Machine

@[simp] theorem andThen_next (s : State) (f : State → Result) : andThen (.next s) f = f s := rfl

theorem andThen_assoc (r : Result) (f g : State → Result) :
    andThen (andThen r f) g = andThen r fun s => andThen (f s) g := by
  cases r <;> rfl

/-- Inversion: a composed step that answers a next state did so twice. -/
theorem andThen_eq_next {r : Result} {f : State → Result} {t : State} (h : andThen r f = .next t) :
    ∃ u, r = .next u ∧ f u = .next t := by
  cases r with
  | next u => exact ⟨u, rfl, h⟩
  | fault e => cases h
  | refused e => cases h

theorem performAll_append (es es' : List PinEvent) (s : State) :
    performAll (es ++ es') s = andThen (performAll es s) (performAll es') := by
  induction es generalizing s with
  | nil => rfl
  | cons e es ih =>
    simp only [List.cons_append, performAll, andThen_assoc]
    congr 1
    funext t
    exact ih t

/-- The levels of a byte as they are shifted out (R123): the stages, the level left on SER, and the trace. -/
theorem performAll_shiftOut (b : Byte) (s : State) (h : s.srclk = LOW) :
    performAll (shiftOut b) s =
      .next { s with
        sr := s.sr.setWidth 8 ++ b
        ser := b.getLsbD 0
        trace := s.trace ++ (shiftOut b).map (PinEvent.recordWith 0) } := by
  have key := shift_byte s.sr b
  obtain ⟨cfg, ser, srclk⟩ := s
  simp only at h
  subst h
  simp only [shiftOut, List.flatMap_cons, List.flatMap_nil, List.cons_append, List.nil_append, List.append_nil, performAll,
    perform, pinEffect, pinWrite, react, driveLevel, PinEvent.record, shiftStages, andThen_next, Bool.not_false, Bool.true_and,
    Bool.false_and, if_true, if_false, Bool.false_eq_true, List.map_cons, List.map_nil, PinEvent.recordWith,
    List.append_assoc]
  simp only [key]

theorem performAll_latchPulse (s : State) (h : s.rclk = LOW) :
    performAll latchPulse s =
      .next { s with q := s.sr, trace := s.trace ++ latchPulse.map (PinEvent.recordWith 0) } := by
  obtain ⟨cfg, ser, srclk, rclk⟩ := s
  simp only at h
  subst h
  simp [latchPulse, performAll, perform, pinEffect, pinWrite, react, driveLevel, PinEvent.record, latchOutputs, PinEvent.recordWith]

/-- Setting all eight directions (R25, R120). -/
theorem performAll_setDirection (d : Dir) (s : State) :
    performAll (setDirection d) s =
      .next { s with
        dir := if d then BitVec.allOnes 8 else 0
        trace := s.trace ++ (setDirection d).map (PinEvent.recordWith 0) } := by
  have key := setBits_const s.dir d
  simp only [setDirection, dataLines, List.map_cons, List.map_nil, performAll, perform, pinEffect, pinMode, PinEvent.record,
    PinEvent.recordWith, andThen_next, List.append_assoc, List.cons_append, List.nil_append]
  rw [← key]
  rfl

/-- Driving a byte onto eight output lines (R95). -/
theorem performAll_driveByte (b : Byte) (s : State) (h : s.dir = BitVec.allOnes 8) :
    performAll (driveByte b) s =
      .next { s with dout := b, trace := s.trace ++ (driveByte b).map (PinEvent.recordWith 0) } := by
  have key := setBits_byte s.dout b
  have hd : ∀ i : Fin 8, s.dir.getLsbD i = true := by
    intro i; rw [h]; simp only [BitVec.getLsbD_allOnes, i.isLt, decide_true]
  simp only [driveByte, dataLines, List.map_cons, List.map_nil, performAll, perform, pinEffect, pinWrite, react, driveLevel, PinEvent.record,
    PinEvent.recordWith, andThen_next, List.append_assoc, List.cons_append, List.nil_append, hd, if_true]
  exact congrArg (fun x => (.next { s with
    dout := x, trace := s.trace ++ (driveByte b).map (PinEvent.recordWith 0) } : Result)) key

/-- `setAddress(address, outputEnable)` from idle clock and latch lines (R140, R142). -/
theorem performAll_setAddress (a : Nat) (oe : Bool) (s : State) (h : s.srclk = LOW) (h' : s.rclk = LOW) :
    performAll (setAddressEvents a oe) s =
      .next { s with
        sr := addressWord a oe
        q := addressWord a oe
        ser := (addressWord a oe).getLsbD 0
        trace := s.trace ++ (setAddressEvents a oe).map (PinEvent.recordWith 0) } := by
  unfold setAddressEvents
  rw [performAll_append, performAll_append, performAll_shiftOut _ _ h, andThen_next, performAll_shiftOut _ _ (by exact h),
    andThen_next, performAll_latchPulse _ (by exact h')]
  simp only [shift_word, addressWord_bit0, List.map_append, List.append_assoc]

/-- A line that the EEPROM alone drives (R60). -/
theorem line_eeprom {s : State} (hd : s.dir = 0) (ho : s.oeN = LOW) (hb : s.wbusy = false) (i : Fin 8) :
    s.line i = some (s.cellByte.getLsbD i) := by
  simp [State.line, hd, ho, hb]

/-- A sample of a line that one agent drives (R60, R66, R122). -/
theorem pinRead_driven {s : State} {i : Fin 8} {l : Level} (hd : s.dir.getLsbD i = false) (hl : s.line i = some l) :
    pinRead i s = .next { s with samples := setBit s.samples i l } := by
  simp only [pinRead, hd, State.afterDraw, State.dbus, hl, Option.getD_some, if_false, Bool.false_eq_true]

theorem perform_rd {s : State} {i : Fin 8} {l : Level} (hd : s.dir.getLsbD i = false) (hl : s.line i = some l) :
    perform (.rd i) s = .next { s with samples := setBit s.samples i l, trace := s.trace ++ [.rd i l] } := by
  have hdb : s.dbus i = l := by rw [State.dbus, hl, Option.getD_some]
  rw [perform, PinEvent.record, hdb]
  exact pinRead_driven (s := { s with trace := s.trace ++ [.rd i l] }) hd hl

/-- Sampling the eight lines while the EEPROM alone drives them (R153). -/
theorem performAll_samples (s : State) {v : Byte} (hv : s.cellByte = v) (hd : s.dir = 0) (ho : s.oeN = LOW)
    (hb : s.wbusy = false) :
    performAll (dataLines.map fun i => .rd i) s =
      .next { s with
        samples := v
        trace := s.trace ++ (dataLines.map fun i => .rd i).map (PinEvent.recordWith v) } := by
  subst hv
  have key := setBits_byte s.samples s.cellByte
  have step : ∀ (i : Fin 8) (u : State), u.dir = 0 → u.oeN = LOW → u.wbusy = false →
      perform (.rd i) u = .next { u with
        samples := setBit u.samples i (u.cellByte.getLsbD i)
        trace := u.trace ++ [.rd i (u.cellByte.getLsbD i)] } :=
    fun i u hd ho hb => perform_rd (by rw [hd]; simp) (line_eeprom hd ho hb i)
  simp only [dataLines, List.map_cons, List.map_nil, performAll]
  rw [step 0 s hd ho hb, andThen_next]
  iterate 7 rw [step _ _ (by exact hd) (by exact ho) (by exact hb), andThen_next]
  simp only [PinEvent.recordWith, List.append_assoc, List.cons_append, List.nil_append]
  exact congrArg (fun x => (.next { s with
    samples := x, trace := s.trace ++ (dataLines.map fun i => .rd i).map (PinEvent.recordWith s.cellByte) } : Result)) key

/-- The strobe and the recovery of a `Write` (R163). -/
theorem performAll_strobe (s : State) (hw : s.weN = HIGH) (ho : s.oeN = HIGH) (hd : s.dir = BitVec.allOnes 8)
    (hb : s.wbusy = false) :
    performAll strobe s =
      .next { s with
        mem := Memory.write s.mem s.cell s.dout
        trace := s.trace ++ strobe.map (PinEvent.recordWith 0) } := by
  obtain ⟨cfg, ser, srclk, rclk, weN⟩ := s
  simp only at hw hd hb
  subst hw hd hb
  simp only [strobe, performAll, perform, pinEffect, pinWrite, react, driveLevel, PinEvent.record, delay, State.strobeAllowed, deviceWrite,
    PinEvent.recordWith, List.map_cons, List.map_nil]
  simp only [State.oeN] at ho
  simp [State.oeN, ho, State.cell, State.abus]

/-- The lists that sample nothing are recorded alike whatever a sample would return. -/
theorem record_setAddress (v : Byte) (a : Nat) (oe : Bool) :
    (setAddressEvents a oe).map (PinEvent.recordWith 0) = (setAddressEvents a oe).map (PinEvent.recordWith v) := rfl

theorem record_setDirection (v : Byte) (d : Dir) :
    (setDirection d).map (PinEvent.recordWith 0) = (setDirection d).map (PinEvent.recordWith v) := rfl

/-- The selected cell after the word of a legal address was latched (R55). -/
theorem cell_of_word {s : State} {a : Nat} (h : a ≤ 32767) {oe : Bool} (hq : s.q = addressWord a oe) :
    s.cell = a % s.cfg.n := by
  rw [State.cell, State.abus, hq, addressWord_abus h]

/-- The 66 events of `Read` (R151, R153, R154): the sampled byte is the cell. -/
theorem performAll_read (a : Nat) (s : State) (ha : a ≤ 32767) (h : s.srclk = LOW) (h' : s.rclk = LOW)
    (hb : s.wbusy = false) :
    performAll (readEvents a) s =
      .next { s with
        dir := 0
        sr := addressWord a true
        q := addressWord a true
        ser := (addressWord a true).getLsbD 0
        samples := Memory.read s.mem (a % s.cfg.n)
        trace := s.trace ++ (readEvents a).map (PinEvent.recordWith (Memory.read s.mem (a % s.cfg.n))) } := by
  unfold readEvents
  rw [performAll_append, performAll_append, performAll_setDirection, andThen_next,
    performAll_setAddress _ _ _ (by exact h) (by exact h'), andThen_next,
    performAll_samples (v := Memory.read s.mem (a % s.cfg.n)) _
      (by rw [State.cellByte, cell_of_word ha (oe := true) rfl]) (by rfl) (by exact addressWord_oeN a true) (by exact hb),
    record_setDirection (Memory.read s.mem (a % s.cfg.n)), record_setAddress (Memory.read s.mem (a % s.cfg.n))]
  simp only [if_false, Bool.false_eq_true, List.map_append, List.append_assoc]

/-- The 70 events of `Write` (R161, R163, R164): one cell takes the byte. -/
theorem performAll_write (a : Nat) (b : Byte) (s : State) (ha : a ≤ 32767) (h : s.srclk = LOW) (h' : s.rclk = LOW)
    (hw : s.weN = HIGH) (hb : s.wbusy = false) :
    performAll (writeEvents a b) s =
      .next { s with
        dir := BitVec.allOnes 8
        dout := b
        sr := addressWord a false
        q := addressWord a false
        ser := (addressWord a false).getLsbD 0
        mem := Memory.write s.mem (a % s.cfg.n) b
        trace := s.trace ++ (writeEvents a b).map (PinEvent.recordWith 0) } := by
  unfold writeEvents
  rw [performAll_append, performAll_append, performAll_append, performAll_setDirection, andThen_next,
    performAll_setAddress _ _ _ (by exact h) (by exact h'), andThen_next, performAll_driveByte _ _ (by rfl), andThen_next,
    performAll_strobe _ (by exact hw) (by exact addressWord_oeN a false) (by rfl) (by exact hb)]
  rw [cell_of_word ha (oe := false) rfl]
  simp only [if_true, List.map_append, List.append_assoc]

end Sys2Proof.Machine
end

