-- ==== Sys2Proof/Laws/Sequencer.lean ====
section
/-! SUPPORT. The sequencer: what one event leaves alone, a transaction as a whole, and an operation from acceptance to
completion (10_state.md R30, R31; 60_exceptions.md R206). -/

namespace Sys2Proof.Machine

/-- A pin event does not see PHASE: performing it with another PHASE gives the same answer with that PHASE. -/
theorem pinEffect_phase (e : PinEvent) (s : State) (p : List PinEvent) :
    pinEffect e { s with phase := p } = andThen (pinEffect e s) fun t => .next { t with phase := p } := by
  cases e with
  | mode i d => rfl
  | delay t => cases t <;> rfl
  | wr pin l =>
    cases pin with
    | ser => rfl
    | srclk =>
      simp only [pinEffect, pinWrite, react, andThen_next]
      split <;> rfl
    | rclk =>
      simp only [pinEffect, pinWrite, react, andThen_next]
      split <;> rfl
    | weN =>
      have hs : State.strobeAllowed { s with phase := p } = s.strobeAllowed := rfl
      by_cases h1 : l = s.weN
      · simp only [pinEffect, pinWrite, react, if_pos h1]
        rfl
      · cases h2 : s.strobeAllowed <;> cases l <;> simp only [pinEffect, pinWrite, react, if_neg h1, hs, h2] <;> rfl
    | d i =>
      simp only [pinEffect, pinWrite, react]
      split <;> rfl
  | rd i =>
    have hl : State.line { s with phase := p } i = s.line i := rfl
    simp only [pinEffect, pinRead, State.afterDraw, State.dbus, hl]
    split
    · rfl
    · cases s.line i <;> rfl

theorem perform_phase (e : PinEvent) (s : State) (p : List PinEvent) :
    perform e { s with phase := p } = andThen (perform e s) fun t => .next { t with phase := p } := by
  have h : e.record { s with phase := p } = e.record s := by cases e <;> rfl
  rw [perform, perform, h]
  exact pinEffect_phase e { s with trace := s.trace ++ [e.record s] } p

/-- What a pin event may change (R120 to R125): every other field stays. -/
theorem pinEffect_frame {e : PinEvent} {s t : State} (h : pinEffect e s = .next t) :
    t = { s with
      ser := t.ser, srclk := t.srclk, rclk := t.rclk, weN := t.weN, dout := t.dout, dir := t.dir, sr := t.sr, q := t.q,
      mem := t.mem, wbusy := t.wbusy, samples := t.samples, draws := t.draws } := by
  cases e with
  | mode i d => cases h; rfl
  | delay w => cases w <;> cases h <;> rfl
  | wr pin l =>
    cases pin with
    | ser => cases h; rfl
    | srclk =>
      simp only [pinEffect, pinWrite, react, andThen_next] at h
      split at h <;> cases h <;> rfl
    | rclk =>
      simp only [pinEffect, pinWrite, react, andThen_next] at h
      split at h <;> cases h <;> rfl
    | weN =>
      simp only [pinEffect, pinWrite, react] at h
      split at h
      · cases h; rfl
      · split at h
        · split at h <;> cases h <;> rfl
        · cases h
    | d i =>
      simp only [pinEffect, pinWrite, react] at h
      split at h
      · cases h; rfl
      · cases h
  | rd i =>
    simp only [pinEffect, pinRead, State.afterDraw] at h
    split at h
    · cases h
    · split at h <;> cases h <;> rfl

theorem perform_frame {e : PinEvent} {s t : State} (h : perform e s = .next t) :
    t = { s with
      ser := t.ser, srclk := t.srclk, rclk := t.rclk, weN := t.weN, dout := t.dout, dir := t.dir, sr := t.sr, q := t.q,
      mem := t.mem, wbusy := t.wbusy, samples := t.samples, trace := t.trace, draws := t.draws } := by
  have ht := pinEffect_frame h
  have htr : t.trace = s.trace ++ [e.record s] := by rw [ht]
  rw [htr]
  exact ht

/-- A pin event is recorded at the end of the trace (R14). -/
theorem perform_trace {e : PinEvent} {s t : State} (h : perform e s = .next t) : t.trace = s.trace ++ [e.record s] := by
  rw [pinEffect_frame h]

theorem perform_keeps_phase {e : PinEvent} {s t : State} (h : perform e s = .next t) : t.phase = s.phase := by
  rw [perform_frame h]

theorem ticks_add (m n : Nat) (s : State) : ticks (m + n) s = andThen (ticks m s) (ticks n) := by
  induction m generalizing s with
  | zero => simp [ticks]
  | succ m ih =>
    rw [Nat.succ_add, ticks, ticks, andThen_assoc]
    congr 1
    funext t
    exact ih t

/-- The events of a transaction, run one by one, then its end (R30). -/
theorem ticks_transaction (e : PinEvent) (es : List PinEvent) (s : State) (h : s.phase = e :: es) :
    ticks (e :: es).length s =
      andThen (performAll (e :: es) { s with phase := [] }) fun t => .next (endTransaction t) := by
  induction es generalizing e s with
  | nil =>
    simp only [List.length_singleton, ticks, tick, h, performAll, andThen_assoc]
    cases hp : perform e { s with phase := [] } with
    | fault f => rfl
    | refused r => rfl
    | next t =>
      have ht : t.phase = [] := perform_keeps_phase hp
      simp [andThen, settlePhase, ht]
  | cons e' es ih =>
    rw [List.length_cons, ticks, tick, h]
    simp only []
    have hp := perform_phase e { s with phase := [] } (e' :: es)
    simp only [] at hp
    rw [hp, performAll]
    cases hq : perform e { s with phase := [] } with
    | fault f => rfl
    | refused r => rfl
    | next t =>
      have ht : t.phase = [] := perform_keeps_phase hq
      simp only [andThen_next, settlePhase, List.isEmpty_cons, Bool.false_eq_true, if_false]
      rw [ih e' { t with phase := e' :: es } rfl]
      have : ({ t with phase := [] } : State) = t := by
        cases t; simp only at ht; subst ht; rfl
      rw [this]

theorem eventsLeft_idle {s : State} (h : s.busy = false) : s.eventsLeft = 0 := by
  simp [State.eventsLeft, h]

/-- Idle, there is nothing to finish. -/
theorem finish_idle {s : State} (h : s.busy = false) : finish s = .next s := by
  simp [finish, eventsLeft_idle h, ticks]

/-- From an idle state an operation is its acceptance and then its events (R206). -/
theorem runOperation_idle {accept : State → Result} {s : State} (h : s.busy = false) :
    runOperation accept s = andThen (accept s) finish := by
  rw [runOperation, finish_idle h, andThen_next]

theorem quiet_iff {s : State} : s.quiet = true ↔
    s.busy = false ∧ s.phase = [] ∧ s.srclk = LOW ∧ s.rclk = LOW ∧ s.weN = HIGH ∧
      (s.dir = 0 ∨ s.dir = BitVec.allOnes 8) := by
  simp [State.quiet, State.dirUniform, and_assoc]

@[simp] theorem length_readEvents (a : Nat) : (readEvents a).length = 66 := rfl
@[simp] theorem length_writeEvents (a : Nat) (b : Byte) : (writeEvents a b).length = 70 := rfl
@[simp] theorem length_setAddressEvents (a : Nat) (oe : Bool) : (setAddressEvents a oe).length = 50 := rfl

/-- A list of events run from the state that holds them as its PHASE. -/
theorem ticks_events {es : List PinEvent} (hne : es ≠ []) {s : State} (h : s.phase = es) :
    ticks es.length s = andThen (performAll es { s with phase := [] }) fun t => .next (endTransaction t) := by
  cases es with
  | nil => exact absurd rfl hne
  | cons e es => exact ticks_transaction e es s h

/-- The first events of a transaction, run one by one, leave the others as PHASE (R30). -/
theorem ticks_prefix {es fs : List PinEvent} {s : State} (h : s.phase = es ++ fs) (hf : fs ≠ []) :
    ticks es.length s = andThen (performAll es { s with phase := [] }) fun t => .next { t with phase := fs } := by
  induction es generalizing s with
  | nil => simp only [List.length_nil, ticks, performAll, andThen_next]; rw [← show s.phase = fs from h]
  | cons e es ih =>
    rw [List.length_cons, ticks, tick, h, List.cons_append]
    simp only []
    rw [show ({s with phase := es ++ fs} : State) = {({ s with phase := [] } : State) with phase := es ++ fs} from rfl,
      perform_phase e { s with phase := [] } (es ++ fs), performAll]
    cases hq : perform e { s with phase := [] } with
    | fault f => rfl
    | refused r => rfl
    | next t =>
      have ht : t.phase = [] := perform_keeps_phase hq
      have hne : (es ++ fs).isEmpty = false := by
        cases es <;> cases fs <;> simp at hf ⊢
      simp only [andThen_next, settlePhase, hne, Bool.false_eq_true, if_false]
      rw [ih (s := { t with phase := es ++ fs }) rfl]
      have : ({ t with phase := [] } : State) = t := by
        cases t; simp only at ht; subst ht; rfl
      simp only [this]

/-- A list of events that runs to its end runs to the end of each beginning of it. -/
theorem performAll_split {es fs : List PinEvent} {s t : State} (h : performAll (es ++ fs) s = .next t) :
    ∃ u, performAll es s = .next u ∧ performAll fs u = .next t := by
  rw [performAll_append] at h
  exact andThen_eq_next h

/-- A property that each event of a list keeps is kept by the list. -/
theorem performAll_keeps {P : State → Prop} {es : List PinEvent}
    (event : ∀ e ∈ es, ∀ {s t : State}, P s → perform e s = .next t → P t) {s t : State} (hs : P s)
    (h : performAll es s = .next t) : P t := by
  induction es generalizing s with
  | nil => cases h; exact hs
  | cons e es ih =>
    obtain ⟨u, hu, ht⟩ := andThen_eq_next h
    exact ih (fun e he => event e (by simp [he])) (event e (by simp) hs hu) ht

end Sys2Proof.Machine
end

