-- ==== Sys2Proof/Laws/Operations.lean ====
section
/-! SUPPORT. An operation from acceptance to completion (10_state.md R30, R31; 60_exceptions.md R206): the count of events left,
what a single operation answers, what the k-th transaction of a bulk operation leaves, and that a property kept by every part
of the step is kept by the step. -/

namespace Sys2Proof.Machine

/-! ### Properties kept by the machine -/

theorem ticks_keep {P : State → Prop} (tick_keeps : ∀ {s t : State}, P s → tick s = .next t → P t) {n : Nat} {s t : State}
    (hs : P s) (h : ticks n s = .next t) : P t := by
  induction n generalizing s with
  | zero => cases h; exact hs
  | succ n ih =>
    obtain ⟨u, hu, ht⟩ := andThen_eq_next h
    exact ih (tick_keeps hs hu) ht

/-- `exec` is the operation's run over its acceptance (R206). -/
theorem exec_eq_run (i : Instr) (s : State) : exec i s = runOperation (accept i) s := by
  cases i <;> rfl

theorem exec_idle {i : Instr} {s : State} (h : s.busy = false) : exec i s = andThen (accept i s) finish := by
  rw [exec_eq_run, runOperation_idle h]

/-- A property kept by acceptance and by every event is kept by an operation that starts idle. -/
theorem exec_keeps {P : State → Prop} (tick_keeps : ∀ {s t : State}, P s → tick s = .next t → P t)
    (accept_keeps : ∀ {i : Instr} {s t : State}, s.busy = false → P s → accept i s = .next t → P t)
    {i : Instr} {s t : State} (hb : s.busy = false) (hs : P s) (h : exec i s = .next t) : P t := by
  rw [exec_idle hb] at h
  obtain ⟨u, hu, ht⟩ := andThen_eq_next h
  exact ticks_keep tick_keeps (accept_keeps hb hs hu) ht

/-- Everything a step can do, for a property: it is enough that each part keeps it. -/
theorem step_keeps {P : State → Prop}
    (tick_keeps : ∀ {s t : State}, P s → tick s = .next t → P t)
    (accept_keeps : ∀ {i : Instr} {s t : State}, s.busy = false → P s → accept i s = .next t → P t)
    (inputs_keep : ∀ {s : State} (is : List HostInput), P s → P { s with inputs := is })
    (raise_keeps : ∀ {s : State} (code : ResultCode), s.busy = false → P s → P (raiseError code s))
    (reset_keeps : ∀ {s : State}, P s → P (applyReset s))
    (power_keeps : ∀ {s : State}, P s → P (applyPowerLoss s))
    (quiet_keeps : ∀ {s : State}, s.busy = false → P s → P { s with rspValid := false })
    (payload_keeps : ∀ {s : State} (idx : Nat) (val : BitVec 32), s.busy = false → P s → idx < s.cfg.pbd →
      P { s with pbuf := PayloadBuffer.write s.pbuf idx val, rspValid := false })
    (settle_keeps : ∀ {s : State}, s.busy = false → P s → P (letSettle s))
    {s t : State} (hs : P s) (h : step s = .next t) : P t := by
  unfold step serve at h
  cases hb : s.busy with
  | true =>
    simp only [hb, if_true] at h
    unfold stepBusy at h
    split at h
    · cases h; exact reset_keeps (inputs_keep _ hs)
    · exact tick_keeps (inputs_keep _ hs) h
    · cases h; exact power_keeps (inputs_keep _ hs)
    · exact tick_keeps (inputs_keep _ hs) h
    · exact tick_keeps hs h
  | false =>
    simp only [hb, Bool.false_eq_true, if_false] at h
    unfold serveIdle at h
    split at h <;> rename_i h'
    · split at h'
      · cases h'
      · rename_i w rest hin
        unfold serveCommand at h'
        split at h'
        · split at h'
          · cases h'
          · split at h'
            · cases h'
            · cases h'
              exact exec_keeps tick_keeps accept_keeps (by exact hb) (inputs_keep _ hs) h
        · cases h'
      all_goals cases h'
    · split at h'
      · cases h'
      · rename_i w rest hin
        unfold serveCommand at h'
        split at h'
        · split at h'
          · cases h'
          · split at h'
            · cases h'
              exact accept_keeps (by exact hb) (inputs_keep _ hs) h
            · cases h'
        · cases h'
      all_goals cases h'
    · split at h'
      · cases h'; cases h; exact quiet_keeps hb hs
      · unfold serveCommand at h'
        split at h'
        · split at h'
          · cases h'; cases h; exact raise_keeps _ (by exact hb) (inputs_keep _ hs)
          · split at h' <;> cases h'
        · cases h'; cases h
      · cases h'
        unfold servePayload at h
        split at h
        · rename_i hlt
          cases h
          exact payload_keeps _ _ (by exact hb) (inputs_keep _ hs) hlt
        · cases h
      · cases h'; cases h; exact reset_keeps (inputs_keep _ hs)
      · cases h'; cases h; exact power_keeps (inputs_keep _ hs)
      · cases h'; cases h; exact settle_keeps (by exact hb) (inputs_keep _ hs)

/-! ### One event of a running operation -/

/-- Everything an event can do: nothing if no event is left; else its effect, and the end of the transaction if it was the
last. -/
theorem tick_cases {s t : State} (h : tick s = .next t) :
    (s.phase = [] ∧ t = s) ∨
    ∃ e es u, s.phase = e :: es ∧ perform e { s with phase := es } = .next u ∧ u.phase = es ∧
      (es ≠ [] ∧ t = u ∨ es = [] ∧ t = endTransaction u) := by
  unfold tick at h
  split at h
  · rename_i hp
    cases h
    exact .inl ⟨hp, rfl⟩
  · rename_i e es hp
    obtain ⟨u, hu, ht⟩ := andThen_eq_next h
    have hph : u.phase = es := perform_keeps_phase hu
    refine .inr ⟨e, es, u, hp, hu, hph, ?_⟩
    cases ht
    cases es with
    | nil => exact .inr ⟨rfl, by simp [settlePhase, hph]⟩
    | cons e' es' => exact .inl ⟨by simp, by simp [settlePhase, hph]⟩

theorem emitRowBase_frame (u : State) : emitRowBase u = { u with outq := (emitRowBase u).outq } := by
  unfold emitRowBase; split <;> rfl

theorem bulkNext_frame (u : State) :
    bulkNext u = { u with
      busy := (bulkNext u).busy, phase := (bulkNext u).phase, err := (bulkNext u).err, rspValid := (bulkNext u).rspValid
      rspItems := (bulkNext u).rspItems, outq := (bulkNext u).outq } := by
  by_cases h : u.idx < u.oarg.toNat
  · rw [show bulkNext u = { emitRowBase u with phase := bulkEvents u } by rw [bulkNext, if_pos h], emitRowBase_frame]
  · rw [show bulkNext u = complete u by rw [bulkNext, if_neg h]]; rfl

/-- The end of a transaction leaves the devices, the pins and the operand registers alone, and BUSY unless it completes the
operation (R30, R31). -/
theorem endTransaction_frame (u : State) :
    endTransaction u = { u with
      busy := (endTransaction u).busy, phase := (endTransaction u).phase, err := (endTransaction u).err
      rspValid := (endTransaction u).rspValid, rspItems := (endTransaction u).rspItems, outq := (endTransaction u).outq
      rdata := (endTransaction u).rdata, idx := (endTransaction u).idx, cur := (endTransaction u).cur } := by
  have key : endTransaction u = complete u ∨ endTransaction u = complete (assemble u) ∨
      endTransaction u = bulkNext (advance u) ∨ endTransaction u = bulkNext (advance (emitByte (assemble u))) := by
    unfold endTransaction; cases u.op <;> simp
  rcases key with h | h | h | h <;> rw [h]
  · rfl
  · rfl
  · rw [bulkNext_frame]; rfl
  · rw [bulkNext_frame]; rfl

theorem bulkNext_more {u : State} (h : u.idx < u.oarg.toNat) :
    bulkNext u = { u with phase := bulkEvents u, outq := (emitRowBase u).outq } := by
  rw [bulkNext, if_pos h, emitRowBase_frame]

theorem bulkNext_done {u : State} (h : ¬ u.idx < u.oarg.toNat) : bulkNext u = complete u := by
  rw [bulkNext, if_neg h]

theorem op_cases (o : Op) :
    o = .setaddr ∨ o = .read ∨ o = .write ∨ o = .writebytes ∨ o = .erasebytes ∨ o = .dumprange := by
  cases o <;> simp

/-- What stands after a transaction: the operation is complete, or the next transaction of a bulk operation begins. -/
theorem endTransaction_phase (u : State) :
    ((endTransaction u).busy = false ∧ (endTransaction u).phase = [] ∧ (endTransaction u).err = .ok ∧
      u.transactionsAfter = 0) ∨
    ((endTransaction u).busy = u.busy ∧ (endTransaction u).phase = bulkEvents (advance u) ∧
      (endTransaction u).idx = u.idx + 1 ∧ (endTransaction u).cur = u.cur + 1 ∧ u.idx + 1 < u.oarg.toNat ∧
      (u.op = .writebytes ∨ u.op = .erasebytes ∨ u.op = .dumprange)) := by
  have bulk : ∀ v : State, endTransaction u = bulkNext v → v = { advance u with rdata := v.rdata, outq := v.outq } →
      u.transactionsAfter = u.oarg.toNat - (u.idx + 1) → (u.op = .writebytes ∨ u.op = .erasebytes ∨ u.op = .dumprange) →
      ((endTransaction u).busy = false ∧ (endTransaction u).phase = [] ∧ (endTransaction u).err = .ok ∧
        u.transactionsAfter = 0) ∨
      ((endTransaction u).busy = u.busy ∧ (endTransaction u).phase = bulkEvents (advance u) ∧
        (endTransaction u).idx = u.idx + 1 ∧ (endTransaction u).cur = u.cur + 1 ∧ u.idx + 1 < u.oarg.toNat ∧
        (u.op = .writebytes ∨ u.op = .erasebytes ∨ u.op = .dumprange)) := by
    intro v hv hvu hta hop
    have hi : v.idx = u.idx + 1 := by rw [hvu]; rfl
    have ha : v.oarg = u.oarg := by rw [hvu]; rfl
    have hev : bulkEvents v = bulkEvents (advance u) := by rw [hvu]; rfl
    by_cases h : v.idx < v.oarg.toNat
    · rw [hv, bulkNext_more h]
      refine .inr ⟨by rw [hvu]; rfl, hev, hi, by rw [hvu]; rfl, by rw [← hi, ← ha]; exact h, hop⟩
    · rw [hv, bulkNext_done h]
      rw [hi, ha] at h
      exact .inl ⟨rfl, rfl, rfl, by omega⟩
  rcases op_cases u.op with h | h | h | h | h | h
  · rw [show endTransaction u = complete u by simp only [endTransaction, h]]
    exact .inl ⟨rfl, rfl, rfl, by simp only [State.transactionsAfter, h]⟩
  · rw [show endTransaction u = complete (assemble u) by simp only [endTransaction, h]]
    exact .inl ⟨rfl, rfl, rfl, by simp only [State.transactionsAfter, h]⟩
  · rw [show endTransaction u = complete u by simp only [endTransaction, h]]
    exact .inl ⟨rfl, rfl, rfl, by simp only [State.transactionsAfter, h]⟩
  · exact bulk (advance u) (by simp only [endTransaction, h]) rfl (by simp only [State.transactionsAfter, h]) (by simp [h])
  · exact bulk (advance u) (by simp only [endTransaction, h]) rfl (by simp only [State.transactionsAfter, h]) (by simp [h])
  · exact bulk (advance (emitByte (assemble u))) (by simp only [endTransaction, h]) rfl
      (by simp only [State.transactionsAfter, h]) (by simp [h])

/-- The events of a bulk transaction are as many as the operation's transactions have. -/
theorem length_bulkEvents {u : State} (h : u.op = .writebytes ∨ u.op = .erasebytes ∨ u.op = .dumprange) :
    (bulkEvents u).length = u.op.events := by
  rcases h with h | h | h <;> simp [bulkEvents, h, Op.events]

/-- Each event of a running operation is one of those left (R30). -/
theorem tick_eventsLeft {s t : State} (hb : s.busy = true) (hp : s.phase ≠ []) (h : tick s = .next t) :
    t.eventsLeft + 1 = s.eventsLeft := by
  rcases tick_cases h with ⟨hn, _⟩ | ⟨e, es, u, hs, hu, hup, ht⟩
  · exact absurd hn hp
  have hf := perform_frame hu
  have hub : u.busy = true := by rw [hf]; exact hb
  have hop : u.op = s.op := by rw [hf]
  have harg : u.oarg = s.oarg := by rw [hf]
  have hidx : u.idx = s.idx := by rw [hf]
  have hta : u.transactionsAfter = s.transactionsAfter := by
    simp only [State.transactionsAfter, hop, harg, hidx]
  rcases ht with ⟨_, rfl⟩ | ⟨hes, rfl⟩
  · simp only [State.eventsLeft, hb, hub, if_true, hs, hup, hta, hop, List.length_cons]
    omega
  · subst hes
    rcases endTransaction_phase u with ⟨h1, _, _, h4⟩ | ⟨h1, h2, h3, _, h5, h6⟩
    · simp only [State.eventsLeft, h1, hb, if_true, hs, Bool.false_eq_true, if_false, ← hta, h4]
      simp
    · have hop' : (endTransaction u).op = s.op := by rw [endTransaction_frame]; exact hop
      have harg' : (endTransaction u).oarg = s.oarg := by rw [endTransaction_frame]; exact harg
      have hl : (bulkEvents (advance u)).length = s.op.events := by
        rw [length_bulkEvents (by exact h6)]; simp [advance, hop]
      have hta' : (endTransaction u).transactionsAfter + 1 = s.transactionsAfter := by
        rw [hop] at h6
        rw [harg, hidx] at h5
        rcases h6 with h6 | h6 | h6 <;> simp only [State.transactionsAfter, hop', harg', h3, h6, hidx] <;> omega
      simp only [State.eventsLeft, h1, hub, hb, if_true, h2, hl, hs, hop', ← hta', List.length_cons, List.length_nil]
      ring

/-- While an operation runs, some event is left (R30). -/
def State.eventful (s : State) : Prop := s.busy = true → s.phase ≠ []

theorem bulkEvents_ne_nil {u : State} (h : u.op = .writebytes ∨ u.op = .erasebytes ∨ u.op = .dumprange) :
    bulkEvents u ≠ [] := by
  intro hn
  have := length_bulkEvents h
  rw [hn] at this
  rcases h with h | h | h <;> simp [h, Op.events] at this

theorem tick_eventful {s t : State} (hs : s.eventful) (h : tick s = .next t) : t.eventful := by
  rcases tick_cases h with ⟨_, rfl⟩ | ⟨e, es, u, hp, hu, hup, ⟨hes, rfl⟩ | ⟨_, rfl⟩⟩
  · exact hs
  · intro _; rw [hup]; exact hes
  · intro hb
    rcases endTransaction_phase u with ⟨h1, _⟩ | ⟨_, h2, _, _, _, h6⟩
    · rw [h1] at hb; cases hb
    · rw [h2]; exact bulkEvents_ne_nil (by exact h6)

theorem eventsLeft_pos {s : State} (hs : s.eventful) (hb : s.busy = true) : 0 < s.eventsLeft := by
  have hp := hs hb
  simp only [State.eventsLeft, hb, if_true]
  cases hph : s.phase with
  | nil => exact absurd hph hp
  | cons e es => simp only [List.length_cons]; omega

/-- The operation in progress, run to its completion, is over (R206). -/
theorem finish_ends {s t : State} (hs : s.eventful) (h : finish s = .next t) : t.busy = false := by
  unfold finish at h
  generalize hn : s.eventsLeft = n at h
  induction n generalizing s with
  | zero =>
    cases h
    by_contra hb
    have := eventsLeft_pos hs (by simpa using hb)
    omega
  | succ n ih =>
    obtain ⟨u, hu, ht⟩ := andThen_eq_next h
    have hb : s.busy = true := by
      by_contra hb
      rw [eventsLeft_idle (by simpa using hb)] at hn
      cases hn
    exact ih (tick_eventful hs hu) (by have := tick_eventsLeft hb (hs hb) hu; omega) ht

end Sys2Proof.Machine
end

