-- ==== Sys2Proof/Laws/Acceptance.lean ====
section
/-! SUPPORT. Acceptance (60_exceptions.md R206): everything it can do, and what an operation accepted from a ready state answers
(41_shift_register_bus.md R140, 42_transaction_engine.md R150, R160, 43_bulk_operations.md R170, R174, R176). -/

namespace Sys2Proof.Machine

/-- The range checks of an operation (R106). -/
def checksOf (s : State) : Instr → Option ResultCode
  | .setaddr _ _ => none
  | .read addr => checkRead s.cfg.n addr
  | .write addr byte => checkWrite s.cfg.n addr byte
  | .writebytes start len => checkWritebytes s.cfg.n start len (payloadOf s.pbuf len)
  | .erasebytes start count => checkErasebytes s.cfg.n start count
  | .dumprange start count => checkDumprange s.cfg.n start count

/-- The state an accepted operation begins in (R29, R206). -/
def begun (s : State) : Instr → State
  | .setaddr addr oe =>
    { capture .setaddr addr s with oarg := if oe then 1 else 0, phase := setAddressEvents addr.toNat oe }
  | .read addr => { capture .read addr s with phase := readEvents addr.toNat }
  | .write addr byte => { capture .write addr s with oarg := byte, phase := writeEvents addr.toNat (byteOf byte) }
  | .writebytes start len => startBulk { capture .writebytes start s with oarg := len, pb := payloadOf s.pbuf len }
  | .erasebytes start count => startBulk { capture .erasebytes start s with oarg := count }
  | .dumprange start count => startBulk { capture .dumprange start s with oarg := count }

/-- The only operand that is refused: an address of SETADDR outside [0, 32767] (R148). -/
def presentable : Instr → Prop
  | .setaddr addr _ => 0 ≤ addr ∧ addr ≤ 32767
  | .read _ => True
  | .write _ _ => True
  | .writebytes _ _ => True
  | .erasebytes _ _ => True
  | .dumprange _ _ => True

theorem accept_rejected {i : Instr} {s : State} {code : ResultCode} (hi : s.inited = true) (h : checksOf s i = some code) :
    accept i s = .next (raiseError code s) := by
  cases i with
  | setaddr addr oe => cases h
  | read addr => simp only [checksOf] at h; simp only [accept, acceptRead, whenInitialised, hi, if_true, h]
  | write addr byte => simp only [checksOf] at h; simp only [accept, acceptWrite, whenInitialised, hi, if_true, h]
  | writebytes start len => simp only [checksOf] at h; simp only [accept, acceptWritebytes, whenInitialised, hi, if_true, h]
  | erasebytes start count => simp only [checksOf] at h; simp only [accept, acceptErasebytes, whenInitialised, hi, if_true, h]
  | dumprange start count => simp only [checksOf] at h; simp only [accept, acceptDumprange, whenInitialised, hi, if_true, h]

theorem accept_begun {i : Instr} {s : State} (hi : s.inited = true) (hp : presentable i) (h : checksOf s i = none) :
    accept i s = .next (begun s i) := by
  cases i with
  | setaddr addr oe =>
    have : fits15 addr = true := by simpa [fits15, presentable] using hp
    simp only [accept, acceptSetaddr, whenInitialised, hi, if_true, this, begun]
  | read addr => simp only [checksOf] at h; simp only [accept, acceptRead, whenInitialised, hi, if_true, h, begun]
  | write addr byte => simp only [checksOf] at h; simp only [accept, acceptWrite, whenInitialised, hi, if_true, h, begun]
  | writebytes start len => simp only [checksOf] at h; simp only [accept, acceptWritebytes, whenInitialised, hi, if_true, h, begun]
  | erasebytes start count => simp only [checksOf] at h; simp only [accept, acceptErasebytes, whenInitialised, hi, if_true, h, begun]
  | dumprange start count => simp only [checksOf] at h; simp only [accept, acceptDumprange, whenInitialised, hi, if_true, h, begun]

/-- Inversion: acceptance rejects with a result code, or begins the operation. -/
theorem accept_cases {i : Instr} {s t : State} (h : accept i s = .next t) :
    s.inited = true ∧
    ((∃ code, checksOf s i = some code ∧ t = raiseError code s) ∨
      (checksOf s i = none ∧ presentable i ∧ t = begun s i)) := by
  have hi : s.inited = true := by
    by_contra hi
    simp only [Bool.not_eq_true] at hi
    cases i <;>
      simp [accept, acceptSetaddr, acceptRead, acceptWrite, acceptWritebytes, acceptErasebytes, acceptDumprange, whenInitialised, hi] at h
  refine ⟨hi, ?_⟩
  cases hc : checksOf s i with
  | some code =>
    rw [accept_rejected hi hc] at h
    cases h
    exact .inl ⟨code, rfl, rfl⟩
  | none =>
    by_cases hp : presentable i
    · rw [accept_begun hi hp hc] at h
      cases h
      exact .inr ⟨rfl, hp, rfl⟩
    · exfalso
      cases i with
      | setaddr addr oe =>
        have : ¬ fits15 addr = true := by simpa [fits15, presentable] using hp
        simp only [accept, acceptSetaddr, whenInitialised, hi, if_true, if_neg this] at h
        cases h
      | read addr => exact hp trivial
      | write addr byte => exact hp trivial
      | writebytes start len => exact hp trivial
      | erasebytes start count => exact hp trivial
      | dumprange start count => exact hp trivial

/-! ### The checks -/

theorem checkAddr_none {n : Nat} {a : Int} : checkAddr n a = none ↔ 0 ≤ a ∧ a < n := by
  unfold checkAddr; split <;> simp_all

theorem checkCount_none {n : Nat} {a c : Int} : checkCount n a c = none ↔ 0 ≤ c ∧ a + c ≤ n := by
  unfold checkCount; split <;> simp_all

theorem checkByte_none {v : Int} : checkByte v = none ↔ 0 ≤ v ∧ v ≤ 255 := by
  unfold checkByte isByte; split <;> simp_all

theorem checkBytes_none {vs : List Int} : checkBytes vs = none ↔ ∀ v ∈ vs, 0 ≤ v ∧ v ≤ 255 := by
  unfold checkBytes; split <;> simp_all [isByte]

/-- What an operation that passes its checks is known to satisfy (R106). -/
def passes (s : State) : Instr → Prop
  | .setaddr _ _ => True
  | .read addr => 0 ≤ addr ∧ addr < s.cfg.n
  | .write addr byte => (0 ≤ addr ∧ addr < s.cfg.n) ∧ 0 ≤ byte ∧ byte ≤ 255
  | .writebytes start len =>
    (0 ≤ start ∧ start < s.cfg.n) ∧ (0 ≤ len ∧ start + len ≤ s.cfg.n) ∧ ∀ v ∈ payloadOf s.pbuf len, 0 ≤ v ∧ v ≤ 255
  | .erasebytes start count => (0 ≤ start ∧ start < s.cfg.n) ∧ 0 ≤ count ∧ start + count ≤ s.cfg.n
  | .dumprange start count => (0 ≤ start ∧ start < s.cfg.n) ∧ 0 ≤ count ∧ start + count ≤ s.cfg.n

theorem checksOf_none {s : State} {i : Instr} : checksOf s i = none ↔ passes s i := by
  cases i <;>
    simp only [checksOf, checkRead, checkWrite, checkWritebytes, checkErasebytes, checkDumprange, Option.or_eq_none_iff,
      checkAddr_none, checkCount_none, checkByte_none, checkBytes_none, passes]

/-- The cells of a configuration are addresses of 15 bits (R9). -/
theorem n_le {c : Config} (h : c.wf = true) : c.n ≤ 32768 := by
  simp only [Config.wf, decide_eq_true_eq] at h
  unfold Config.n
  calc 2 ^ c.a ≤ 2 ^ 15 := Nat.pow_le_pow_right (by decide) h.2.1
    _ = 32768 := by decide

/-! ### Single operations -/

/-- The events of an operation of one transaction, then its end. -/
theorem finish_single {s : State} (hb : s.busy = true) (hp : s.phase ≠ []) (h : s.transactionsAfter = 0) :
    finish s = andThen (performAll s.phase { s with phase := [] }) fun t => .next (endTransaction t) := by
  have : s.eventsLeft = s.phase.length := by simp [State.eventsLeft, hb, h]
  rw [finish, this, ticks_events hp rfl]

/-- SETADDR, accepted (R140, R142). -/
theorem exec_setaddr {s : State} {addr : Int} {oe : Bool} (hi : s.inited = true) (hq : s.quiet = true) (h : 0 ≤ addr)
    (h' : addr ≤ 32767) :
    exec (.setaddr addr oe) s = .next
      { s with
        op := .setaddr, oaddr := addr, oarg := if oe then 1 else 0, outq := [], rspValid := true, rspItems := [], err := .ok
        sr := addressWord addr.toNat oe, q := addressWord addr.toNat oe, ser := (addressWord addr.toNat oe).getLsbD 0
        trace := (setAddressEvents addr.toNat oe).map (PinEvent.recordWith 0) } := by
  obtain ⟨hb, hp, hc, hr, hw, hd⟩ := quiet_iff.1 hq
  rw [exec_idle hb, accept_begun hi (by exact ⟨h, h'⟩) rfl, andThen_next, finish_single (by rfl) (by simp [begun, setAddressEvents, shiftOut]) (by rfl)]
  rw [show (begun s (.setaddr addr oe)).phase = setAddressEvents addr.toNat oe from rfl,
    performAll_setAddress _ _ _ (by exact hc) (by exact hr), andThen_next]
  obtain ⟨cfg, ser, srclk, rclk, weN, dout, dir, rdata, busy, err, inited, phase⟩ := s
  simp only at hb hp
  subst hb hp
  rfl

/-- READ, accepted, of an idle device (R150, R153, R154). -/
theorem exec_read {s : State} {addr : Int} (hi : s.inited = true) (hq : s.quiet = true) (hc : s.cfg.wf = true)
    (hb : s.wbusy = false) (h : 0 ≤ addr) (h' : addr < s.cfg.n) :
    exec (.read addr) s = .next
      { s with
        op := .read, oaddr := addr, outq := [], rspValid := true, rspItems := [], err := .ok
        sr := addressWord addr.toNat true, q := addressWord addr.toNat true
        ser := (addressWord addr.toNat true).getLsbD 0, dir := 0
        samples := Memory.read s.mem addr.toNat, rdata := Memory.read s.mem addr.toNat
        trace := (readEvents addr.toNat).map (PinEvent.recordWith (Memory.read s.mem addr.toNat)) } := by
  obtain ⟨hbz, hp, hck, hr, hw, hd⟩ := quiet_iff.1 hq
  have hn := n_le hc
  have hlt : addr.toNat < s.cfg.n := by omega
  rw [exec_idle hbz, accept_begun (i := .read addr) hi trivial (checksOf_none.2 ⟨h, h'⟩), andThen_next, finish_single (by rfl) (by simp [begun, readEvents, setDirection, dataLines]) (by rfl)]
  rw [show (begun s (.read addr)).phase = readEvents addr.toNat from rfl,
    performAll_read _ _ (by omega) (by exact hck) (by exact hr) (by exact hb), andThen_next]
  rw [show addr.toNat % (begun s (.read addr)).cfg.n = addr.toNat from Nat.mod_eq_of_lt hlt]
  obtain ⟨cfg, ser, srclk, rclk, weN, dout, dir, rdata, busy, err, inited, phase⟩ := s
  simp only at hbz hp
  subst hbz hp
  rfl

/-- WRITE, accepted, of an idle device (R160, R163, R164). -/
theorem exec_write {s : State} {addr byte : Int} (hi : s.inited = true) (hq : s.quiet = true) (hc : s.cfg.wf = true)
    (hb : s.wbusy = false) (h : 0 ≤ addr) (h' : addr < s.cfg.n) (hv : 0 ≤ byte) (hv' : byte ≤ 255) :
    exec (.write addr byte) s = .next
      { s with
        op := .write, oaddr := addr, oarg := byte, outq := [], rspValid := true, rspItems := [], err := .ok
        sr := addressWord addr.toNat false, q := addressWord addr.toNat false
        ser := (addressWord addr.toNat false).getLsbD 0, dir := BitVec.allOnes 8, dout := byteOf byte
        mem := Memory.write s.mem addr.toNat (byteOf byte)
        trace := (writeEvents addr.toNat (byteOf byte)).map (PinEvent.recordWith 0) } := by
  obtain ⟨hbz, hp, hck, hr, hw, hd⟩ := quiet_iff.1 hq
  have hn := n_le hc
  have hlt : addr.toNat < s.cfg.n := by omega
  rw [exec_idle hbz, accept_begun (i := .write addr byte) hi trivial (checksOf_none.2 ⟨⟨h, h'⟩, hv, hv'⟩), andThen_next, finish_single (by rfl) (by simp [begun, writeEvents, setDirection, dataLines]) (by rfl)]
  rw [show (begun s (.write addr byte)).phase = writeEvents addr.toNat (byteOf byte) from rfl,
    performAll_write _ _ _ (by omega) (by exact hck) (by exact hr) (by exact hw) (by exact hb), andThen_next]
  rw [show addr.toNat % (begun s (.write addr byte)).cfg.n = addr.toNat from Nat.mod_eq_of_lt hlt]
  obtain ⟨cfg, ser, srclk, rclk, weN, dout, dir, rdata, busy, err, inited, phase⟩ := s
  simp only at hbz hp
  subst hbz hp
  rfl

end Sys2Proof.Machine
end

