-- ==== Sys2Proof/Laws/Bulk.lean ====
section
/-! SUPPORT. The bulk operations transaction by transaction (43_bulk_operations.md R170 to R177), and the reads of a device that is
still busy (20_memory.md R60, R65). -/

namespace Sys2Proof.Machine

/-! ### Reading a busy device -/

/-- The byte whose bit i is the free level of line Di in draw `n + i`. -/
def freeByte (n : Nat) : Byte :=
  setBit (setBit (setBit (setBit (setBit (setBit (setBit (setBit (0 : Byte) 0 (Config.freeLevel n 0)) 1
    (Config.freeLevel (n + 1) 1)) 2 (Config.freeLevel (n + 2) 2)) 3 (Config.freeLevel (n + 3) 3)) 4
    (Config.freeLevel (n + 4) 4)) 5 (Config.freeLevel (n + 5) 5)) 6 (Config.freeLevel (n + 6) 6)) 7 (Config.freeLevel (n + 7) 7)

theorem getLsbD_freeByte (n : Nat) (i : Fin 8) : (freeByte n).getLsbD i = Config.freeLevel (n + i) i := by
  obtain ⟨i, hi⟩ := i
  interval_cases i <;> simp only [freeByte, getLsbD_setBit] <;> norm_num <;> rfl

/-- A sample of a line that no one drives (R60, R122): a free level, used once. -/
theorem pinRead_free {s : State} {i : Fin 8} (hd : s.dir.getLsbD i = false) (hl : s.line i = none) :
    pinRead i s = .next { s with samples := setBit s.samples i (Config.freeLevel s.draws i), draws := s.draws + 1 } := by
  simp only [pinRead, hd, State.afterDraw, State.dbus, hl, Option.getD_none, if_false, Bool.false_eq_true]

theorem line_busy {s : State} (hd : s.dir = 0) (hb : s.wbusy = true) (i : Fin 8) : s.line i = none := by
  cases h : s.oeN <;> simp [State.line, hd, hb, h]

theorem perform_rd_free {s : State} {i : Fin 8} (hd : s.dir = 0) (hb : s.wbusy = true) :
    perform (.rd i) s = .next { s with
      samples := setBit s.samples i (Config.freeLevel s.draws i), draws := s.draws + 1
      trace := s.trace ++ [.rd i (Config.freeLevel s.draws i)] } := by
  have hl := line_busy hd hb i
  have hdb : s.dbus i = Config.freeLevel s.draws i := by rw [State.dbus, hl, Option.getD_none]
  rw [perform, PinEvent.record, hdb]
  exact pinRead_free (s := { s with trace := s.trace ++ [.rd i (Config.freeLevel s.draws i)] })
    (by show s.dir.getLsbD i = false; rw [hd]; simp) hl

theorem performAll_samples_free (s : State) (hd : s.dir = 0) (hb : s.wbusy = true) :
    performAll (dataLines.map fun i => .rd i) s =
      .next { s with
        samples := freeByte s.draws, draws := s.draws + 8
        trace := s.trace ++ (dataLines.map fun i => .rd i).map (PinEvent.recordWith (freeByte s.draws)) } := by
  have key := setBits_byte s.samples (freeByte s.draws)
  have hbit : ∀ i : Fin 8, (freeByte s.draws).getLsbD i = Config.freeLevel (s.draws + i) i := getLsbD_freeByte s.draws
  simp only [dataLines, List.map_cons, List.map_nil, performAll]
  rw [perform_rd_free hd hb, andThen_next]
  iterate 7 rw [perform_rd_free (by exact hd) (by exact hb), andThen_next]
  simp only [PinEvent.recordWith, List.append_assoc, List.cons_append, List.nil_append, hbit]
  rw [← key]
  simp only [show (freeByte s.draws).getLsbD 0 = Config.freeLevel s.draws 0 from hbit 0,
    show (freeByte s.draws).getLsbD 1 = Config.freeLevel (s.draws + 1) 1 from hbit 1,
    show (freeByte s.draws).getLsbD 2 = Config.freeLevel (s.draws + 2) 2 from hbit 2,
    show (freeByte s.draws).getLsbD 3 = Config.freeLevel (s.draws + 3) 3 from hbit 3,
    show (freeByte s.draws).getLsbD 4 = Config.freeLevel (s.draws + 4) 4 from hbit 4,
    show (freeByte s.draws).getLsbD 5 = Config.freeLevel (s.draws + 5) 5 from hbit 5,
    show (freeByte s.draws).getLsbD 6 = Config.freeLevel (s.draws + 6) 6 from hbit 6,
    show (freeByte s.draws).getLsbD 7 = Config.freeLevel (s.draws + 7) 7 from hbit 7]
  rfl

/-- The byte that a READ of cell `c` samples (R60, R153). -/
def sampleOf (s : State) (c : Nat) : Byte := if s.wbusy then freeByte s.draws else Memory.read s.mem c

/-- The draws used once that byte is sampled (log 6). -/
def drawsAfter (s : State) : Nat := if s.wbusy then s.draws + 8 else s.draws

/-- The 66 events of `Read`, whatever the device is doing (R151, R154). -/
theorem performAll_read_any (a : Nat) (s : State) (ha : a ≤ 32767) (h : s.srclk = LOW) (h' : s.rclk = LOW) :
    performAll (readEvents a) s =
      .next { s with
        dir := 0
        sr := addressWord a true
        q := addressWord a true
        ser := (addressWord a true).getLsbD 0
        samples := sampleOf s (a % s.cfg.n)
        draws := drawsAfter s
        trace := s.trace ++ (readEvents a).map (PinEvent.recordWith (sampleOf s (a % s.cfg.n))) } := by
  cases hb : s.wbusy with
  | false =>
    rw [performAll_read a s ha h h' hb]
    simp only [sampleOf, drawsAfter, hb, Bool.false_eq_true, if_false]
  | true =>
    have hs : sampleOf s (a % s.cfg.n) = freeByte s.draws := by simp only [sampleOf, hb, if_true]
    have hdr : drawsAfter s = s.draws + 8 := by simp only [drawsAfter, hb, if_true]
    unfold readEvents
    rw [performAll_append, performAll_append, performAll_setDirection, andThen_next,
      performAll_setAddress _ _ _ (by exact h) (by exact h'), andThen_next,
      performAll_samples_free _ (by rfl) (by exact hb),
      record_setDirection (freeByte s.draws), record_setAddress (freeByte s.draws), hs, hdr]
    simp only [if_false, Bool.false_eq_true, List.map_append, List.append_assoc, hb]

/-! ### One transaction of a bulk write -/

/-- The byte that the current transaction of a bulk write stores (R170, R174). -/
def bulkByte (u : State) : Byte := if u.op = .writebytes then byteOf (u.pb.getD u.idx 0) else fill

/-- What one transaction of a bulk write leaves (R171). -/
def writtenOnce (u : State) : State :=
  { u with
    dir := BitVec.allOnes 8, dout := bulkByte u
    sr := addressWord u.cur false, q := addressWord u.cur false, ser := (addressWord u.cur false).getLsbD 0
    mem := Memory.write u.mem u.cur (bulkByte u)
    trace := u.trace ++ (writeEvents u.cur (bulkByte u)).map (PinEvent.recordWith 0)
    idx := u.idx + 1, cur := u.cur + 1 }

/-- What `k` of them leave. -/
def writeRun (u : State) : Nat → State
  | 0 => u
  | k + 1 => writtenOnce (writeRun u k)

/-- A bulk operation between two transactions, with the device idle. -/
structure Between (u : State) : Prop where
  busy : u.busy = true
  phase : u.phase = []
  srclk : u.srclk = LOW
  rclk : u.rclk = LOW
  weN : u.weN = HIGH

theorem ticks_write_transaction {u : State} (h : Between u) (hb : u.wbusy = false)
    (hop : u.op = .writebytes ∨ u.op = .erasebytes) (hidx : u.idx < u.oarg.toNat) (hcur : u.cur ≤ 32767)
    (hn : u.cur < u.cfg.n) :
    ticks 70 (bulkNext u) = .next (bulkNext (writtenOnce u)) := by
  have hph : bulkEvents u = writeEvents u.cur (bulkByte u) := by
    rcases hop with hop | hop <;> simp [bulkEvents, bulkByte, hop]
  have ho : (emitRowBase u).outq = u.outq := by
    unfold emitRowBase; rcases hop with hop | hop <;> simp [hop]
  have he : bulkNext u = { u with phase := writeEvents u.cur (bulkByte u) } := by
    rw [bulkNext_more hidx, hph, ho]
  have hne : writeEvents u.cur (bulkByte u) ≠ [] := by simp [writeEvents, setDirection, dataLines]
  rw [he, show (70 : Nat) = (writeEvents u.cur (bulkByte u)).length from rfl, ticks_events hne rfl,
    performAll_write _ _ _ hcur (by exact h.srclk) (by exact h.rclk) (by exact h.weN) (by exact hb), andThen_next]
  have hend : ∀ v : State, v.op = u.op → endTransaction v = bulkNext (advance v) := by
    intro v hv
    rcases hop with hop | hop <;> simp only [endTransaction, hv, hop]
  rw [hend _ (by rfl), Nat.mod_eq_of_lt (by exact hn)]
  obtain ⟨cfg, ser, srclk, rclk, weN, dout, dir, rdata, busy, err, inited, phase⟩ := u
  have := h.phase
  simp only at this
  subst this
  rfl

theorem writtenOnce_between {u : State} (h : Between u) : Between (writtenOnce u) :=
  ⟨h.busy, h.phase, h.srclk, h.rclk, h.weN⟩

/-- What a bulk write never changes. -/
theorem writeRun_frame (u : State) (k : Nat) :
    writeRun u k = { u with
      dir := (writeRun u k).dir, dout := (writeRun u k).dout, sr := (writeRun u k).sr, q := (writeRun u k).q
      ser := (writeRun u k).ser, mem := (writeRun u k).mem, trace := (writeRun u k).trace
      idx := u.idx + k, cur := u.cur + k } := by
  induction k with
  | zero => rfl
  | succ k ih =>
    rw [writeRun]
    generalize hv : writeRun u k = v at ih
    have h1 : v.idx = u.idx + k := by rw [ih]
    have h2 : v.cur = u.cur + k := by rw [ih]
    rw [writtenOnce, h1, h2]
    rw [ih]
    rfl

theorem writeRun_between {u : State} (h : Between u) (k : Nat) : Between (writeRun u k) := by
  induction k with
  | zero => exact h
  | succ k ih => exact writtenOnce_between ih

theorem ticks_writeRun {u : State} (h : Between u) (hb : u.wbusy = false) (hop : u.op = .writebytes ∨ u.op = .erasebytes)
    {k : Nat} (hidx : u.idx + k ≤ u.oarg.toNat) (hcur : u.cur + k ≤ 32768) (hn : u.cur + k ≤ u.cfg.n) :
    ticks (70 * k) (bulkNext u) = .next (bulkNext (writeRun u k)) := by
  induction k with
  | zero => rfl
  | succ k ih =>
    rw [Nat.mul_succ, ticks_add, ih (by omega) (by omega) (by omega), andThen_next, writeRun]
    have hf := writeRun_frame u k
    apply ticks_write_transaction (writeRun_between h k)
    · rw [hf]; exact hb
    · rw [hf]; exact hop
    · rw [hf]; show u.idx + k < u.oarg.toNat; omega
    · rw [hf]; show u.cur + k ≤ 32767; omega
    · rw [hf]; show u.cur + k < u.cfg.n; omega

theorem eventsLeft_bulkNext {u : State} (hb : u.busy = true)
    (hop : u.op = .writebytes ∨ u.op = .erasebytes ∨ u.op = .dumprange) :
    (bulkNext u).eventsLeft = u.op.events * (u.oarg.toNat - u.idx) := by
  by_cases h : u.idx < u.oarg.toNat
  · obtain ⟨k, hk⟩ : ∃ k, u.oarg.toNat - u.idx = k + 1 := ⟨u.oarg.toNat - u.idx - 1, by omega⟩
    have h1 : (bulkNext u).busy = true := by rw [bulkNext_more h]; exact hb
    have h2 : (bulkNext u).phase.length = u.op.events := by rw [bulkNext_more h]; exact length_bulkEvents hop
    have h3 : (bulkNext u).transactionsAfter = k := by
      rw [bulkNext_more h]
      rcases hop with hop | hop | hop <;> simp only [State.transactionsAfter, hop] <;> omega
    have h4 : (bulkNext u).op = u.op := by rw [bulkNext_more h]
    simp only [State.eventsLeft, h1, if_true, h2, h3, h4, hk]
    ring
  · have : (bulkNext u).eventsLeft = 0 := eventsLeft_idle (by rw [bulkNext_done h]; rfl)
    rw [this, Nat.sub_eq_zero_of_le (by omega), Nat.mul_zero]

theorem finish_writeRun {u : State} (h : Between u) (hb : u.wbusy = false) (hop : u.op = .writebytes ∨ u.op = .erasebytes)
    {k : Nat} (hidx : u.idx + k = u.oarg.toNat) (hcur : u.cur + k ≤ 32768) (hn : u.cur + k ≤ u.cfg.n) :
    finish (bulkNext u) = .next (complete (writeRun u k)) := by
  have he : u.op.events = 70 := by rcases hop with hop | hop <;> rw [hop] <;> rfl
  rw [finish, eventsLeft_bulkNext h.busy (by rcases hop with hop | hop <;> simp [hop]), he,
    show u.oarg.toNat - u.idx = k by omega, ticks_writeRun h hb hop (by omega) hcur hn, bulkNext_done]
  rw [writeRun_frame]
  show ¬ u.idx + k < u.oarg.toNat
  omega

/-- A bulk write whose device is still busy is refused at its first strobe (R64). -/
theorem performAll_write_busy (a : Nat) (b : Byte) (s : State) (h : s.srclk = LOW) (h' : s.rclk = LOW) (hw : s.weN = HIGH)
    (hb : s.wbusy = true) : performAll (writeEvents a b) s = .refused .strobeOutsideWrite := by
  unfold writeEvents
  rw [performAll_append, performAll_append, performAll_append, performAll_setDirection, andThen_next,
    performAll_setAddress _ _ _ (by exact h) (by exact h'), andThen_next, performAll_driveByte _ _ (by rfl), andThen_next]
  simp [strobe, performAll, perform, pinEffect, pinWrite, react, State.strobeAllowed, hw, hb, andThen]

/-! ### One transaction of DUMPRANGE -/

/-- What one transaction of DUMPRANGE leaves (R176, R177). -/
def readOnce (u : State) : State :=
  { u with
    dir := 0
    sr := addressWord u.cur true, q := addressWord u.cur true, ser := (addressWord u.cur true).getLsbD 0
    samples := sampleOf u u.cur, rdata := sampleOf u u.cur, draws := drawsAfter u
    outq := (emitRowBase u).outq ++ [.byte (sampleOf u u.cur)]
    trace := u.trace ++ (readEvents u.cur).map (PinEvent.recordWith (sampleOf u u.cur))
    idx := u.idx + 1, cur := u.cur + 1 }

/-- What `k` of them leave. -/
def readRun (u : State) : Nat → State
  | 0 => u
  | k + 1 => readOnce (readRun u k)

theorem ticks_read_transaction {u : State} (h : Between u) (hop : u.op = .dumprange) (hidx : u.idx < u.oarg.toNat)
    (hcur : u.cur ≤ 32767) (hn : u.cur < u.cfg.n) :
    ticks 66 (bulkNext u) = .next (bulkNext (readOnce u)) := by
  have hph : bulkEvents u = readEvents u.cur := by simp only [bulkEvents, hop]
  have hne : readEvents u.cur ≠ [] := by simp [readEvents, setDirection, dataLines]
  rw [bulkNext_more hidx, hph, show (66 : Nat) = (readEvents u.cur).length from rfl, ticks_events hne rfl,
    performAll_read_any _ _ hcur (by exact h.srclk) (by exact h.rclk), andThen_next]
  have hend : ∀ v : State, v.op = u.op → endTransaction v = bulkNext (advance (emitByte (assemble v))) := by
    intro v hv
    simp only [endTransaction, hv, hop]
  rw [hend _ (by rfl), Nat.mod_eq_of_lt (by exact hn)]
  obtain ⟨cfg, ser, srclk, rclk, weN, dout, dir, rdata, busy, err, inited, phase⟩ := u
  have := h.phase
  simp only at this
  subst this
  rfl

/-- What DUMPRANGE never changes. -/
theorem readRun_frame (u : State) (k : Nat) :
    readRun u k = { u with
      dir := (readRun u k).dir, sr := (readRun u k).sr, q := (readRun u k).q, ser := (readRun u k).ser
      samples := (readRun u k).samples, rdata := (readRun u k).rdata, draws := (readRun u k).draws
      outq := (readRun u k).outq, trace := (readRun u k).trace, idx := u.idx + k, cur := u.cur + k } := by
  induction k with
  | zero => rfl
  | succ k ih =>
    rw [readRun]
    generalize hv : readRun u k = v at ih
    have h1 : v.idx = u.idx + k := by rw [ih]
    have h2 : v.cur = u.cur + k := by rw [ih]
    rw [readOnce, h1, h2]
    rw [ih]
    rfl

theorem readRun_between {u : State} (h : Between u) (k : Nat) : Between (readRun u k) := by
  rw [readRun_frame]
  exact ⟨h.busy, h.phase, h.srclk, h.rclk, h.weN⟩

theorem ticks_readRun {u : State} (h : Between u) (hop : u.op = .dumprange) {k : Nat} (hidx : u.idx + k ≤ u.oarg.toNat)
    (hcur : u.cur + k ≤ 32768) (hn : u.cur + k ≤ u.cfg.n) :
    ticks (66 * k) (bulkNext u) = .next (bulkNext (readRun u k)) := by
  induction k with
  | zero => rfl
  | succ k ih =>
    rw [Nat.mul_succ, ticks_add, ih (by omega) (by omega) (by omega), andThen_next, readRun]
    have hf := readRun_frame u k
    apply ticks_read_transaction (readRun_between h k)
    · rw [hf]; exact hop
    · rw [hf]; show u.idx + k < u.oarg.toNat; omega
    · rw [hf]; show u.cur + k ≤ 32767; omega
    · rw [hf]; show u.cur + k < u.cfg.n; omega

theorem finish_readRun {u : State} (h : Between u) (hop : u.op = .dumprange) {k : Nat} (hidx : u.idx + k = u.oarg.toNat)
    (hcur : u.cur + k ≤ 32768) (hn : u.cur + k ≤ u.cfg.n) :
    finish (bulkNext u) = .next (complete (readRun u k)) := by
  rw [finish, eventsLeft_bulkNext h.busy (by simp [hop]), hop, show Op.dumprange.events = 66 from rfl,
    show u.oarg.toNat - u.idx = k by omega, ticks_readRun h hop (by omega) hcur hn, bulkNext_done]
  rw [readRun_frame]
  show ¬ u.idx + k < u.oarg.toNat
  omega

/-! ### The bulk operations as a whole -/

/-- A bulk operation before its first transaction. -/
def bulkStart (op : Op) (start arg : Int) (pb : List Int) (s : State) : State :=
  { capture op start s with oarg := arg, pb := pb, idx := 0, cur := start.toNat }

theorem bulkStart_between {op : Op} {start arg : Int} {pb : List Int} {s : State} (hq : s.quiet = true) :
    Between (bulkStart op start arg pb s) := by
  obtain ⟨_, hp, hck, hr, hw, _⟩ := quiet_iff.1 hq
  exact ⟨rfl, hp, hck, hr, hw⟩

theorem begun_bulk (s : State) (start arg : Int) :
    begun s (.writebytes start arg) = bulkNext (bulkStart .writebytes start arg (payloadOf s.pbuf arg) s) ∧
    begun s (.erasebytes start arg) = bulkNext (bulkStart .erasebytes start arg s.pb s) ∧
    begun s (.dumprange start arg) = bulkNext (bulkStart .dumprange start arg s.pb s) := ⟨rfl, rfl, rfl⟩

theorem exec_writebytes {s : State} {start len : Int} (hi : s.inited = true) (hq : s.quiet = true) (hc : s.cfg.wf = true)
    (hb : s.wbusy = false) (h : checksOf s (.writebytes start len) = none) :
    exec (.writebytes start len) s =
      .next (complete (writeRun (bulkStart .writebytes start len (payloadOf s.pbuf len) s) len.toNat)) := by
  have hp := checksOf_none.1 h
  obtain ⟨⟨h1, h2⟩, ⟨h3, h4⟩, _⟩ := hp
  have hn := n_le hc
  rw [exec_idle (quiet_iff.1 hq).1, accept_begun (i := .writebytes start len) hi trivial h, andThen_next, (begun_bulk s start len).1]
  apply finish_writeRun (bulkStart_between hq) (by exact hb) (.inl rfl)
  · simp only [bulkStart, Nat.zero_add]
  · show start.toNat + len.toNat ≤ 32768; omega
  · show start.toNat + len.toNat ≤ s.cfg.n; omega

theorem exec_erasebytes {s : State} {start count : Int} (hi : s.inited = true) (hq : s.quiet = true) (hc : s.cfg.wf = true)
    (hb : s.wbusy = false) (h : checksOf s (.erasebytes start count) = none) :
    exec (.erasebytes start count) s =
      .next (complete (writeRun (bulkStart .erasebytes start count s.pb s) count.toNat)) := by
  have hp := checksOf_none.1 h
  obtain ⟨⟨h1, h2⟩, h3, h4⟩ := hp
  have hn := n_le hc
  rw [exec_idle (quiet_iff.1 hq).1, accept_begun (i := .erasebytes start count) hi trivial h, andThen_next, (begun_bulk s start count).2.1]
  apply finish_writeRun (bulkStart_between hq) (by exact hb) (.inr rfl)
  · simp only [bulkStart, Nat.zero_add]
  · show start.toNat + count.toNat ≤ 32768; omega
  · show start.toNat + count.toNat ≤ s.cfg.n; omega

theorem exec_dumprange {s : State} {start count : Int} (hi : s.inited = true) (hq : s.quiet = true) (hc : s.cfg.wf = true)
    (h : checksOf s (.dumprange start count) = none) :
    exec (.dumprange start count) s =
      .next (complete (readRun (bulkStart .dumprange start count s.pb s) count.toNat)) := by
  have hp := checksOf_none.1 h
  obtain ⟨⟨h1, h2⟩, h3, h4⟩ := hp
  have hn := n_le hc
  rw [exec_idle (quiet_iff.1 hq).1, accept_begun (i := .dumprange start count) hi trivial h, andThen_next, (begun_bulk s start count).2.2]
  apply finish_readRun (bulkStart_between hq) rfl
  · simp only [bulkStart, Nat.zero_add]
  · show start.toNat + count.toNat ≤ 32768; omega
  · show start.toNat + count.toNat ≤ s.cfg.n; omega

end Sys2Proof.Machine
end

