-- ==== Sys2Proof/Laws/Memory.lean ====
section
/-! SUPPORT. The laws of the sparse stores: a read after a write, and that a write keeps the canonical form and the range. -/

namespace Sys2Proof.Machine

variable {w : Nat} {d : BitVec w}

theorem sparseWf_cons {a : Nat} {v : BitVec w} {m : List (Nat × BitVec w)} :
    sparseWf d ((a, v) :: m) = true ↔ v ≠ d ∧ (∀ e ∈ m, a < e.1) ∧ sparseWf d m = true := by
  simp [sparseWf, and_assoc]

/-- Below every key, a store reads as unlisted. -/
theorem sparseRead_below {m : List (Nat × BitVec w)} {a : Nat} (h : ∀ e ∈ m, a < e.1) : sparseRead d m a = d := by
  induction m with
  | nil => rfl
  | cons e m ih =>
    obtain ⟨b, v⟩ := e
    have hb : a < b := h (b, v) (by simp)
    simp only [sparseRead, if_neg (Nat.ne_of_lt hb)]
    exact ih fun e he => h e (by simp [he])

theorem sparseRead_write {m : List (Nat × BitVec w)} (hm : sparseWf d m = true) (a : Nat) (v : BitVec w) (c : Nat) :
    sparseRead d (sparseWrite d m a v) c = if c = a then v else sparseRead d m c := by
  induction m with
  | nil =>
    by_cases hv : v = d <;> by_cases hc : c = a <;> simp [sparseWrite, sparseRead, hv, hc]
  | cons e m ih =>
    obtain ⟨b, u⟩ := e
    obtain ⟨hu, hb, hm'⟩ := sparseWf_cons.1 hm
    have below : ∀ {x : Nat}, x ≤ b → sparseRead d m x = d := fun hx =>
      sparseRead_below fun e he => Nat.lt_of_le_of_lt hx (hb e he)
    rcases Nat.lt_trichotomy a b with hab | hab | hab
    · by_cases hc : c = a
      · subst hc
        have hne : c ≠ b := by omega
        by_cases hv : v = d <;> simp [sparseWrite, sparseRead, hab, hv, hne, below (Nat.le_of_lt hab)]
      · by_cases hv : v = d <;> simp [sparseWrite, sparseRead, hab, hv, hc]
    · subst hab
      by_cases hc : c = a
      · subst hc
        by_cases hv : v = d <;> simp [sparseWrite, sparseRead, hv, below (Nat.le_refl c)]
      · by_cases hv : v = d <;> simp [sparseWrite, sparseRead, hv, hc]
    · have h1 : ¬ a < b := by omega
      have h2 : a ≠ b := by omega
      by_cases hc : c = b
      · subst hc
        simp [sparseWrite, sparseRead, h1, h2, h2.symm]
      · simp [sparseWrite, sparseRead, h1, h2, hc, ih hm']

/-- A key of a written store is a key of the store or the key written. -/
theorem mem_sparseWrite {m : List (Nat × BitVec w)} {a : Nat} {v : BitVec w} {e : Nat × BitVec w}
    (h : e ∈ sparseWrite d m a v) : e ∈ m ∨ e = (a, v) ∧ v ≠ d := by
  induction m with
  | nil =>
    by_cases hv : v = d
    · simp [sparseWrite, hv] at h
    · simpa [sparseWrite, hv] using h
  | cons f m ih =>
    obtain ⟨b, u⟩ := f
    unfold sparseWrite at h
    split at h
    · split at h
      · exact .inl h
      · rename_i hv
        rcases List.mem_cons.1 h with h | h
        · exact .inr ⟨h, hv⟩
        · exact .inl h
    · split at h
      · split at h
        · exact .inl (List.mem_cons_of_mem _ h)
        · rename_i hv
          rcases List.mem_cons.1 h with h | h
          · exact .inr ⟨h, hv⟩
          · exact .inl (List.mem_cons_of_mem _ h)
      · rcases List.mem_cons.1 h with h | h
        · exact .inl (h ▸ List.mem_cons_self ..)
        · rcases ih h with h | h
          · exact .inl (List.mem_cons_of_mem _ h)
          · exact .inr h

theorem sparseWrite_wf {m : List (Nat × BitVec w)} (hm : sparseWf d m = true) (a : Nat) (v : BitVec w) :
    sparseWf d (sparseWrite d m a v) = true := by
  induction m with
  | nil => by_cases hv : v = d <;> simp [sparseWrite, sparseWf, hv]
  | cons e m ih =>
    obtain ⟨b, u⟩ := e
    obtain ⟨hu, hb, hm'⟩ := sparseWf_cons.1 hm
    unfold sparseWrite
    split
    · rename_i hab
      split
      · exact hm
      · rename_i hv
        refine sparseWf_cons.2 ⟨hv, ?_, hm⟩
        intro e he
        rcases List.mem_cons.1 he with he | he
        · rw [he]; exact hab
        · exact Nat.lt_trans hab (hb e he)
    · split
      · rename_i hab
        split
        · exact hm'
        · rename_i hv
          exact sparseWf_cons.2 ⟨hv, by rw [hab]; exact hb, hm'⟩
      · rename_i hab hne
        refine sparseWf_cons.2 ⟨hu, ?_, ih hm'⟩
        intro e he
        rcases mem_sparseWrite he with he | ⟨he, _⟩
        · exact hb e he
        · rw [he]; simp only []; omega

/-- Two canonical stores that read alike everywhere are equal. -/
theorem sparse_ext {m m' : List (Nat × BitVec w)} (hm : sparseWf d m = true) (hm' : sparseWf d m' = true)
    (h : ∀ a, sparseRead d m a = sparseRead d m' a) : m = m' := by
  induction m generalizing m' with
  | nil =>
    cases m' with
    | nil => rfl
    | cons e m' =>
      obtain ⟨b, u⟩ := e
      have := h b
      simp [sparseRead] at this
      exact absurd this.symm (sparseWf_cons.1 hm').1
  | cons e m ih =>
    obtain ⟨a, v⟩ := e
    obtain ⟨hv, ha, hm1⟩ := sparseWf_cons.1 hm
    cases m' with
    | nil =>
      have := h a
      simp [sparseRead] at this
      exact absurd this hv
    | cons e' m' =>
      obtain ⟨b, u⟩ := e'
      obtain ⟨hu, hb, hm2⟩ := sparseWf_cons.1 hm'
      have hab : a = b := by
        rcases Nat.lt_trichotomy a b with hab | hab | hab
        · have := h a
          rw [sparseRead_below (m := (b, u) :: m') (fun e he => by
            rcases List.mem_cons.1 he with he | he
            · rw [he]; exact hab
            · exact Nat.lt_trans hab (hb e he))] at this
          simp [sparseRead] at this
          exact absurd this hv
        · exact hab
        · have := h b
          rw [sparseRead_below (m := (a, v) :: m) (fun e he => by
            rcases List.mem_cons.1 he with he | he
            · rw [he]; exact hab
            · exact Nat.lt_trans hab (ha e he))] at this
          simp [sparseRead] at this
          exact absurd this.symm hu
      subst hab
      have hvu : v = u := by simpa [sparseRead] using h a
      subst hvu
      congr 1
      refine ih hm1 hm2 fun c => ?_
      by_cases hc : c = a
      · subst hc
        rw [sparseRead_below ha, sparseRead_below hb]
      · simpa [sparseRead, hc] using h c

theorem Memory.read_write {m : Memory} (hm : Memory.wf m = true) (a : Nat) (v : Byte) (c : Nat) :
    Memory.read (Memory.write m a v) c = if c = a then v else Memory.read m c := sparseRead_write hm a v c

theorem Memory.write_wf {m : Memory} (hm : Memory.wf m = true) (a : Nat) (v : Byte) : Memory.wf (Memory.write m a v) = true := sparseWrite_wf hm a v

theorem Memory.ext {m m' : Memory} (hm : Memory.wf m = true) (hm' : Memory.wf m' = true) (h : ∀ a, Memory.read m a = Memory.read m' a) : m = m' :=
  sparse_ext hm hm' h

theorem Memory.write_within {m : Memory} {n : Nat} (hm : Memory.within m n = true) {a : Nat} (ha : a < n) (v : Byte) :
    Memory.within (Memory.write m a v) n = true := by
  simp only [Memory.within, List.all_eq_true, decide_eq_true_eq] at *
  intro e he
  rcases mem_sparseWrite he with he | ⟨he, _⟩
  · exact hm e he
  · rw [he]; exact ha

theorem PayloadBuffer.read_write {m : PayloadBuffer} (hm : PayloadBuffer.wf m = true) (a : Nat) (v : BitVec 32) (c : Nat) :
    PayloadBuffer.read (PayloadBuffer.write m a v) c = if c = a then v else PayloadBuffer.read m c := sparseRead_write hm a v c

theorem PayloadBuffer.write_wf {m : PayloadBuffer} (hm : PayloadBuffer.wf m = true) (a : Nat) (v : BitVec 32) : PayloadBuffer.wf (PayloadBuffer.write m a v) = true :=
  sparseWrite_wf hm a v

theorem PayloadBuffer.write_within {m : PayloadBuffer} {n : Nat} (hm : PayloadBuffer.within m n = true) {a : Nat} (ha : a < n) (v : BitVec 32) :
    PayloadBuffer.within (PayloadBuffer.write m a v) n = true := by
  simp only [PayloadBuffer.within, List.all_eq_true, decide_eq_true_eq] at *
  intro e he
  rcases mem_sparseWrite he with he | ⟨he, _⟩
  · exact hm e he
  · rw [he]; exact ha

theorem State.cell_lt (s : State) : s.cell < s.cfg.n := by
  unfold State.cell Config.n
  exact Nat.mod_lt _ (Nat.two_pow_pos _)

end Sys2Proof.Machine
end

