-- ==== Sys2Proof/Laws/BulkForms.lean ====
section
/-! SUPPORT. The bulk operations in closed form: the array, the trace, the items and the rest after k transactions
(43_bulk_operations.md R171, R172, R176, R177, R178), and a bulk write to a busy device (20_memory.md R64). -/

namespace Sys2Proof.Machine

/-- The byte that the `i`-th transaction from here stores (R170, R174). -/
def byteAt (u : State) (i : Nat) : Byte := if u.op = .writebytes then byteOf (u.pb.getD (u.idx + i) 0) else fill

theorem bulkByte_writeRun (u : State) (k : Nat) : bulkByte (writeRun u k) = byteAt u k := by
  rw [writeRun_frame]; rfl

theorem writeRun_wf {u : State} (h : Memory.wf u.mem = true) (k : Nat) : Memory.wf (writeRun u k).mem = true := by
  induction k with
  | zero => exact h
  | succ k ih => exact Memory.write_wf ih _ _

/-- The array after `k` transactions of a bulk write (R172). -/
theorem writeRun_mem {u : State} (h : Memory.wf u.mem = true) (k c : Nat) :
    Memory.read (writeRun u k).mem c = if u.cur ≤ c ∧ c < u.cur + k then byteAt u (c - u.cur) else Memory.read u.mem c := by
  induction k with
  | zero => rw [if_neg (by omega)]; rfl
  | succ k ih =>
    have hc : (writeRun u k).cur = u.cur + k := by rw [writeRun_frame]
    rw [writeRun, writtenOnce]
    simp only []
    rw [Memory.read_write (writeRun_wf h k), bulkByte_writeRun, hc, ih]
    by_cases h1 : c = u.cur + k
    · subst h1
      rw [if_pos rfl, if_pos (by omega), show u.cur + k - u.cur = k by omega]
    · rw [if_neg h1]
      by_cases h2 : u.cur ≤ c ∧ c < u.cur + k
      · rw [if_pos h2, if_pos (by omega)]
      · rw [if_neg h2, if_neg (by omega)]

/-- Its trace (R171). -/
theorem writeRun_trace (u : State) (k : Nat) :
    (writeRun u k).trace = u.trace ++
      (List.range k).flatMap fun i => (writeEvents (u.cur + i) (byteAt u i)).map (PinEvent.recordWith 0) := by
  induction k with
  | zero => simp [writeRun]
  | succ k ih =>
    have hc : (writeRun u k).cur = u.cur + k := by rw [writeRun_frame]
    rw [writeRun, writtenOnce]
    simp only []
    rw [ih, bulkByte_writeRun, hc, List.range_succ, List.flatMap_append, List.append_assoc]
    simp

/-- The rest, after at least one transaction: as the last write leaves it. -/
theorem writeRun_succ (u : State) (k : Nat) :
    writeRun u (k + 1) = { u with
      dir := BitVec.allOnes 8, dout := byteAt u k
      sr := addressWord (u.cur + k) false, q := addressWord (u.cur + k) false
      ser := (addressWord (u.cur + k) false).getLsbD 0
      mem := (writeRun u (k + 1)).mem, trace := (writeRun u (k + 1)).trace, idx := u.idx + (k + 1), cur := u.cur + (k + 1) } := by
  conv_lhs => rw [writeRun_frame]
  have hc : (writeRun u k).cur = u.cur + k := by rw [writeRun_frame]
  have h : writeRun u (k + 1) = writtenOnce (writeRun u k) := rfl
  have h1 : (writeRun u (k + 1)).dir = BitVec.allOnes 8 := rfl
  have h2 : (writeRun u (k + 1)).dout = byteAt u k := bulkByte_writeRun u k
  have h3 : (writeRun u (k + 1)).sr = addressWord (u.cur + k) false := by rw [h, writtenOnce]; simp only [hc]
  have h4 : (writeRun u (k + 1)).q = addressWord (u.cur + k) false := by rw [h, writtenOnce]; simp only [hc]
  have h5 : (writeRun u (k + 1)).ser = (addressWord (u.cur + k) false).getLsbD 0 := by rw [h, writtenOnce]; simp only [hc]
  rw [h1, h2, h3, h4, h5]

/-- What DUMPRANGE samples in its `i`-th transaction from here (R60, R176). -/
def sampleAt (u : State) (i : Nat) : Byte :=
  if u.wbusy then freeByte (u.draws + 8 * i) else Memory.read u.mem (u.cur + i)

theorem readRun_draws (u : State) (k : Nat) : (readRun u k).draws = if u.wbusy then u.draws + 8 * k else u.draws := by
  induction k with
  | zero => simp [readRun]
  | succ k ih =>
    have hw : (readRun u k).wbusy = u.wbusy := by rw [readRun_frame]
    rw [readRun, readOnce]
    simp only [drawsAfter, hw, ih]
    split <;> omega

theorem sampleOf_readRun (u : State) (k : Nat) : sampleOf (readRun u k) (readRun u k).cur = sampleAt u k := by
  have hw : (readRun u k).wbusy = u.wbusy := by rw [readRun_frame]
  have hc : (readRun u k).cur = u.cur + k := by rw [readRun_frame]
  have hm : (readRun u k).mem = u.mem := by rw [readRun_frame]
  simp only [sampleOf, sampleAt, hw, hc, hm, readRun_draws]
  split <;> simp_all

theorem readRun_trace (u : State) (k : Nat) :
    (readRun u k).trace = u.trace ++
      (List.range k).flatMap fun i => (readEvents (u.cur + i)).map (PinEvent.recordWith (sampleAt u i)) := by
  induction k with
  | zero => simp [readRun]
  | succ k ih =>
    have hc : (readRun u k).cur = u.cur + k := by rw [readRun_frame]
    have hs := sampleOf_readRun u k
    rw [hc] at hs
    rw [readRun, readOnce]
    simp only []
    rw [ih, hc, hs, List.range_succ, List.flatMap_append, List.append_assoc]
    simp

/-- The items of DUMPRANGE's `i`-th transaction (R176). -/
def itemsAt (u : State) (i : Nat) : List Item :=
  (if (u.idx + i) % row = 0 then [.rowBase (u.cur + i)] else []) ++ [.byte (sampleAt u i)]

theorem readRun_outq {u : State} (hop : u.op = .dumprange) (k : Nat) :
    (readRun u k).outq = u.outq ++ (List.range k).flatMap (itemsAt u) := by
  induction k with
  | zero => simp [readRun]
  | succ k ih =>
    have hc : (readRun u k).cur = u.cur + k := by rw [readRun_frame]
    have hi : (readRun u k).idx = u.idx + k := by rw [readRun_frame]
    have ho : (readRun u k).op = .dumprange := by rw [readRun_frame]; exact hop
    have hs := sampleOf_readRun u k
    rw [hc] at hs
    have he : (emitRowBase (readRun u k)).outq =
        (readRun u k).outq ++ (if (u.idx + k) % row = 0 then [.rowBase (u.cur + k)] else []) := by
      unfold emitRowBase
      simp only [ho, hi, true_and]
      split <;> simp [hc]
    rw [readRun, readOnce]
    simp only [he, hc, hs, ih]
    rw [List.range_succ, List.flatMap_append]
    simp [itemsAt]

theorem readRun_succ (u : State) (k : Nat) :
    readRun u (k + 1) = { u with
      dir := 0, sr := addressWord (u.cur + k) true, q := addressWord (u.cur + k) true
      ser := (addressWord (u.cur + k) true).getLsbD 0, samples := sampleAt u k, rdata := sampleAt u k
      draws := (readRun u (k + 1)).draws, outq := (readRun u (k + 1)).outq
      trace := (readRun u (k + 1)).trace, idx := u.idx + (k + 1), cur := u.cur + (k + 1) } := by
  conv_lhs => rw [readRun_frame]
  have hc : (readRun u k).cur = u.cur + k := by rw [readRun_frame]
  have hs := sampleOf_readRun u k
  have h : readRun u (k + 1) = readOnce (readRun u k) := rfl
  have h1 : (readRun u (k + 1)).dir = 0 := rfl
  have h2 : (readRun u (k + 1)).samples = sampleAt u k := hs
  have h6 : (readRun u (k + 1)).rdata = sampleAt u k := hs
  have h3 : (readRun u (k + 1)).sr = addressWord (u.cur + k) true := by rw [h, readOnce]; simp only [hc]
  have h4 : (readRun u (k + 1)).q = addressWord (u.cur + k) true := by rw [h, readOnce]; simp only [hc]
  have h5 : (readRun u (k + 1)).ser = (addressWord (u.cur + k) true).getLsbD 0 := by rw [h, readOnce]; simp only [hc]
  rw [h1, h2, h3, h4, h5, h6]

/-- Row by row and item by item are one list (R176, R178). -/
theorem report_eq (cell : Nat → Byte) (start count : Nat) :
    ((List.range count).flatMap fun i => (if i % 16 = 0 then [Item.rowBase (start + i)] else []) ++ [.byte (cell (start + i))]) =
      (List.range ((count + 15) / 16)).flatMap fun r =>
        .rowBase (start + 16 * r) :: (List.range (min 16 (count - 16 * r))).map fun j => .byte (cell (start + 16 * r + j)) := by
  induction count with
  | zero => rfl
  | succ n ih =>
    rw [List.range_succ, List.flatMap_append, ih]
    have hrow : ∀ r : Nat, 16 * (r + 1) ≤ n → min 16 (n + 1 - 16 * r) = min 16 (n - 16 * r) := by intro r hr; omega
    have same : ∀ m : Nat, 16 * m ≤ n → ((List.range m).flatMap fun r =>
          Item.rowBase (start + 16 * r) :: (List.range (min 16 (n + 1 - 16 * r))).map fun j => .byte (cell (start + 16 * r + j))) =
        (List.range m).flatMap fun r =>
          .rowBase (start + 16 * r) :: (List.range (min 16 (n - 16 * r))).map fun j => .byte (cell (start + 16 * r + j)) := by
      intro m hm
      refine List.flatMap_congr ?_
      intro r hr
      rw [hrow r (by have := List.mem_range.1 hr; omega)]
    by_cases hz : n % 16 = 0
    · have h1 : (n + 1 + 15) / 16 = n / 16 + 1 := by omega
      have h2 : (n + 15) / 16 = n / 16 := by omega
      have h3 : min 16 (n + 1 - 16 * (n / 16)) = 1 := by omega
      have h4 : start + 16 * (n / 16) = start + n := by omega
      rw [h1, h2, List.range_succ (n := n / 16), List.flatMap_append, same _ (by omega)]
      simp [hz, h3, h4]
    · have h1 : (n + 1 + 15) / 16 = n / 16 + 1 := by omega
      have h2 : (n + 15) / 16 = n / 16 + 1 := by omega
      have h3 : min 16 (n + 1 - 16 * (n / 16)) = n - 16 * (n / 16) + 1 := by omega
      have h5 : min 16 (n - 16 * (n / 16)) = n - 16 * (n / 16) := by omega
      have h4 : start + 16 * (n / 16) + (n - 16 * (n / 16)) = start + n := by omega
      rw [h1, h2, List.range_succ (n := n / 16), List.flatMap_append, List.flatMap_append, same _ (by omega)]
      simp only [List.flatMap_cons, List.flatMap_nil, List.append_nil, h3, h5, List.range_succ, List.map_append, List.map_cons,
        List.map_nil, h4, hz, if_false, List.nil_append, List.cons_append, List.append_assoc]

/-- After one transaction nothing is left of what the shift stages and the latches held (R144). -/
theorem writeRun_forgets (u : State) (x y : Word16) (k : Nat) :
    writeRun { u with sr := x, q := y } (k + 1) = writeRun u (k + 1) := by
  induction k with
  | zero => rfl
  | succ k ih => exact congrArg writtenOnce ih

theorem readRun_forgets (u : State) (x y : Word16) (k : Nat) :
    readRun { u with sr := x, q := y } (k + 1) = readRun u (k + 1) := by
  induction k with
  | zero =>
    have h : (emitRowBase { u with sr := x, q := y }).outq = (emitRowBase u).outq := by
      unfold emitRowBase
      by_cases hr : u.op = .dumprange ∧ u.idx % row = 0 <;> simp [hr]
    show readOnce { u with sr := x, q := y } = readOnce u
    rw [readOnce, h]
    rfl
  | succ k ih => exact congrArg readOnce ih

/-- A bulk write to a busy device is refused at its first strobe (R64). -/
theorem ticks_write_refused {u : State} (h : Between u) (hb : u.wbusy = true) (hop : u.op = .writebytes ∨ u.op = .erasebytes)
    (hidx : u.idx < u.oarg.toNat) : finish (bulkNext u) = .refused .strobeOutsideWrite := by
  have hph : bulkEvents u = writeEvents u.cur (bulkByte u) := by
    rcases hop with hop | hop <;> simp [bulkEvents, bulkByte, hop]
  have hne : writeEvents u.cur (bulkByte u) ≠ [] := by simp [writeEvents, setDirection, dataLines]
  have he : u.op.events = 70 := by rcases hop with hop | hop <;> rw [hop] <;> rfl
  rw [finish, eventsLeft_bulkNext h.busy (by rcases hop with hop | hop <;> simp [hop]), he,
    show 70 * (u.oarg.toNat - u.idx) = 70 + 70 * (u.oarg.toNat - u.idx - 1) by omega, ticks_add,
    show (70 : Nat) = (writeEvents u.cur (bulkByte u)).length from rfl,
    ticks_events hne (by rw [bulkNext_more hidx]; exact hph), bulkNext_more hidx,
    performAll_write_busy _ _ _ (by exact h.srclk) (by exact h.rclk) (by exact h.weN) (by exact hb)]
  rfl

end Sys2Proof.Machine
end

