-- ==== Sys2Proof/Laws/Encoding.lean ====
section
/-! SUPPORT. The laws of the command word: its fields, the integers of a field, the rows of the opcode table (30_encoding.md
R103, R104, R109). -/

namespace Sys2Proof

/-- The fields of a word put together from its fields (R103). -/
theorem opField_append (c : BitVec 3) (a b : BitVec 32) : opField (c ++ (a ++ b)) = c := by
  unfold opField
  apply BitVec.eq_of_getLsbD_eq
  intro i hi
  rw [BitVec.getLsbD_extractLsb', BitVec.getLsbD_append]
  simp [hi]

theorem addrField_append (c : BitVec 3) (a b : BitVec 32) : addrField (c ++ (a ++ b)) = a := by
  unfold addrField
  apply BitVec.eq_of_getLsbD_eq
  intro i hi
  rw [BitVec.getLsbD_extractLsb', BitVec.getLsbD_append, BitVec.getLsbD_append]
  simp [hi]
  intro h; omega

theorem argField_append (c : BitVec 3) (a b : BitVec 32) : argField (c ++ (a ++ b)) = b := by
  unfold argField
  apply BitVec.eq_of_getLsbD_eq
  intro i hi
  rw [BitVec.getLsbD_extractLsb', BitVec.getLsbD_append, BitVec.getLsbD_append]
  simp [hi]
  intro h; omega

/-- An integer of the field's range survives the field (R104). -/
theorem sext32_field32 {v : Int} (h : fitsField v = true) : sext32 (field32 v) = v := by
  simp only [fitsField, decide_eq_true_eq] at h
  unfold sext32 field32
  rw [BitVec.toInt_ofInt]
  rw [Int.bmod_eq_of_le] <;> norm_num <;> omega

/-- A row of the table, as its code, accepts the words with that code (R109). -/
theorem accepts_iff (w : CmdWord) (c : BitVec 3) (m : String) :
    (OpcodeRow.mk m 0x70000000000000000 (c ++ (0 : BitVec 64))).accepts w = true ↔ opField w = c := by
  have hm : (0x70000000000000000 : BitVec 67) = (BitVec.allOnes 3) ++ (0 : BitVec 64) := by decide
  have hw : w = opField w ++ w.extractLsb' 0 64 := by
    apply BitVec.eq_of_getLsbD_eq
    intro i hi
    rw [BitVec.getLsbD_append]
    by_cases h : i < 64
    · simp [h]
    · simp only [h, opField, BitVec.getLsbD_extractLsb', decide_false]
      rw [show 64 + (i - 64) = i by omega]
      simp; omega
  unfold OpcodeRow.accepts
  simp only []
  rw [beq_iff_eq, hm]
  generalize opField w = x at hw
  have ha : (x ++ BitVec.extractLsb' 0 64 w : BitVec 67) &&& (BitVec.allOnes 3 ++ (0 : BitVec 64) : BitVec 67) = x ++ (0 : BitVec 64) := by
    apply BitVec.eq_of_getLsbD_eq
    intro i hi
    simp only [BitVec.getLsbD_and, BitVec.getLsbD_append, BitVec.getLsbD_allOnes]
    by_cases h : i < 64
    · simp [h]
    · simp [h]; omega
  rw [hw, ha]
  constructor
  · intro h
    have := congrArg opField h
    have key : ∀ y : BitVec 3, opField (y ++ (0 : BitVec 64)) = y := by decide
    rwa [key, key] at this
  · intro h; rw [h]

end Sys2Proof
end

