-- ==== Sys2Proof/Laws/Invariants.lean ====
section
/-! SUPPORT. What each part of the machine does to the invariants of Safety.lean: a pin event, the end of a transaction,
acceptance. -/

namespace Sys2Proof.Machine

/-- An event of a running operation keeps a property that the pin event, with the rest of PHASE, keeps up to its end. -/
theorem tick_keeps_of {P : State → Prop}
    (event : ∀ {e : PinEvent} {es : List PinEvent} {s u : State}, P s → s.phase = e :: es →
      perform e { s with phase := es } = .next u → u.phase = es → es ≠ [] → P u)
    (last : ∀ {e : PinEvent} {s u : State}, P s → s.phase = [e] →
      perform e { s with phase := [] } = .next u → u.phase = [] → P (endTransaction u))
    {s t : State} (hs : P s) (h : tick s = .next t) : P t := by
  rcases tick_cases h with ⟨_, rfl⟩ | ⟨e, es, u, hp, hu, hup, ⟨hes, rfl⟩ | ⟨rfl, rfl⟩⟩
  · exact hs
  · exact event hs hp hu hup hes
  · exact last hs hp hu hup

/-! ### The stores -/

theorem stores_iff {s : State} : s.storesCanonical = true ↔
    Memory.wf s.mem = true ∧ Memory.within s.mem s.cfg.n = true ∧ PayloadBuffer.wf s.pbuf = true ∧
      PayloadBuffer.within s.pbuf s.cfg.pbd = true := by
  simp only [State.storesCanonical, Bool.and_eq_true, and_assoc]

/-- The stores of two states that agree on them. -/
theorem stores_of_eq {s t : State} (hm : t.mem = s.mem) (hp : t.pbuf = s.pbuf) (hc : t.cfg = s.cfg)
    (h : s.storesCanonical = true) : t.storesCanonical = true := by
  rw [stores_iff] at h ⊢; rw [hm, hp, hc]; exact h

/-- A pin event changes the array in one way at most: the device write at a rising edge of WE_n (R63). -/
theorem perform_mem {e : PinEvent} {s t : State} (h : perform e s = .next t) :
    t.mem = s.mem ∨ e = .wr .weN HIGH ∧ t.mem = Memory.write s.mem s.cell s.dout := by
  cases e with
  | mode i d => cases h; exact .inl rfl
  | delay w => cases w <;> cases h <;> exact .inl rfl
  | rd i =>
    simp only [perform, pinEffect, pinRead, State.afterDraw] at h
    split at h
    · cases h
    · split at h <;> cases h <;> exact .inl rfl
  | wr pin l =>
    cases pin with
    | ser => cases h; exact .inl rfl
    | srclk =>
      simp only [perform, pinEffect, pinWrite, react, andThen_next] at h
      split at h <;> cases h <;> exact .inl rfl
    | rclk =>
      simp only [perform, pinEffect, pinWrite, react, andThen_next] at h
      split at h <;> cases h <;> exact .inl rfl
    | d i =>
      simp only [perform, pinEffect, pinWrite, react] at h
      split at h
      · cases h; exact .inl rfl
      · cases h
    | weN =>
      simp only [perform, pinEffect, pinWrite, react] at h
      split at h
      · cases h; exact .inl rfl
      · split at h
        · split at h
          · rename_i hl
            cases h
            exact .inr ⟨by rw [hl], rfl⟩
          · cases h; exact .inl rfl
        · cases h

theorem stores_perform {e : PinEvent} {s t : State} (hs : s.storesCanonical = true) (h : perform e s = .next t) :
    t.storesCanonical = true := by
  have hf := perform_frame h
  have hp : t.pbuf = s.pbuf := by rw [hf]
  have hc : t.cfg = s.cfg := by rw [hf]
  rcases perform_mem h with hm | ⟨_, hm⟩
  · exact stores_of_eq hm hp hc hs
  · obtain ⟨h1, h2, h3, h4⟩ := stores_iff.1 hs
    rw [stores_iff, hm, hp, hc]
    exact ⟨Memory.write_wf h1 _ _, Memory.write_within h2 s.cell_lt _, h3, h4⟩

theorem stores_endTransaction {u : State} (h : u.storesCanonical = true) : (endTransaction u).storesCanonical = true := by
  have hf := endTransaction_frame u
  exact stores_of_eq (by rw [hf]) (by rw [hf]) (by rw [hf]) h

theorem stores_tick {s t : State} (hs : s.storesCanonical = true) (h : tick s = .next t) : t.storesCanonical = true :=
  tick_keeps_of (P := fun s => s.storesCanonical = true)
    (fun hs _ hu _ _ => stores_perform (by exact hs) hu)
    (fun hs _ hu _ => stores_endTransaction (stores_perform (by exact hs) hu)) hs h

/-- Acceptance leaves the devices, the pins and the payload buffer alone (R190, R206). -/
theorem accept_frame {i : Instr} {s t : State} (h : accept i s = .next t) :
    t = { s with
      busy := t.busy, phase := t.phase, err := t.err, op := t.op, oaddr := t.oaddr, oarg := t.oarg, pb := t.pb
      idx := t.idx, cur := t.cur, outq := t.outq, trace := t.trace, rspValid := t.rspValid, rspItems := t.rspItems } := by
  obtain ⟨_, ⟨code, _, rfl⟩ | ⟨_, _, rfl⟩⟩ := accept_cases h
  · rfl
  · cases i with
    | setaddr addr oe => rfl
    | read addr => rfl
    | write addr byte => rfl
    | writebytes start len => rw [(begun_bulk s start len).1, bulkNext_frame]; rfl
    | erasebytes start count => rw [(begun_bulk s start count).2.1, bulkNext_frame]; rfl
    | dumprange start count => rw [(begun_bulk s start count).2.2, bulkNext_frame]; rfl

theorem stores_accept {i : Instr} {s t : State} (hs : s.storesCanonical = true) (h : accept i s = .next t) :
    t.storesCanonical = true := by
  have hf := accept_frame h
  exact stores_of_eq (by rw [hf]) (by rw [hf]) (by rw [hf]) hs

/-! ### The quiet levels -/

/-- The level a pin's register has, and DIR, after an event (R120, R121). -/
theorem perform_levels {e : PinEvent} {s t : State} (h : perform e s = .next t) (es : List PinEvent) :
    levelAfter .srclk es t.srclk = levelAfter .srclk (e :: es) s.srclk ∧
    levelAfter .rclk es t.rclk = levelAfter .rclk (e :: es) s.rclk ∧
    levelAfter .weN es t.weN = levelAfter .weN (e :: es) s.weN ∧
    dirAfter es t.dir = dirAfter (e :: es) s.dir := by
  cases e with
  | mode i d => cases h; exact ⟨rfl, rfl, rfl, rfl⟩
  | delay w => cases w <;> cases h <;> exact ⟨rfl, rfl, rfl, rfl⟩
  | rd i =>
    simp only [perform, pinEffect, pinRead, State.afterDraw] at h
    split at h
    · cases h
    · split at h <;> cases h <;> exact ⟨rfl, rfl, rfl, rfl⟩
  | wr pin l =>
    cases pin with
    | ser => cases h; exact ⟨rfl, rfl, rfl, rfl⟩
    | srclk =>
      simp only [perform, pinEffect, pinWrite, react, andThen_next] at h
      split at h <;> cases h <;> exact ⟨rfl, rfl, rfl, rfl⟩
    | rclk =>
      simp only [perform, pinEffect, pinWrite, react, andThen_next] at h
      split at h <;> cases h <;> exact ⟨rfl, rfl, rfl, rfl⟩
    | d i =>
      simp only [perform, pinEffect, pinWrite, react] at h
      split at h
      · cases h; exact ⟨rfl, rfl, rfl, rfl⟩
      · cases h
    | weN =>
      simp only [perform, pinEffect, pinWrite, react] at h
      split at h
      · cases h; exact ⟨rfl, rfl, rfl, rfl⟩
      · split at h
        · split at h <;> cases h <;> exact ⟨rfl, rfl, rfl, rfl⟩
        · cases h

/-- Where the events of a transaction bring the lines, from the quiet levels. -/
structure Quieting (es : List PinEvent) : Prop where
  srclk : levelAfter .srclk es LOW = LOW
  rclk : levelAfter .rclk es LOW = LOW
  weN : levelAfter .weN es HIGH = HIGH
  dir : ∀ d : BitVec 8, d = 0 ∨ d = BitVec.allOnes 8 → dirAfter es d = 0 ∨ dirAfter es d = BitVec.allOnes 8

theorem quieting_setAddress (a : Nat) (oe : Bool) : Quieting (setAddressEvents a oe) :=
  ⟨rfl, rfl, rfl, fun _ h => h⟩

theorem quieting_read (a : Nat) : Quieting (readEvents a) :=
  ⟨rfl, rfl, rfl, fun d _ => .inl (setBits_const d INPUT)⟩

theorem quieting_write (a : Nat) (b : Byte) : Quieting (writeEvents a b) :=
  ⟨rfl, rfl, rfl, fun d _ => .inr (setBits_const d OUTPUT)⟩

theorem quieting_bulk {u : State} (h : u.op = .writebytes ∨ u.op = .erasebytes ∨ u.op = .dumprange) :
    Quieting (bulkEvents u) := by
  rcases h with h | h | h <;> simp only [bulkEvents, h]
  · exact quieting_write _ _
  · exact quieting_write _ _
  · exact quieting_read _

theorem quietInv_busy {s : State} (hb : s.busy = true) : s.quietInv ↔
    s.inited = true ∧ s.phase ≠ [] ∧ levelAfter .srclk s.phase s.srclk = LOW ∧ levelAfter .rclk s.phase s.rclk = LOW ∧
    levelAfter .weN s.phase s.weN = HIGH ∧ (dirAfter s.phase s.dir = 0 ∨ dirAfter s.phase s.dir = BitVec.allOnes 8) := by
  simp only [State.quietInv, hb, if_true]

theorem quietInv_idle {s : State} (hb : s.busy = false) : s.quietInv ↔ s.quiet = true := by
  simp only [State.quietInv, hb, Bool.false_eq_true, if_false]

theorem quietInv_tick {s t : State} (hs : s.quietInv) (h : tick s = .next t) : t.quietInv := by
  cases hb : s.busy with
  | false =>
    have hq := (quietInv_idle hb).1 hs
    rw [tick, (quiet_iff.1 hq).2.1] at h
    cases h; exact hs
  | true =>
    obtain ⟨h1, h2, h3, h4, h5, h6⟩ := (quietInv_busy hb).1 hs
    rcases tick_cases h with ⟨hn, _⟩ | ⟨e, es, u, hp, hu, hup, ht⟩
    · exact absurd hn h2
    have hf := perform_frame hu
    have hub : u.busy = true := by rw [hf]; exact hb
    have hui : u.inited = true := by rw [hf]; exact h1
    obtain ⟨l1, l2, l3, l4⟩ := perform_levels hu es
    rw [hp] at h3 h4 h5 h6
    rw [← l1.trans rfl] at h3
    rw [← l2.trans rfl] at h4
    rw [← l3.trans rfl] at h5
    rw [← l4.trans rfl] at h6
    rcases ht with ⟨hes, rfl⟩ | ⟨rfl, rfl⟩
    · rw [quietInv_busy hub, hup]
      exact ⟨hui, hes, h3, h4, h5, h6⟩
    · have hef := endTransaction_frame u
      have e1 : (endTransaction u).srclk = LOW := by rw [hef]; exact h3
      have e2 : (endTransaction u).rclk = LOW := by rw [hef]; exact h4
      have e3 : (endTransaction u).weN = HIGH := by rw [hef]; exact h5
      have e4 : (endTransaction u).dir = 0 ∨ (endTransaction u).dir = BitVec.allOnes 8 := by rw [hef]; exact h6
      rcases endTransaction_phase u with ⟨g1, g2, _⟩ | ⟨g1, g2, _, _, _, g6⟩
      · rw [quietInv_idle g1, quiet_iff]
        exact ⟨g1, g2, e1, e2, e3, e4⟩
      · have hq := quieting_bulk (u := advance u) (by exact g6)
        rw [quietInv_busy (by rw [g1]; exact hub), g2, e1, e2, e3]
        exact ⟨by rw [hef]; exact hui, bulkEvents_ne_nil (by exact g6), hq.srclk, hq.rclk, hq.weN, hq.dir _ e4⟩

theorem quietInv_bulkNext {u : State} (h : Between u) (hi : u.inited = true) (hd : u.dir = 0 ∨ u.dir = BitVec.allOnes 8)
    (hop : u.op = .writebytes ∨ u.op = .erasebytes ∨ u.op = .dumprange) : (bulkNext u).quietInv := by
  by_cases hidx : u.idx < u.oarg.toNat
  · rw [bulkNext_more hidx, quietInv_busy (by exact h.busy)]
    have hq := quieting_bulk hop
    refine ⟨hi, bulkEvents_ne_nil hop, ?_, ?_, ?_, hq.dir _ hd⟩ <;> simp only [h.srclk, h.rclk, h.weN, hq.srclk, hq.rclk, hq.weN]
  · rw [bulkNext_done hidx, quietInv_idle (by rfl), quiet_iff]
    exact ⟨rfl, rfl, h.srclk, h.rclk, h.weN, hd⟩

theorem quietInv_accept {i : Instr} {s t : State} (hb : s.busy = false) (hs : s.quietInv) (h : accept i s = .next t) :
    t.quietInv := by
  have hq := (quietInv_idle hb).1 hs
  obtain ⟨_, hp, hck, hr, hw, hd⟩ := quiet_iff.1 hq
  obtain ⟨hi, ⟨code, _, rfl⟩ | ⟨_, _, rfl⟩⟩ := accept_cases h
  · rw [quietInv_idle (by exact hb), quiet_iff]
    exact ⟨hb, hp, hck, hr, hw, hd⟩
  · have single : ∀ u : State, u.busy = true → u.inited = s.inited → u.srclk = s.srclk → u.rclk = s.rclk → u.weN = s.weN →
        u.dir = s.dir → u.phase ≠ [] → Quieting u.phase → u.quietInv := by
      intro u h1 h2 h3 h4 h5 h6 h7 h8
      rw [quietInv_busy h1, h2, h3, h4, h5, h6, hck, hr, hw]
      exact ⟨hi, h7, h8.srclk, h8.rclk, h8.weN, h8.dir _ hd⟩
    cases i with
    | setaddr addr oe =>
      exact single _ rfl rfl rfl rfl rfl rfl (by simp [begun, setAddressEvents, shiftOut]) (quieting_setAddress _ _)
    | read addr =>
      exact single _ rfl rfl rfl rfl rfl rfl (by simp [begun, readEvents, setDirection, dataLines]) (quieting_read _)
    | write addr byte =>
      exact single _ rfl rfl rfl rfl rfl rfl (by simp [begun, writeEvents, setDirection, dataLines]) (quieting_write _ _)
    | writebytes start len =>
      rw [(begun_bulk s start len).1]
      exact quietInv_bulkNext (bulkStart_between hq) hi hd (by simp [bulkStart, capture])
    | erasebytes start count =>
      rw [(begun_bulk s start count).2.1]
      exact quietInv_bulkNext (bulkStart_between hq) hi hd (by simp [bulkStart, capture])
    | dumprange start count =>
      rw [(begun_bulk s start count).2.2]
      exact quietInv_bulkNext (bulkStart_between hq) hi hd (by simp [bulkStart, capture])

/-! ### The sequencer's place -/

/-- The record of an event is a record of it. -/
@[simp] theorem erase_record (s : State) (e : PinEvent) : (e.record s).erase = e := by cases e <;> rfl

/-- The plan depends on the operand registers alone. -/
theorem plan_of_eq {s t : State} (h1 : t.op = s.op) (h2 : t.oaddr = s.oaddr) (h3 : t.oarg = s.oarg) (h4 : t.pb = s.pb) :
    t.plan = s.plan ∧ ∀ i k, t.transactionsFrom i k = s.transactionsFrom i k := by
  have ht : t.transactionEvents = s.transactionEvents := by
    funext i; simp only [State.transactionEvents, h1, h2, h3, h4]
  have hn : t.transactions = s.transactions := by simp only [State.transactions, h1, h3]
  exact ⟨by simp only [State.plan, State.transactionsFrom, ht, hn], fun i k => by simp only [State.transactionsFrom, ht]⟩

theorem transactionsFrom_succ (s : State) (i k : Nat) :
    s.transactionsFrom i (k + 1) = s.transactionEvents i ++ s.transactionsFrom (i + 1) k := by
  simp only [State.transactionsFrom, List.range'_succ, List.flatMap_cons]

/-- The sequencer's place, and at the end of an operation its whole event list (R30, R182). -/
def State.onPlan (s : State) : Prop :=
  s.operandsLegal ∧
  if s.busy then s.countersInStep ∧ s.phase ≠ [] ∧ s.trace.map TraceEvent.erase ++ (s.phase ++ s.later) = s.plan
  else s.phase = [] ∧ s.trace.map TraceEvent.erase = s.plan

theorem sequencerInv_of_onPlan {s : State} (h : s.onPlan) : s.sequencerInv := by
  intro hb
  obtain ⟨h1, h2⟩ := h
  rw [if_pos hb] at h2
  exact ⟨h1, h2⟩

/-- The events that CUR and IDX name are those of the IDX-th transaction. -/
theorem bulkEvents_eq {u : State} (h : u.op = .writebytes ∨ u.op = .erasebytes ∨ u.op = .dumprange) (h0 : 0 ≤ u.oaddr)
    (hc : (u.cur : Int) = u.oaddr + u.idx) : bulkEvents u = u.transactionEvents u.idx := by
  have : u.cur = u.oaddr.toNat + u.idx := by omega
  rcases h with h | h | h <;> simp only [bulkEvents, State.transactionEvents, h, this]

theorem onPlan_perform {e : PinEvent} {es : List PinEvent} {s u : State} (hs : s.onPlan) (hb : s.busy = true)
    (hp : s.phase = e :: es) (hu : perform e { s with phase := es } = .next u) :
    u.operandsLegal ∧ u.countersInStep ∧ u.trace.map TraceEvent.erase ++ (es ++ u.later) = u.plan := by
  obtain ⟨h1, h2⟩ := hs
  rw [if_pos hb] at h2
  obtain ⟨h2, _, h3⟩ := h2
  have hf := perform_frame hu
  have hop : u.op = s.op := by rw [hf]
  have ha : u.oaddr = s.oaddr := by rw [hf]
  have hg : u.oarg = s.oarg := by rw [hf]
  have hpb : u.pb = s.pb := by rw [hf]
  have hi : u.idx = s.idx := by rw [hf]
  have hcu : u.cur = s.cur := by rw [hf]
  have hcf : u.cfg = s.cfg := by rw [hf]
  obtain ⟨p1, p2⟩ := plan_of_eq hop ha hg hpb
  have htr : u.trace = s.trace ++ [e.record { s with phase := es }] :=
    perform_trace (s := { s with phase := es }) hu
  have hl : u.later = s.later := by
    simp only [State.later, p2, State.transactionNow, State.transactionsAfter, hop, hg, hi]
  refine ⟨?_, ?_, ?_⟩
  · simpa only [State.operandsLegal, hop, ha, hg, hpb, hcf] using h1
  · simpa only [State.countersInStep, hop, ha, hg, hi, hcu] using h2
  · rw [p1, ← h3, hl, htr, hp]
    simp

theorem onPlan_endTransaction {u : State} (hb : u.busy = true) (h1 : u.operandsLegal) (h2 : u.countersInStep)
    (h3 : u.trace.map TraceEvent.erase ++ u.later = u.plan) : (endTransaction u).onPlan := by
  have hf := endTransaction_frame u
  generalize hv : endTransaction u = v at hf
  have hop : v.op = u.op := by rw [hf]
  have ha : v.oaddr = u.oaddr := by rw [hf]
  have hg : v.oarg = u.oarg := by rw [hf]
  have hpb : v.pb = u.pb := by rw [hf]
  have hcf : v.cfg = u.cfg := by rw [hf]
  have htr : v.trace = u.trace := by rw [hf]
  obtain ⟨p1, p2⟩ := plan_of_eq hop ha hg hpb
  have hlegal : v.operandsLegal := by simpa only [State.operandsLegal, hop, ha, hg, hpb, hcf] using h1
  rcases endTransaction_phase u with ⟨g1, g2, _, g4⟩ | ⟨g1, g2, g3, g4, g5, g6⟩
  · rw [hv] at g1 g2
    refine ⟨hlegal, ?_⟩
    rw [g1, if_neg (by decide)]
    refine ⟨g2, ?_⟩
    rw [p1, ← h3, htr]
    simp [State.later, State.transactionsFrom, g4]
  · rw [hv] at g1 g2 g3 g4
    refine ⟨hlegal, ?_⟩
    rw [g1, hb, if_pos rfl]
    have h0 : 0 ≤ u.oaddr := by
      rcases g6 with g6 | g6 | g6 <;> simp only [State.operandsLegal, g6] at h1 <;> exact h1.1
    have hc : (u.cur : Int) = u.oaddr + u.idx := by
      rcases g6 with g6 | g6 | g6 <;> simp only [State.countersInStep, g6] at h2 <;> exact h2.1
    have hev : bulkEvents (advance u) = u.transactionEvents (u.idx + 1) := by
      rw [bulkEvents_eq (by exact g6) (by exact h0)]
      · rfl
      · show ((u.cur + 1 : Nat) : Int) = u.oaddr + (u.idx + 1 : Nat)
        omega
    refine ⟨?_, ?_, ?_⟩
    · rcases g6 with g6 | g6 | g6 <;> simp only [State.countersInStep, hop, g6, ha, hg, g3, g4] <;>
        exact ⟨by push_cast; omega, g5⟩
    · rw [g2]; exact bulkEvents_ne_nil (by exact g6)
    · rw [p1, ← h3, htr, g2, hev]
      congr 1
      obtain ⟨k, hk⟩ : ∃ k, u.oarg.toNat - (u.idx + 1) = k + 1 := ⟨u.oarg.toNat - (u.idx + 2), by omega⟩
      have hk' : u.oarg.toNat - (u.idx + 1 + 1) = k := by omega
      rcases g6 with g6 | g6 | g6 <;>
        simp only [State.later, State.transactionNow, State.transactionsAfter, hop, g6, hg, g3, p2, hk, hk',
          transactionsFrom_succ]

theorem onPlan_tick {s t : State} (hs : s.onPlan) (h : tick s = .next t) : t.onPlan := by
  cases hb : s.busy with
  | false =>
    have hp : s.phase = [] := by
      have h2 := hs.2
      rw [hb, if_neg (by decide)] at h2
      exact h2.1
    rw [tick, hp] at h
    cases h; exact hs
  | true =>
    rcases tick_cases h with ⟨_, rfl⟩ | ⟨e, es, u, hp, hu, hup, ht⟩
    · exact hs
    have hub : u.busy = true := by rw [perform_frame hu]; exact hb
    obtain ⟨h1, h2, h3⟩ := onPlan_perform hs hb hp hu
    rcases ht with ⟨hes, rfl⟩ | ⟨rfl, rfl⟩
    · refine ⟨h1, ?_⟩
      rw [if_pos hub, hup]
      exact ⟨h2, hes, h3⟩
    · exact onPlan_endTransaction hub h1 h2 h3

theorem onPlan_begun {i : Instr} {s : State} (hpr : presentable i) (hc : checksOf s i = none) :
    (begun s i).onPlan := by
  have hpass := checksOf_none.1 hc
  have bulk : ∀ (op : Op) (start arg : Int) (pb : List Int), (op = .writebytes ∨ op = .erasebytes ∨ op = .dumprange) →
      0 ≤ start → (bulkStart op start arg pb s).operandsLegal → (bulkNext (bulkStart op start arg pb s)).onPlan := by
    intro op start arg pb hop h0 hl
    by_cases hlt : (bulkStart op start arg pb s).idx < (bulkStart op start arg pb s).oarg.toNat
    · rw [bulkNext_more hlt]
      refine ⟨hl, ?_⟩
      rw [if_pos (by rfl)]
      have hcur : ((bulkStart op start arg pb s).cur : Int) =
          (bulkStart op start arg pb s).oaddr + (bulkStart op start arg pb s).idx := by
        show ((start.toNat : Nat) : Int) = start + ((0 : Nat) : Int)
        omega
      refine ⟨?_, bulkEvents_ne_nil hop, ?_⟩
      · rcases hop with rfl | rfl | rfl <;> exact ⟨hcur, hlt⟩
      · rw [bulkEvents_eq hop h0 hcur]
        have hlt' : 0 < arg.toNat := hlt
        obtain ⟨k, hk⟩ : ∃ k, arg.toNat = k + 1 := ⟨arg.toNat - 1, by omega⟩
        rcases hop with rfl | rfl | rfl <;>
          simp only [State.plan, State.later, State.transactions, State.transactionNow, State.transactionsAfter, bulkStart,
            capture, hk, transactionsFrom_succ, List.map_nil, List.nil_append] <;> rfl
    · rw [bulkNext_done hlt]
      have hz : arg.toNat = 0 := Nat.eq_zero_of_not_pos hlt
      refine ⟨hl, ?_⟩
      rw [if_neg (by simp [complete])]
      refine ⟨rfl, ?_⟩
      rcases hop with rfl | rfl | rfl <;>
        simp [State.plan, State.transactions, bulkStart, capture, complete, hz, State.transactionsFrom]
  cases i with
  | setaddr addr oe =>
    refine ⟨⟨hpr.1, hpr.2, by cases oe <;> simp [begun]⟩, ?_⟩
    rw [if_pos (by rfl)]
    refine ⟨trivial, by simp [begun, setAddressEvents, shiftOut], ?_⟩
    have : ((if oe then (1 : Int) else 0) == 1) = oe := by cases oe <;> rfl
    simp only [begun, capture, State.plan, State.later, State.transactions, State.transactionsAfter, State.transactionsFrom,
      State.transactionEvents, List.range'_zero, List.range'_succ, List.flatMap_cons, List.flatMap_nil, List.append_nil, List.map_nil,
      List.nil_append, this]
  | read addr =>
    refine ⟨hpass, ?_⟩
    rw [if_pos (by rfl)]
    refine ⟨trivial, by simp [begun, readEvents, setDirection, dataLines], ?_⟩
    simp only [begun, capture, State.plan, State.later, State.transactions, State.transactionsAfter, State.transactionsFrom,
      State.transactionEvents, List.range'_zero, List.range'_succ, List.flatMap_cons, List.flatMap_nil, List.append_nil, List.map_nil,
      List.nil_append]
  | write addr byte =>
    refine ⟨⟨hpass.1.1, hpass.1.2, hpass.2.1, hpass.2.2⟩, ?_⟩
    rw [if_pos (by rfl)]
    refine ⟨trivial, by simp [begun, writeEvents, setDirection, dataLines], ?_⟩
    simp only [begun, capture, State.plan, State.later, State.transactions, State.transactionsAfter, State.transactionsFrom,
      State.transactionEvents, List.range'_zero, List.range'_succ, List.flatMap_cons, List.flatMap_nil, List.append_nil, List.map_nil,
      List.nil_append]
  | writebytes start len =>
    rw [(begun_bulk s start len).1]
    exact bulk _ _ _ _ (by simp) hpass.1.1
      ⟨hpass.1.1, hpass.2.1.1, hpass.2.1.2, by simp [bulkStart, capture, payloadOf], hpass.2.2⟩
  | erasebytes start count =>
    rw [(begun_bulk s start count).2.1]
    exact bulk _ _ _ _ (by simp) hpass.1.1 ⟨hpass.1.1, hpass.2.1, hpass.2.2⟩
  | dumprange start count =>
    rw [(begun_bulk s start count).2.2]
    exact bulk _ _ _ _ (by simp) hpass.1.1 ⟨hpass.1.1, hpass.2.1, hpass.2.2⟩

end Sys2Proof.Machine
end

