-- ==== Sys2Proof/Laws/Outcomes.lean ====
section
/-! SUPPORT. What an operation answers, in general (60_exceptions.md R190, R206): rejected or run to its end; what stays; its event
list (44_common_laws.md R134, 43_bulk_operations.md R182); and the states after some of its events. -/

namespace Sys2Proof.Machine

/-- A rejected operation (R190). -/
theorem exec_rejected {s : State} {i : Instr} {code : ResultCode} (hi : s.inited = true) (hb : s.busy = false)
    (h : checksOf s i = some code) : exec i s = .next (raiseError code s) := by
  rw [exec_idle hb, accept_rejected hi h, andThen_next, finish_idle (by exact hb)]

theorem accept_eventful {i : Instr} {s t : State} (hb : s.busy = false) (h : accept i s = .next t) : t.eventful := by
  intro ht
  obtain ⟨_, ⟨code, _, rfl⟩ | ⟨hc, hp, rfl⟩⟩ := accept_cases h
  · exact absurd (show s.busy = true from ht) (by rw [hb]; decide)
  · have := (onPlan_begun hp hc).2
    rw [if_pos ht] at this
    exact this.2.1

theorem exec_ends {i : Instr} {s t : State} (hb : s.busy = false) (h : exec i s = .next t) : t.busy = false := by
  rw [exec_idle hb] at h
  obtain ⟨u, hu, ht⟩ := andThen_eq_next h
  exact finish_ends (accept_eventful hb hu) ht

/-- What no event changes (R32, R102). -/
theorem tick_inited {s t : State} (h : tick s = .next t) : t.inited = s.inited ∧ t.cfg = s.cfg ∧ t.inputs = s.inputs ∧ t.pbuf = s.pbuf := by
  have := tick_keeps_of (P := fun v => v.inited = s.inited ∧ v.cfg = s.cfg ∧ v.inputs = s.inputs ∧ v.pbuf = s.pbuf)
    (fun {e es v u} hv _ hu _ _ => by rw [perform_frame hu]; exact hv)
    (fun {e v u} hv _ hu _ => by rw [endTransaction_frame, perform_frame hu]; exact hv) ⟨rfl, rfl, rfl, rfl⟩ h
  exact this

theorem exec_inited {i : Instr} {s t : State} (hb : s.busy = false) (h : exec i s = .next t) :
    t.inited = s.inited ∧ t.cfg = s.cfg ∧ t.inputs = s.inputs ∧ t.pbuf = s.pbuf :=
  exec_keeps (P := fun v => v.inited = s.inited ∧ v.cfg = s.cfg ∧ v.inputs = s.inputs ∧ v.pbuf = s.pbuf)
    (fun {v w} hv hw => by obtain ⟨h1, h2, h3, h4⟩ := tick_inited hw; rw [h1, h2, h3, h4]; exact hv)
    (fun {j v w} _ hv hw => by rw [accept_frame hw]; exact hv) hb ⟨rfl, rfl, rfl, rfl⟩ h

/-- An operation that answers was rejected, or ran from its beginning to its end. -/
theorem exec_cases {i : Instr} {s t : State} (hb : s.busy = false) (h : exec i s = .next t) :
    s.inited = true ∧ ((∃ code, checksOf s i = some code ∧ t = raiseError code s) ∨
      (checksOf s i = none ∧ presentable i ∧ finish (begun s i) = .next t)) := by
  rw [exec_idle hb] at h
  obtain ⟨u, hu, ht⟩ := andThen_eq_next h
  obtain ⟨hi, ⟨code, hc, rfl⟩ | ⟨hc, hp, rfl⟩⟩ := accept_cases hu
  · rw [finish_idle (by exact hb)] at ht; cases ht
    exact ⟨hi, .inl ⟨code, hc, rfl⟩⟩
  · exact ⟨hi, .inr ⟨hc, hp, ht⟩⟩

/-- READ, accepted, whatever the device is doing (R60, R150). -/
theorem exec_read_any {s : State} {addr : Int} (hi : s.inited = true) (hq : s.quiet = true) (hc : s.cfg.wf = true)
    (h : 0 ≤ addr) (h' : addr < s.cfg.n) :
    exec (.read addr) s = .next
      { s with
        op := .read, oaddr := addr, outq := [], rspValid := true, rspItems := [], err := .ok
        sr := addressWord addr.toNat true, q := addressWord addr.toNat true
        ser := (addressWord addr.toNat true).getLsbD 0, dir := 0
        samples := sampleOf s addr.toNat, rdata := sampleOf s addr.toNat, draws := drawsAfter s
        trace := (readEvents addr.toNat).map (PinEvent.recordWith (sampleOf s addr.toNat)) } := by
  obtain ⟨hbz, hp, hck, hr, hw, hd⟩ := quiet_iff.1 hq
  have hn := n_le hc
  have hlt : addr.toNat < s.cfg.n := by omega
  rw [exec_idle hbz, accept_begun (i := .read addr) hi trivial (checksOf_none.2 ⟨h, h'⟩), andThen_next,
    finish_single (by rfl) (by simp [begun, readEvents, setDirection, dataLines]) (by rfl)]
  rw [show (begun s (.read addr)).phase = readEvents addr.toNat from rfl,
    performAll_read_any _ _ (by omega) (by exact hck) (by exact hr), andThen_next]
  rw [show addr.toNat % (begun s (.read addr)).cfg.n = addr.toNat from Nat.mod_eq_of_lt hlt]
  obtain ⟨cfg, ser, srclk, rclk, weN, dout, dir, rdata, busy, err, inited, phase⟩ := s
  simp only at hbz hp
  subst hbz hp
  rfl

/-- The operand registers stay while the operation runs (R29). -/
theorem tick_operands {s t : State} (h : tick s = .next t) : t.op = s.op ∧ t.oaddr = s.oaddr ∧ t.oarg = s.oarg ∧ t.pb = s.pb :=
  tick_keeps_of (P := fun v => v.op = s.op ∧ v.oaddr = s.oaddr ∧ v.oarg = s.oarg ∧ v.pb = s.pb)
    (fun {e es v u} hv _ hu _ _ => by rw [perform_frame hu]; exact hv)
    (fun {e v u} hv _ hu _ => by rw [endTransaction_frame, perform_frame hu]; exact hv) ⟨rfl, rfl, rfl, rfl⟩ h

theorem accepted_plan {i : Instr} {s t : State} (hch : checksOf s i = none) (hpr : presentable i)
    (hf : finish (begun s i) = .next t) : t.trace.map TraceEvent.erase = (begun s i).plan := by
  have hon := onPlan_begun (s := s) hpr hch
  have hev : (begun s i).eventful := by
    intro hb; have := hon.2; rw [if_pos hb] at this; exact this.2.1
  have hend := finish_ends hev hf
  have h1 : t.onPlan := ticks_keep onPlan_tick hon hf
  have h2 := h1.2
  rw [hend, if_neg (by decide)] at h2
  have h3 : t.op = (begun s i).op ∧ t.oaddr = (begun s i).oaddr ∧ t.oarg = (begun s i).oarg ∧ t.pb = (begun s i).pb :=
    ticks_keep (P := fun v => v.op = (begun s i).op ∧ v.oaddr = (begun s i).oaddr ∧ v.oarg = (begun s i).oarg ∧ v.pb = (begun s i).pb)
      (fun {v w} hv hw => by obtain ⟨a, b, c, d⟩ := tick_operands hw; rw [a, b, c, d]; exact hv) ⟨rfl, rfl, rfl, rfl⟩ hf
  rw [h2.2, (plan_of_eq h3.1 h3.2.1 h3.2.2.1 h3.2.2.2).1]

/-- The event list of an operation, by its operands and the payload (R134, R182). -/
def planOf (s : State) : Instr → List PinEvent
  | .setaddr addr oe => setAddressEvents addr.toNat oe
  | .read addr => readEvents addr.toNat
  | .write addr byte => writeEvents addr.toNat (byteOf byte)
  | .writebytes start len =>
    (List.range' 0 len.toNat).flatMap fun i => writeEvents (start.toNat + i) (byteOf ((payloadOf s.pbuf len).getD i 0))
  | .erasebytes start count => (List.range' 0 count.toNat).flatMap fun i => writeEvents (start.toNat + i) fill
  | .dumprange start count => (List.range' 0 count.toNat).flatMap fun i => readEvents (start.toNat + i)

theorem begun_plan (s : State) (i : Instr) : (begun s i).plan = planOf s i := by
  have bulk : ∀ op st len pb, (bulkNext (bulkStart op st len pb s)).plan = (bulkStart op st len pb s).plan := by
    intro op st len pb
    apply (plan_of_eq _ _ _ _).1 <;> rw [bulkNext_frame]
  cases i with
  | setaddr addr oe =>
    have : ((if oe then (1 : Int) else 0) == 1) = oe := by cases oe <;> rfl
    simp only [begun, capture, State.plan, State.transactions, State.transactionsFrom,
      State.transactionEvents, List.range'_zero, List.range'_succ, List.flatMap_cons, List.flatMap_nil, List.append_nil, this, planOf]
  | read addr =>
    simp only [begun, capture, State.plan, State.transactions, State.transactionsFrom,
      State.transactionEvents, List.range'_zero, List.range'_succ, List.flatMap_cons, List.flatMap_nil, List.append_nil, planOf]
  | write addr byte =>
    simp only [begun, capture, State.plan, State.transactions, State.transactionsFrom,
      State.transactionEvents, List.range'_zero, List.range'_succ, List.flatMap_cons, List.flatMap_nil, List.append_nil, planOf]
  | writebytes start len => rw [(begun_bulk s start len).1, bulk]; rfl
  | erasebytes start count => rw [(begun_bulk s start count).2.1, bulk]; rfl
  | dumprange start count => rw [(begun_bulk s start count).2.2, bulk]; rfl

/-- An operation that runs to its end answers OK (R191). -/
theorem finish_err {s t : State} (hev : s.eventful) (h0 : s.busy = false → s.err = .ok) (hf : finish s = .next t) : t.err = .ok := by
  have hend := finish_ends hev hf
  have := ticks_keep (P := fun v => v.busy = false → v.err = .ok) (fun {v w} hv hw => by
    intro hb
    rcases tick_cases hw with ⟨_, rfl⟩ | ⟨e, es, u, hp, hu, hup, ⟨hes, rfl⟩ | ⟨_, rfl⟩⟩
    · exact hv hb
    · have hfr := perform_frame hu
      have : v.busy = false := by rw [hfr] at hb; exact hb
      rw [hfr]; exact hv this
    · rcases endTransaction_phase u with ⟨g1, _, g3, _⟩ | ⟨g1, _⟩
      · exact g3
      · have hfr := perform_frame hu
        rw [g1, hfr] at hb
        have he : (endTransaction u).err = u.err ∨ (endTransaction u).err = .ok := by
          have key : endTransaction u = complete u ∨ endTransaction u = complete (assemble u) ∨
              endTransaction u = bulkNext (advance u) ∨ endTransaction u = bulkNext (advance (emitByte (assemble u))) := by
            unfold endTransaction; cases u.op <;> simp
          have hbn : ∀ x : State, (bulkNext x).err = x.err ∨ (bulkNext x).err = .ok := by
            intro x
            by_cases hx : x.idx < x.oarg.toNat
            · rw [bulkNext_more hx]; exact .inl rfl
            · rw [bulkNext_done hx]; exact .inr rfl
          rcases key with k | k | k | k <;> rw [k]
          · exact .inr rfl
          · exact .inr rfl
          · exact hbn (advance u)
          · exact hbn (advance (emitByte (assemble u)))
        rcases he with he | he
        · rw [he, hfr]; exact hv hb
        · exact he) h0 hf
  exact this hend

theorem begun_err (s : State) (i : Instr) : (begun s i).busy = false → (begun s i).err = .ok := by
  have hbn : ∀ x : State, x.busy = true → (bulkNext x).busy = false → (bulkNext x).err = .ok := by
    intro x hx hb
    by_cases h : x.idx < x.oarg.toNat
    · rw [bulkNext_more h] at hb; rw [hx] at hb; cases hb
    · rw [bulkNext_done h]; rfl
  cases i with
  | setaddr addr oe => intro h; cases h
  | read addr => intro h; cases h
  | write addr byte => intro h; cases h
  | writebytes start len => rw [(begun_bulk s start len).1]; exact hbn _ rfl
  | erasebytes start count => rw [(begun_bulk s start count).2.1]; exact hbn _ rfl
  | dumprange start count => rw [(begun_bulk s start count).2.2]; exact hbn _ rfl

theorem begun_eventful {s : State} {i : Instr} (hch : checksOf s i = none) (hpr : presentable i) : (begun s i).eventful := by
  intro hb; have := (onPlan_begun (s := s) hpr hch).2; rw [if_pos hb] at this; exact this.2.1

/-- The codes a range check gives (R106, R191). -/
theorem checksOf_code {s : State} {i : Instr} {code : ResultCode} (h : checksOf s i = some code) :
    code = .addrRange ∨ code = .countRange ∨ code = .dataRange := by
  cases i <;>
    simp only [checksOf, checkRead, checkWrite, checkWritebytes, checkErasebytes, checkDumprange, checkAddr, checkCount, checkByte,
      checkBytes] at h <;> (try split_ifs at h) <;> simp_all

/-- An accepted operation that completes answers OK (R191). -/
theorem exec_accepted_err {s t : State} {i : Instr} (hb : s.busy = false) (hc : checksOf s i = none) (h : exec i s = .next t) :
    t.err = .ok := by
  obtain ⟨_, ⟨code, hx, _⟩ | ⟨hx, hp, hf⟩⟩ := exec_cases hb h
  · rw [hc] at hx; cases hx
  · exact finish_err (begun_eventful hx hp) (begun_err s i) hf

/-- The state after the first `k` events of a transaction. -/
theorem ticks_take {es : List PinEvent} {u t : State} (hp : u.phase = es) (hw : performAll es { u with phase := [] } = .next t)
    {k : Nat} (hk : k < es.length) :
    ∃ v, ticks k u = .next v ∧ ∃ w, performAll (es.take k) { u with phase := [] } = .next w ∧ v = { w with phase := es.drop k } := by
  have hs : u.phase = es.take k ++ es.drop k := by rw [List.take_append_drop]; exact hp
  have hd : es.drop k ≠ [] := by simp [List.drop_eq_nil_iff]; omega
  have := ticks_prefix hs hd
  rw [List.length_take, Nat.min_eq_left (by omega)] at this
  rw [show es = es.take k ++ es.drop k by rw [List.take_append_drop]] at hw
  obtain ⟨w, h1, h2⟩ := performAll_split hw
  rw [this, h1, andThen_next]
  exact ⟨_, rfl, w, rfl, rfl⟩

/-- Not a latch pulse. -/
def notRclk : PinEvent → Bool
  | .wr .rclk true => false
  | _ => true

/-- Not a change of direction. -/
def notMode : PinEvent → Bool
  | .mode _ _ => false
  | _ => true

/-- Only a latch pulse moves the outputs (R58). -/
theorem perform_q {e : PinEvent} (h : notRclk e = true) {s t : State} (ht : perform e s = .next t) : t.q = s.q := by
  cases e with
  | mode i d => cases ht; rfl
  | delay w => cases w <;> cases ht <;> rfl
  | rd i =>
    simp only [perform, pinEffect, pinRead, State.afterDraw] at ht
    split at ht
    · cases ht
    · split at ht <;> cases ht <;> rfl
  | wr pin l =>
    cases pin with
    | ser => cases ht; rfl
    | srclk =>
      simp only [perform, pinEffect, pinWrite, react, andThen_next] at ht
      split at ht <;> cases ht <;> rfl
    | rclk =>
      cases l with
      | true => cases h
      | false => cases ht; rfl
    | d i =>
      simp only [perform, pinEffect, pinWrite, react] at ht
      split at ht
      · cases ht; rfl
      · cases ht
    | weN =>
      simp only [perform, pinEffect, pinWrite, react] at ht
      split at ht
      · cases ht; rfl
      · split at ht
        · split at ht <;> cases ht <;> rfl
        · cases ht

/-- Only a change of direction moves DIR (R120). -/
theorem perform_dir {e : PinEvent} (h : notMode e = true) {s t : State} (ht : perform e s = .next t) : t.dir = s.dir := by
  cases e with
  | mode i d => cases h
  | delay w => cases w <;> cases ht <;> rfl
  | rd i =>
    simp only [perform, pinEffect, pinRead, State.afterDraw] at ht
    split at ht
    · cases ht
    · split at ht <;> cases ht <;> rfl
  | wr pin l =>
    cases pin with
    | ser => cases ht; rfl
    | srclk =>
      simp only [perform, pinEffect, pinWrite, react, andThen_next] at ht
      split at ht <;> cases ht <;> rfl
    | rclk =>
      simp only [perform, pinEffect, pinWrite, react, andThen_next] at ht
      split at ht <;> cases ht <;> rfl
    | d i =>
      simp only [perform, pinEffect, pinWrite, react] at ht
      split at ht
      · cases ht; rfl
      · cases ht
    | weN =>
      simp only [perform, pinEffect, pinWrite, react] at ht
      split at ht
      · cases ht; rfl
      · split at ht
        · split at ht <;> cases ht <;> rfl
        · cases ht

theorem keep_q {es : List PinEvent} (h : ∀ e ∈ es, notRclk e = true) {s t : State} (ht : performAll es s = .next t) : t.q = s.q :=
  performAll_keeps (P := fun v => v.q = s.q) (fun e he _ _ hP hh => (perform_q (h e he) hh).trans hP) rfl ht
theorem keep_dir {es : List PinEvent} (h : ∀ e ∈ es, notMode e = true) {s t : State} (ht : performAll es s = .next t) : t.dir = s.dir :=
  performAll_keeps (P := fun v => v.dir = s.dir) (fun e he _ _ hP hh => (perform_dir (h e he) hh).trans hP) rfl ht

end Sys2Proof.Machine
end

