-- ==== Sys2Proof/Laws/PerInstr.lean ====
section
/-! SUPPORT. One family of statements, one lemma per operation: where the encoded word lies in the opcode table
(30_encoding.md R107, R109). -/

namespace Sys2Proof.Laws.EncodedOp

/-- The encoded word carries the operation's code, lies under the operation's row of the table, and under no other. -/
def Statement (i : Instr) : Prop :=
  opField (encode i) = i.opCode ∧ ∀ r ∈ opcodeTable, r.accepts (encode i) = true ↔ r.mnemonic = i.mnemonic

theorem table_eq : opcodeTable =
    [ ⟨"SETADDR", 0x70000000000000000, (1 : BitVec 3) ++ (0 : BitVec 64)⟩,
      ⟨"READ", 0x70000000000000000, (2 : BitVec 3) ++ (0 : BitVec 64)⟩,
      ⟨"WRITE", 0x70000000000000000, (3 : BitVec 3) ++ (0 : BitVec 64)⟩,
      ⟨"WRITEBYTES", 0x70000000000000000, (4 : BitVec 3) ++ (0 : BitVec 64)⟩,
      ⟨"ERASEBYTES", 0x70000000000000000, (5 : BitVec 3) ++ (0 : BitVec 64)⟩,
      ⟨"DUMPRANGE", 0x70000000000000000, (6 : BitVec 3) ++ (0 : BitVec 64)⟩ ] := by decide

theorem of_code {i : Instr} {c : BitVec 3} (hc : i.opCode = c)
    (hm : ∀ r ∈ opcodeTable, opField r.pattern = c ↔ r.mnemonic = i.mnemonic) : Statement i := by
  have h : opField (encode i) = c := by rw [encode, opField_append, hc]
  refine ⟨by rw [h, hc], fun r hr => ?_⟩
  rw [← hm r hr]
  rw [table_eq] at hr
  simp only [List.mem_cons, List.not_mem_nil, or_false] at hr
  have key : ∀ y : BitVec 3, opField (y ++ (0 : BitVec 64)) = y := by decide
  rcases hr with rfl | rfl | rfl | rfl | rfl | rfl <;> rw [accepts_iff, key, h, eq_comm]

theorem setaddr (addr : Int) (oe : Bool) : Statement (.setaddr addr oe) := of_code rfl (by simp only [Instr.mnemonic, Instr.opCode]; decide)
theorem read (addr : Int) : Statement (.read addr) := of_code rfl (by simp only [Instr.mnemonic, Instr.opCode]; decide)
theorem write (addr byte : Int) : Statement (.write addr byte) := of_code rfl (by simp only [Instr.mnemonic, Instr.opCode]; decide)
theorem writebytes (start len : Int) : Statement (.writebytes start len) := of_code rfl (by simp only [Instr.mnemonic, Instr.opCode]; decide)
theorem erasebytes (start count : Int) : Statement (.erasebytes start count) :=
  of_code rfl (by simp only [Instr.mnemonic, Instr.opCode]; decide)
theorem dumprange (start count : Int) : Statement (.dumprange start count) :=
  of_code rfl (by simp only [Instr.mnemonic, Instr.opCode]; decide)

end Sys2Proof.Laws.EncodedOp
end

