-- ==== Sys2Proof/Laws/SpecForms.lean ====
section
/-! SUPPORT. The spec's own forms, in which the statements are written, beside the model's: the word, the traces, the checks, the
payload, the report. -/

namespace Sys2Proof.Machine

open Sys2Proof.Spec

theorem word_eq {a : Int} (h : 0 ≤ a) (h' : a ≤ 32767) (oe : Bool) : word a oe = addressWord a.toNat oe := by
  apply BitVec.eq_of_toNat_eq
  rw [addressWord_toNat (by omega), word, BitVec.toNat_ofNat]
  cases oe <;> simp <;> omega

/-- Bit k of the word is bit k - 8 of the first byte, or bit k of the second (R92). -/
theorem addressWord_high (a : Nat) (oe : Bool) {k : Nat} (_hk : k < 8) :
    (addressWord a oe).getLsbD (k + 8) = (highByte a oe).getLsbD k := by
  unfold addressWord
  rw [BitVec.getLsbD_append]
  simp

theorem addressWord_low (a : Nat) (oe : Bool) {k : Nat} (hk : k < 8) :
    (addressWord a oe).getLsbD k = (lowByte a).getLsbD k := by
  unfold addressWord
  rw [BitVec.getLsbD_append]
  simp [hk]

theorem setAddressTrace_eq (a : Nat) (oe : Bool) (v : Byte) :
    (setAddressEvents a oe).map (PinEvent.recordWith v) = setAddressTrace (addressWord a oe) := by
  simp only [setAddressEvents, shiftOut, latchPulse, setAddressTrace, List.flatMap_cons, List.flatMap_nil,
    List.map_cons, List.map_nil, PinEvent.recordWith, List.cons_append, List.nil_append, List.append_nil,
    addressWord_high a oe (k := 7) (by decide), addressWord_high a oe (k := 6) (by decide),
    addressWord_high a oe (k := 5) (by decide), addressWord_high a oe (k := 4) (by decide),
    addressWord_high a oe (k := 3) (by decide), addressWord_high a oe (k := 2) (by decide),
    addressWord_high a oe (k := 1) (by decide), addressWord_high a oe (k := 0) (by decide),
    addressWord_low a oe (k := 7) (by decide), addressWord_low a oe (k := 6) (by decide),
    addressWord_low a oe (k := 5) (by decide), addressWord_low a oe (k := 4) (by decide),
    addressWord_low a oe (k := 3) (by decide), addressWord_low a oe (k := 2) (by decide),
    addressWord_low a oe (k := 1) (by decide), addressWord_low a oe (k := 0) (by decide)]

theorem finRange_eq : List.finRange 8 = dataLines := by decide

theorem readTrace_eq {a : Int} (h : 0 ≤ a) (h' : a ≤ 32767) (v : Byte) :
    (readEvents a.toNat).map (PinEvent.recordWith v) = readTrace a v := by
  unfold readEvents readTrace
  rw [word_eq h h', List.map_append, List.map_append, setAddressTrace_eq, finRange_eq, setDirection, List.map_map,
    List.map_map]
  rfl

theorem writeTrace_eq {a : Int} (h : 0 ≤ a) (h' : a ≤ 32767) (b v : Byte) :
    (writeEvents a.toNat b).map (PinEvent.recordWith v) = writeTrace a b := by
  unfold writeEvents writeTrace
  rw [word_eq h h', List.map_append, List.map_append, List.map_append, setAddressTrace_eq, finRange_eq, setDirection, driveByte,
    List.map_map, List.map_map]
  rfl

theorem payloadOf_eq (s : State) (len : Int) : payloadOf s.pbuf len = (List.range len.toNat).map (element s) := rfl

/-- The checks of the model are those of R106. -/
theorem rejection_eq (s : State) (i : Instr) : rejection s i = checksOf s i := by
  have haddr : ∀ a : Int, (a < 0 ∨ a > s.cfg.n - 1) ↔ ¬ (0 ≤ a ∧ a < s.cfg.n) := by intro a; omega
  have hcount : ∀ a c : Int, (c < 0 ∨ a + c > s.cfg.n) ↔ ¬ (0 ≤ c ∧ a + c ≤ s.cfg.n) := by intro a c; omega
  have hbyte : ∀ v : Int, (v < 0 ∨ v > 255) ↔ ¬ isByte v = true := by
    intro v; simp only [isByte, decide_eq_true_eq]; omega
  have hbytes : ∀ len : Int, (∃ i ∈ List.range len.toNat, element s i < 0 ∨ element s i > 255) ↔
      ¬ (payloadOf s.pbuf len).all isByte = true := by
    intro len
    rw [payloadOf_eq]
    simp only [hbyte, List.all_eq_true, List.mem_map, not_forall]
    constructor
    · rintro ⟨i, hi, hv⟩; exact ⟨_, ⟨i, hi, rfl⟩, hv⟩
    · rintro ⟨v, ⟨i, hi, rfl⟩, hv⟩; exact ⟨i, hi, hv⟩
  cases i <;>
    simp only [rejection, checksOf, checkRead, checkWrite, checkWritebytes, checkErasebytes, checkDumprange, checkAddr, checkCount,
      checkByte, checkBytes, haddr, hcount, hbyte, ite_not]
  · split <;> simp
  · split <;> [split; skip] <;> [split; skip; skip] <;> simp_all
  · split <;> [split; skip] <;> simp_all
  · split <;> [split; skip] <;> simp_all

end Sys2Proof.Machine
end

