-- ==== Sys2Proof/Tests/Slice0.lean ====
section
/-! SUPPORT. The model's own tests: what WellFormed refuses, words written out from the spec's encodings, single steps whose
results stand in spec/95_test_vectors.md, and for each statement with hypotheses a state and operands that meet them all. -/

namespace Sys2Proof.Tests

set_option Elab.async false

open Sys2Proof.Machine Sys2Proof.Spec

/-! ### Well-formedness: each check refuses the first integer outside its field, on either side, and admits the last inside -/

theorem test_wf_setaddr : (Instr.setaddr 2147483648 true).wellFormed = false ∧
    (Instr.setaddr (-2147483649) false).wellFormed = false ∧ (Instr.setaddr 2147483647 true).wellFormed = true := by decide
theorem test_wf_read : (Instr.read 2147483648).wellFormed = false ∧ (Instr.read (-2147483649)).wellFormed = false ∧
    (Instr.read (-2147483648)).wellFormed = true := by decide
theorem test_wf_write : (Instr.write 2147483648 0).wellFormed = false ∧ (Instr.write 0 2147483648).wellFormed = false ∧
    (Instr.write 0 (-2147483649)).wellFormed = false ∧ (Instr.write (-1) 256).wellFormed = true := by decide
theorem test_wf_writebytes : (Instr.writebytes (-2147483649) 0).wellFormed = false ∧
    (Instr.writebytes 0 2147483648).wellFormed = false ∧ (Instr.writebytes 0 (-1)).wellFormed = true := by decide
theorem test_wf_erasebytes : (Instr.erasebytes 2147483648 0).wellFormed = false ∧
    (Instr.erasebytes 0 (-2147483649)).wellFormed = false ∧ (Instr.erasebytes 4 (-1)).wellFormed = true := by decide
theorem test_wf_dumprange : (Instr.dumprange 2147483648 0).wellFormed = false ∧
    (Instr.dumprange 0 2147483648).wellFormed = false ∧ (Instr.dumprange 0 2049).wellFormed = true := by decide

/-! ### Decoding: words written from R103, R104, R107 (op, addr, arg); the sources are the ids of spec/95_test_vectors.md -/

/-- A6; A15: arg[31:1] is ignored. -/
theorem test_decode_setaddr :
    decode ((0b001 : BitVec 3) ++ ((0x00000123 : BitVec 32) ++ (0x00000000 : BitVec 32))) = .ok (.setaddr 0x123 false) ∧
    decode ((0b001 : BitVec 3) ++ ((0x00000123 : BitVec 32) ++ (0xFFFFFFFF : BitVec 32))) = .ok (.setaddr 0x123 true) := by
  decide
/-- Rd8: the address is signed; Rd9: arg is ignored. -/
theorem test_decode_read : decode 0x2FFFFFFFF00000000 = .ok (.read (-1)) ∧
    decode ((0b010 : BitVec 3) ++ ((0x00000005 : BitVec 32) ++ (0x12345678 : BitVec 32))) = .ok (.read 5) := by decide
/-- W5, E7. -/
theorem test_decode_write :
    decode ((0b011 : BitVec 3) ++ ((0x00000005 : BitVec 32) ++ (0x000000A5 : BitVec 32))) = .ok (.write 5 0xA5) ∧
    decode 0x300000000FFFFFFFF = .ok (.write 0 (-1)) := by decide
/-- B1, B5. -/
theorem test_decode_writebytes :
    decode ((0b100 : BitVec 3) ++ ((0x00000000 : BitVec 32) ++ (0x00000004 : BitVec 32))) = .ok (.writebytes 0 4) ∧
    decode 0x4FFFFFFFB00000000 = .ok (.writebytes (-5) 0) := by decide
/-- B12, B11. -/
theorem test_decode_erasebytes :
    decode ((0b101 : BitVec 3) ++ ((0x000007F0 : BitVec 32) ++ (0x00000010 : BitVec 32))) = .ok (.erasebytes 0x7F0 16) ∧
    decode 0x500000004FFFFFFFF = .ok (.erasebytes 4 (-1)) := by decide
/-- B19, B18. -/
theorem test_decode_dumprange :
    decode ((0b110 : BitVec 3) ++ ((0x00000005 : BitVec 32) ++ (0x00000014 : BitVec 32))) = .ok (.dumprange 5 20) ∧
    decode 0x60000000000000801 = .ok (.dumprange 0 2049) := by decide
/-- X1, X3; a number of 68 bits is no command word. -/
theorem test_decode_rejects : decode 0 = .error (.reservedOp 0) ∧ decode 0x7FFFFFFFFFFFFFFFF = .error (.reservedOp 7) ∧
    decodeNat (2 ^ 67) = .error .notACommandWord := by decide
/-- The host's numbering: bit 0 is cmd[0]. -/
theorem test_decode_table_word : decodeTableWord 67 0x300000005000000A5 = some (.write 5 0xA5) ∧
    decodeTableWord 72 0x500000000000000000 = none ∧ decodeTableWord 67 0 = none := by decide

/-! ### Single steps -/

/-- The state the vectors start from (conventions of Part 3 of the vectors: SR = 0xBEEF, Q = 0x5A5A), with some cells. -/
def start (cells : Memory) : State := { State.reset with sr := 0xBEEF, q := 0x5A5A, mem := cells }

/-- The state with a command presented. -/
def present (w : CmdWord) (s : State) : State := { s with inputs := [.command w] }

/-- The step answers a next state with this property. -/
def after (s : State) (p : State → Bool) : Bool :=
  match step s with
  | .next t => p t
  | .fault _ => false
  | .refused _ => false

/-- A7: W = 0x9234, OE_n HIGH, the EEPROM selects 0x234. -/
theorem test_setaddr_A7 : after (present 0x10000123400000000 (start [])) (fun t =>
    t.sr == 0x9234 && t.q == 0x9234 && !t.ser && t.oeN && t.cell == 0x234 && t.trace.length == 50 && t.err == .ok) = true := by
  decide +kernel
/-- A14: refused. -/
theorem test_setaddr_A14 : exec (.setaddr 32768 true) (start []) = .refused .addressBeyond15Bits ∧
    decode 0x10000800000000001 = .ok (.setaddr 32768 true) := ⟨rfl, by decide⟩
/-- Rd3: cell 5 holds 0x26; the samples D0..D7 are 0,1,1,0,0,1,0,0. -/
theorem test_read_Rd3 : after (present 0x20000000500000000 (start [(5, 0x26)])) (fun t =>
    t.rdata == 0x26 && t.q == 0x0005 && t.ser && t.dir == 0x00 && t.rspErr == 0 && t.trace.drop 58 ==
      [.rd 0 false, .rd 1 true, .rd 2 true, .rd 3 false, .rd 4 false, .rd 5 true, .rd 6 false, .rd 7 false]) = true := by
  decide +kernel
/-- Rd7: the address N is rejected, with the empty trace. -/
theorem test_read_Rd7 : after (present 0x20000080000000000 (start [])) (fun t =>
    t.rspErr == 1 && t.trace == [] && t.q == 0x5A5A) = true := by decide +kernel
/-- W3: the last cell; the data writes D0..D7 are 1,0,0,0,0,0,0,1. -/
theorem test_write_W3 : after (present 0x3000007FF00000081 (start [])) (fun t =>
    t.mem == [(0x7FF, 0x81)] && t.dout == 0x81 && t.q == 0x87FF && t.ser && t.dir == 0xFF && t.weN && !t.wbusy &&
    t.trace.drop 58 == [.wr (.d 0) true, .wr (.d 1) false, .wr (.d 2) false, .wr (.d 3) false, .wr (.d 4) false,
      .wr (.d 5) false, .wr (.d 6) false, .wr (.d 7) true, .wr .weN LOW, .delay .tWp, .wr .weN HIGH, .delay .tWc]) = true := by
  decide +kernel
/-- E4: the address is checked first. -/
theorem test_write_E4 : after (present 0x3FFFFFFFF00000100 (start [(3, 0x10)])) (fun t =>
    t.err == .addrRange && t.trace == [] && t.mem == [(3, 0x10)]) = true := by decide +kernel
/-- B1: four writes; the second byte is at the second address. -/
theorem test_writebytes_B1 :
    ∃ t, exec (.writebytes 0 4) { start [] with pbuf := [(0, 0xCA), (1, 0xFE), (2, 0xBA), (3, 0xBE)] } = .next t ∧
      t.mem = [(0, 0xCA), (1, 0xFE), (2, 0xBA), (3, 0xBE)] ∧ t.q = 0x8003 ∧ t.err = .ok ∧ t.trace.length = 280 :=
  ⟨_, exec_writebytes rfl rfl (by decide) rfl (by decide), by decide +kernel⟩
/-- B4: the count is checked before the data. -/
theorem test_writebytes_B4 : after { present 0x4000007FF00000002 (start []) with pbuf := [(0, 256)] } (fun t =>
    t.err == .countRange && t.mem == [] && t.trace == []) = true := by decide +kernel
/-- B15: two cells take 0xFF. -/
theorem test_erasebytes_B15 : ∃ t, exec (.erasebytes 3 2) (start [(4, 0x11), (5, 0x22)]) = .next t ∧
    t.mem = [(3, 0xFF), (4, 0xFF), (5, 0x22)] ∧ t.err = .ok ∧ t.trace.length = 140 :=
  ⟨_, exec_erasebytes rfl rfl (by decide) rfl (by decide), by decide +kernel⟩
/-- B13: one past the end. -/
theorem test_erasebytes_B13 : after (present 0x5000007F000000011 (start [])) (fun t =>
    t.rspErr == 2 && t.mem == []) = true := by decide +kernel
/-- B21, seventeen cells from 0: a second row of one byte. -/
theorem test_dumprange_B21 : ∃ t, exec (.dumprange 0 17) (start [(1, 0x0A), (16, 0x73)]) = .next t ∧
    t.rspItems.length = 19 ∧ t.rspItems.take 3 = [.rowBase 0, .byte 0, .byte 0x0A] ∧
    t.rspItems.drop 17 = [.rowBase 16, .byte 0x73] ∧ t.rdata = 0x73 ∧ t.trace.length = 1122 :=
  ⟨_, exec_dumprange rfl rfl (by decide) (by decide), by decide +kernel⟩
/-- B16: nothing to dump, no row base. -/
theorem test_dumprange_B16 : after (present 0x60000000000000000 (start [])) (fun t =>
    t.rspItems == [] && t.trace == [] && t.err == .ok) = true := by decide +kernel
/-- X2. -/
theorem test_reserved_X2 : after (present 0x70000000000000000 (start [])) (fun t =>
    t.rspErr == 4 && t.trace == [] && t.q == 0x5A5A) = true := by decide +kernel
/-- The table of R191. -/
theorem test_result_codes : [ResultCode.ok, .addrRange, .countRange, .dataRange, .illegalOp].map ResultCode.bits = [0, 1, 2, 3, 4] := by
  decide
/-- Item encodings (R105). -/
theorem test_items : Item.encode (.rowBase 2030) = 0x007EE ∧ Item.encode (.byte 0xCA) = 0x100CA := by decide
/-- V5: ShiftOut(0x80) moves the old low byte up. -/
theorem test_shiftOut_V5 : (match performAll (shiftOut 0x80) { State.reset with sr := 0x00FF } with
    | .next t => t.sr == 0xFF80 && !t.ser
    | .fault _ => false
    | .refused _ => false) = true := by decide +kernel
/-- The word that `withFetchWord` places is the one the next step runs. -/
theorem test_withFetchWord : after (State.reset.withFetchWord 67 0x300000005000000A5) (fun t =>
    t.mem == [(5, 0xA5)] && t.inputs == []) = true := by decide +kernel

/-! ### Witnesses: for each statement with hypotheses, a state and operands that meet them all -/

theorem reset_ready : ready State.reset := ⟨rfl, rfl⟩
theorem reset_wf : State.reset.cfg.wf = true := by decide
theorem reset_stores : State.reset.storesCanonical = true := by decide

/-- An idle, initialised state whose device is still in a write cycle. -/
def deviceBusy : State := { State.reset with wbusy := true, mem := [(7, 0x42)] }
/-- A payload of bytes, and one with a value that is no byte. -/
def loaded : State := { State.reset with pbuf := [(0, 0xCA), (1, 0xFF)] }
def overfull : State := { State.reset with pbuf := [(1, 256)] }
def erasePayload : State := { State.reset with pbuf := [(0, 0xFF), (1, 0xFF)] }
/-- A state right after acceptance of a WRITE: an operation is running. -/
def running : State := begun State.reset (.write 5 0xA5)
/-- The same, three events before its end: the strobe is LOW. -/
def inPulse : State :=
  { running with phase := [.delay .tWp, .wr .weN HIGH, .delay .tWc], weN := LOW, q := 0x8005, sr := 0x8005, dir := 0xFF, dout := 0xA5 }

theorem witness_DecodeInvertsEncode : (Instr.write (-2147483648) 2147483647).wellFormed = true ∧
    (Instr.setaddr 2147483647 true).wellFormed = true := by decide
theorem witness_TableRowsSelectTheOperation :
    decode 0x20000000000000000 = .ok (.read 0) ∧ decode 0x70000000000000000 = .error (.reservedOp 7) ∧
    decode 0 = .error (.reservedOp 0) ∧ opcodeTable.length = 6 := by decide
theorem witness_SerializedWordValue : (0 : Nat) ≤ 32767 ∧ (32767 : Nat) ≤ 32767 := by decide
theorem witness_ItemsAtThePort : (32767 : Nat) ≤ 32767 := by decide
theorem witness_ShiftOutMovesAByteIn : State.reset.srclk = LOW ∧ (7 : Nat) < 8 ∧ (0 : Nat) < 8 := by decide
theorem witness_LatchPulseCopiesStages : State.reset.rclk = LOW := by decide
theorem witness_OnlyEdgesMoveTheDevices :
    State.reset.srclk = LOW ∧ ({ State.reset with srclk := HIGH } : State).srclk = HIGH ∧ State.reset.rclk = LOW ∧
    ({ State.reset with rclk := HIGH } : State).rclk = HIGH ∧ (14 : Nat) < 15 := by decide
/-- The five lines: the block alone, both, the EEPROM alone, nobody (floating; device busy). -/
theorem witness_DataBusResolution :
    (let s : State := { State.reset with dir := 0xFF, q := 0x8000 }; s.dir.getLsbD 7 = OUTPUT ∧ s.oeN = HIGH) ∧
    (let s : State := { State.reset with dir := 0xFF, q := 0 }; s.dir.getLsbD 7 = OUTPUT ∧ s.oeN = LOW) ∧
    (let s : State := State.reset; s.dir.getLsbD 0 = INPUT ∧ s.oeN = LOW ∧ s.wbusy = false) ∧
    (let s : State := { State.reset with q := 0x8000 }; s.dir.getLsbD 0 = INPUT ∧ s.oeN = HIGH) ∧
    (deviceBusy.dir.getLsbD 7 = INPUT ∧ deviceBusy.wbusy = true) := by decide
theorem witness_SampleReturnsTheBus : ∃ t, perform (.rd 7) State.reset = .next t := ⟨_, rfl⟩
/-- Both edges allowed; an edge not allowed because the device is busy, the bus driven, a line an input. -/
theorem witness_StrobeEdgeStoresOrIsRefused :
    (let s : State := { State.reset with dir := 0xFF, q := 0x8000 }
     (s.oeN = HIGH ∧ s.dir = BitVec.allOnes 8 ∧ s.wbusy = false) ∧ s.weN = HIGH) ∧
    (let s : State := { State.reset with dir := 0xFF, q := 0x8000, weN := LOW }
     (s.oeN = HIGH ∧ s.dir = BitVec.allOnes 8 ∧ s.wbusy = false) ∧ s.weN = LOW) ∧
    (¬ (State.reset.oeN = HIGH ∧ State.reset.dir = BitVec.allOnes 8 ∧ State.reset.wbusy = false) ∧ LOW ≠ State.reset.weN) := by
  decide
theorem witness_LineDirectionGuardsItsUse :
    State.reset.dir.getLsbD 0 = INPUT ∧ ({ State.reset with dir := 0xFF } : State).dir.getLsbD 7 = OUTPUT := by decide
theorem witness_SetaddrFollowsItsRule : ready State.reset ∧ (0 : Int) ≤ 0 ∧ (0 : Int) ≤ 32767 ∧ (32767 : Int) ≤ 32767 :=
  ⟨reset_ready, by decide⟩
theorem witness_SetaddrBeyond15BitsIsRefused : State.reset.inited = true ∧ State.reset.busy = false ∧
    ((-1 : Int) < 0 ∨ (-1 : Int) > 32767) ∧ ((32768 : Int) < 0 ∨ (32768 : Int) > 32767) := by decide
theorem witness_SetaddrTraceDecodesBack : ready State.reset ∧ (0 : Int) ≤ 32767 ∧ (32767 : Int) ≤ 32767 :=
  ⟨reset_ready, by decide⟩
theorem witness_SetaddrSelectsModuloN : ready State.reset ∧ State.reset.cfg.wf = true ∧
    (State.reset.cfg.n : Int) ≤ 2048 ∧ (State.reset.cfg.n : Int) ≤ 32767 ∧ (2048 : Int) ≤ 32767 :=
  ⟨reset_ready, by decide⟩
theorem witness_SetaddrPresentsAtomically : ready State.reset ∧ (0 : Int) ≤ 0x7FFF ∧ (0x7FFF : Int) ≤ 32767 ∧
    (0 : Nat) ≤ 50 ∧ (48 : Nat) ≤ 50 ∧ (49 : Nat) ≤ 50 := ⟨reset_ready, by decide⟩
/-- The legal branch at both ends, and the rejected one on both sides. -/
theorem witness_ReadFollowsItsRule : ready State.reset ∧ State.reset.cfg.wf = true ∧ State.reset.wbusy = false ∧
    ((0 : Int) ≤ 2047 ∧ (2047 : Int) ≤ State.reset.cfg.n - 1) ∧ ¬ ((0 : Int) ≤ 2048 ∧ (2048 : Int) ≤ State.reset.cfg.n - 1) ∧
    ¬ ((0 : Int) ≤ -1 ∧ (-1 : Int) ≤ State.reset.cfg.n - 1) := ⟨reset_ready, by decide⟩
theorem witness_ReadOfABusyDeviceCompletes : ready deviceBusy ∧ deviceBusy.cfg.wf = true ∧ deviceBusy.wbusy = true ∧
    (0 : Int) ≤ 2047 ∧ (2047 : Int) ≤ deviceBusy.cfg.n - 1 := ⟨⟨rfl, rfl⟩, by decide⟩
theorem witness_WriteFollowsItsRule : ready State.reset ∧ State.reset.cfg.wf = true ∧ State.reset.storesCanonical = true ∧
    State.reset.wbusy = false ∧ ¬ ((0 : Int) ≤ 2048 ∧ (2048 : Int) ≤ State.reset.cfg.n - 1) ∧
    ((0 : Int) ≤ 2047 ∧ (2047 : Int) ≤ State.reset.cfg.n - 1) ∧ ¬ ((0 : Int) ≤ 256 ∧ (256 : Int) ≤ 255) ∧
    ¬ ((0 : Int) ≤ -1 ∧ (-1 : Int) ≤ 255) ∧ ((0 : Int) ≤ 255 ∧ (255 : Int) ≤ 255) := ⟨reset_ready, by decide⟩
theorem witness_WriteToABusyDeviceIsRefused : ready deviceBusy ∧ deviceBusy.cfg.wf = true ∧ deviceBusy.wbusy = true ∧
    (0 : Int) ≤ 0 ∧ (0 : Int) ≤ deviceBusy.cfg.n - 1 ∧ (0 : Int) ≤ 255 ∧ (255 : Int) ≤ 255 := ⟨⟨rfl, rfl⟩, by decide⟩
/-- OE_n LOW before it, and HIGH before it; the last event of the window and the first after it. -/
theorem witness_WriteContentionWindow : ready State.reset ∧ State.reset.oeN = LOW ∧
    ready { State.reset with q := 0x8000 } ∧ ({ State.reset with q := 0x8000 } : State).oeN = HIGH ∧
    State.reset.cfg.wf = true ∧ State.reset.wbusy = false ∧ (0 : Int) ≤ 5 ∧ (5 : Int) ≤ State.reset.cfg.n - 1 ∧
    (0 : Int) ≤ 0xA5 ∧ (0xA5 : Int) ≤ 255 ∧ (55 : Nat) < 70 ∧ (56 : Nat) < 70 :=
  ⟨reset_ready, rfl, ⟨rfl, rfl⟩, by decide⟩
theorem witness_ReadEndsContentionAtItsDirections : ready { State.reset with dir := 0xFF } ∧ State.reset.cfg.wf = true ∧
    (0 : Int) ≤ 5 ∧ (5 : Int) ≤ State.reset.cfg.n - 1 ∧ (7 : Nat) ≤ 7 ∧ (7 : Nat) < 66 ∧ (7 : Nat) ≤ 65 ∧ (65 : Nat) < 66 :=
  ⟨⟨rfl, rfl⟩, by decide⟩
theorem witness_WriteHoldsAddressAndDataAcrossStrobe : ready State.reset ∧ State.reset.cfg.wf = true ∧
    State.reset.wbusy = false ∧ (0 : Int) ≤ 2047 ∧ (2047 : Int) ≤ State.reset.cfg.n - 1 ∧ (0 : Int) ≤ 255 ∧ (255 : Int) ≤ 255 ∧
    (65 : Nat) ≤ 65 ∧ (65 : Nat) ≤ 68 ∧ (65 : Nat) ≤ 68 ∧ (68 : Nat) ≤ 68 := ⟨reset_ready, by decide⟩
theorem witness_WriteThenReadReturnsTheByte : ready State.reset ∧ State.reset.cfg.wf = true ∧
    State.reset.storesCanonical = true ∧ State.reset.wbusy = false ∧ (0 : Int) ≤ 2047 ∧ (2047 : Int) ≤ State.reset.cfg.n - 1 ∧
    (0 : Int) ≤ 255 ∧ (255 : Int) ≤ 255 := ⟨reset_ready, by decide⟩
/-- Operations between: a write and an erase of other cells, a read, and a write and an erase of this cell that are rejected; one
run. -/
theorem witness_ReadReturnsTheLastWrite : ready State.reset ∧ State.reset.cfg.wf = true ∧
    State.reset.storesCanonical = true ∧ State.reset.wbusy = false ∧ (0 : Int) ≤ 5 ∧ (5 : Int) ≤ State.reset.cfg.n - 1 ∧
    (0 : Int) ≤ 255 ∧ (255 : Int) ≤ 255 ∧
    (∀ i ∈ [Instr.write 6 1, Instr.erasebytes 6 2, Instr.read 5, Instr.write 5 256, Instr.erasebytes 5 2044],
      storesTo i (5 : Int).toNat → rejection State.reset i ≠ none) ∧
    ∃ t u, exec (.write 5 255) State.reset = .next t ∧ execAll [.read 5] t = .next u := by
  refine ⟨reset_ready, by decide, by decide, by decide, by decide, by decide, by decide, by decide, ?_, ?_⟩
  · intro i hi
    simp only [List.mem_cons, List.not_mem_nil, or_false] at hi
    rcases hi with rfl | rfl | rfl | rfl | rfl <;> intro h <;> first | decide | simp [storesTo] at h
  · have hw := exec_write (s := State.reset) (addr := 5) (byte := 255) rfl rfl (by decide) rfl (by decide) (by decide)
      (by decide) (by decide)
    refine ⟨_, _, hw, (congrArg (fun r => andThen r (execAll []))
      (exec_read (addr := 5) rfl rfl ?_ rfl ?_ ?_)).trans rfl⟩ <;> decide
theorem witness_StoresCommuteOrOverwrite : ready State.reset ∧ State.reset.cfg.wf = true ∧
    State.reset.storesCanonical = true ∧ State.reset.wbusy = false ∧ (0 : Int) ≤ 0 ∧ (0 : Int) ≤ State.reset.cfg.n - 1 ∧
    (0 : Int) ≤ 2047 ∧ (2047 : Int) ≤ State.reset.cfg.n - 1 ∧ (0 : Int) ≤ 255 ∧ (255 : Int) ≤ 255 ∧ (0 : Int) ≠ 2047 :=
  ⟨reset_ready, by decide⟩
/-- Two bytes that end exactly at N, and nothing to write. -/
theorem witness_WritebytesFollowsItsRule : ready loaded ∧ loaded.cfg.wf = true ∧ loaded.storesCanonical = true ∧
    loaded.wbusy = false ∧ rejection loaded (.writebytes 2046 2) = none ∧ rejection loaded (.writebytes 2047 0) = none :=
  ⟨⟨rfl, rfl⟩, by decide⟩
theorem witness_ErasebytesFollowsItsRule : ready State.reset ∧ State.reset.cfg.wf = true ∧
    State.reset.storesCanonical = true ∧ State.reset.wbusy = false ∧ rejection State.reset (.erasebytes 0 2048) = none ∧
    rejection State.reset (.erasebytes 0 0) = none := ⟨reset_ready, by decide⟩
theorem witness_DumprangeFollowsItsRule : ready State.reset ∧ State.reset.cfg.wf = true ∧ State.reset.wbusy = false ∧
    rejection State.reset (.dumprange 0 2048) = none ∧ rejection State.reset (.dumprange 2047 0) = none :=
  ⟨reset_ready, by decide⟩
theorem witness_DumprangeOfABusyDeviceCompletes : ready deviceBusy ∧ deviceBusy.cfg.wf = true ∧ deviceBusy.wbusy = true ∧
    rejection deviceBusy (.dumprange 5 17) = none ∧ (16 : Nat) < (17 : Int).toNat := ⟨⟨rfl, rfl⟩, by decide⟩
theorem witness_BulkWriteToABusyDevice : ready deviceBusy ∧ deviceBusy.cfg.wf = true ∧ deviceBusy.wbusy = true ∧
    rejection deviceBusy (.writebytes 5 1) = none ∧ rejection deviceBusy (.erasebytes 5 1) = none ∧ (0 : Int) < 1 ∧
    rejection deviceBusy (.writebytes 5 0) = none ∧ rejection deviceBusy (.erasebytes 5 0) = none := ⟨⟨rfl, rfl⟩, by decide⟩
/-- Accepted, and rejected. -/
theorem witness_EraseIsAConstantWrite : ready erasePayload ∧ erasePayload.cfg.wf = true ∧
    erasePayload.storesCanonical = true ∧ erasePayload.wbusy = false ∧ (∀ i < (2 : Int).toNat, element erasePayload i = 0xFF) ∧
    rejection erasePayload (.erasebytes 3 2) = none ∧ rejection erasePayload (.erasebytes 2047 2) = some .countRange :=
  ⟨⟨rfl, rfl⟩, by decide⟩
theorem witness_BulkWriteLeavesAPrefix : ready loaded ∧ loaded.cfg.wf = true ∧ loaded.storesCanonical = true ∧
    loaded.wbusy = false ∧ rejection loaded (.writebytes 0 2) = none ∧ rejection loaded (.erasebytes 0 2) = none ∧
    (∃ new : Nat → Byte, ∀ j, new j = BitVec.ofNat 8 (element loaded j).toNat) ∧ (∃ new : Nat → Byte, ∀ j, new j = 0xFF) ∧
    (0 : Nat) ≤ (2 : Int).toNat ∧ (2 : Nat) ≤ (2 : Int).toNat :=
  ⟨⟨rfl, rfl⟩, by decide, by decide, by decide, by decide, by decide, ⟨_, fun _ => rfl⟩, ⟨_, fun _ => rfl⟩, by decide, by decide⟩
/-- Each operation that checks, each code, each side of each range. -/
theorem witness_RejectionChangesOnlyErr : overfull.inited = true ∧ overfull.busy = false ∧
    rejection overfull (.read (-1)) = some .addrRange ∧ rejection overfull (.read 2048) = some .addrRange ∧
    rejection overfull (.write (-1) 256) = some .addrRange ∧ rejection overfull (.write 0 256) = some .dataRange ∧
    rejection overfull (.write 0 (-1)) = some .dataRange ∧ rejection overfull (.writebytes (-5) 0) = some .addrRange ∧
    rejection overfull (.writebytes 2047 2) = some .countRange ∧ rejection overfull (.writebytes 0 (-1)) = some .countRange ∧
    rejection overfull (.writebytes 0 2) = some .dataRange ∧ rejection overfull (.erasebytes 2048 0) = some .addrRange ∧
    rejection overfull (.erasebytes 4 (-1)) = some .countRange ∧ rejection overfull (.erasebytes 2032 17) = some .countRange ∧
    rejection overfull (.dumprange 2048 0) = some .addrRange ∧ rejection overfull (.dumprange 0 2049) = some .countRange ∧
    rejection State.reset (.read 2047) = none ∧ ∃ t, exec (.read 2047) State.reset = .next t :=
  ⟨rfl, rfl, by decide, by decide, by decide, by decide, by decide, by decide, by decide, by decide, by decide, by decide, by decide,
    by decide, by decide, by decide, by decide, _, exec_read rfl rfl (by decide) rfl (by decide) (by decide)⟩
theorem witness_ReservedCodesAnswerIllegalOp :
    (present 0x70000000000000000 State.reset).inited = true ∧ (present 0x70000000000000000 State.reset).busy = false ∧
    (present 0x70000000000000000 State.reset).inputs = [.command 0x70000000000000000] ∧ opField 0x70000000000000000 = 7 ∧
    opField 0 = 0 := by decide
theorem witness_OperationsBeforeResetAreRefused : ({ State.reset with inited := false } : State).inited = false ∧
    ({ State.reset with inited := false } : State).busy = false ∧
    (present 0x20000000000000000 { State.reset with inited := false }).inputs = [.command 0x20000000000000000] := by decide
theorem witness_FrameOfOperationsThatStoreNothing : ready State.reset ∧ State.reset.cfg.wf = true ∧
    (∃ t, exec (.setaddr 5 true) State.reset = .next t) ∧ (∃ t, exec (.read 5) State.reset = .next t) ∧
    ∃ t, exec (.dumprange 5 20) State.reset = .next t :=
  ⟨reset_ready, by decide, ⟨_, exec_setaddr rfl rfl (by decide) (by decide)⟩,
    ⟨_, exec_read rfl rfl (by decide) rfl (by decide) (by decide)⟩, ⟨_, exec_dumprange rfl rfl (by decide) (by decide)⟩⟩
theorem witness_FrameOfOperationsThatStore : ready loaded ∧ loaded.cfg.wf = true ∧ loaded.storesCanonical = true ∧
    (∃ t, exec (.write 5 255) loaded = .next t) ∧ (∃ t, exec (.writebytes 5 2) loaded = .next t) ∧
    (∃ t, exec (.erasebytes 5 20) loaded = .next t) ∧ ¬ storesTo (.write 5 255) 6 ∧ ¬ storesTo (.writebytes 5 2) 7 ∧
    ¬ storesTo (.erasebytes 5 20) 4 :=
  ⟨⟨rfl, rfl⟩, by decide, by decide, ⟨_, exec_write rfl rfl (by decide) rfl (by decide) (by decide) (by decide) (by decide)⟩,
    ⟨_, exec_writebytes rfl rfl (by decide) rfl (by decide)⟩, ⟨_, exec_erasebytes rfl rfl (by decide) rfl (by decide)⟩,
    by simp [storesTo], by simp [storesTo], by simp [storesTo]⟩
/-- Two states that differ in the array, the shift register and the directions. -/
theorem witness_EventListIgnoresTheState :
    (let s' : State := { State.reset with mem := [(5, 1)], q := 0x8005, sr := 0x8005, dir := 0xFF }
     ready State.reset ∧ ready s' ∧ State.reset.cfg = s'.cfg ∧ State.reset.cfg.wf = true ∧ State.reset.pbuf = s'.pbuf ∧
     ∃ t t', exec (.read 5) State.reset = .next t ∧ exec (.read 5) s' = .next t') :=
  ⟨reset_ready, ⟨rfl, rfl⟩, rfl, by decide, rfl, _, _, exec_read rfl rfl (by decide) rfl (by decide) (by decide),
    exec_read rfl rfl (by decide) rfl (by decide) (by decide)⟩
theorem witness_ResetDrawsAreForgotten : ready State.reset ∧ State.reset.cfg.wf = true ∧ State.reset.wbusy = false ∧
    rejection State.reset (.setaddr 32767 true) = none ∧ rejection State.reset (.read 2047) = none ∧
    rejection State.reset (.write 2047 255) = none ∧ (0 : Int) ≤ 32767 ∧ (32767 : Int) ≤ 32767 ∧ (0 : Int) < 1 ∧
    rejection State.reset (.writebytes 2047 1) = none ∧ rejection State.reset (.erasebytes 2047 1) = none ∧
    rejection State.reset (.dumprange 2047 1) = none := ⟨reset_ready, by decide⟩
theorem witness_OperationsEndQuiet : ready State.reset ∧ (∃ t, exec (.read 5) State.reset = .next t) ∧
    ∃ t, exec (.read 2048) State.reset = .next t :=
  ⟨reset_ready, ⟨_, exec_read rfl rfl (by decide) rfl (by decide) (by decide)⟩, ⟨_, exec_rejected rfl rfl (code := .addrRange) (by decide)⟩⟩

theorem running_onPlan : running.onPlan :=
  onPlan_begun (i := .write 5 0xA5) trivial (by decide)
theorem running_quietInv : running.quietInv :=
  quietInv_accept (i := .write 5 0xA5) (s := State.reset) rfl rfl
    (accept_begun (i := .write 5 0xA5) rfl trivial (by decide))
theorem step_running : ∃ t, step running = .next t := ⟨_, rfl⟩
/-- Idle, and inside an operation. -/
theorem witness_StepKeepsTheQuietState : State.reset.quietInv ∧ (∃ t, step State.reset = .next t) ∧ running.quietInv ∧
    running.busy = true ∧ ∃ t, step running = .next t := ⟨rfl, ⟨_, rfl⟩, running_quietInv, rfl, step_running⟩
theorem witness_StepKeepsTheStoresCanonical : running.storesCanonical = true ∧ (∃ t, step running = .next t) ∧
    inPulse.storesCanonical = true ∧ ∃ t, step inPulse = .next t := ⟨by decide, step_running, by decide, ⟨_, rfl⟩⟩
theorem witness_StepKeepsTheSequencerInPlace : State.reset.sequencerInv ∧ (∃ t, step State.reset = .next t) ∧
    running.sequencerInv ∧ running.busy = true ∧ ∃ t, step running = .next t :=
  ⟨(by intro h; cases h), ⟨_, rfl⟩, sequencerInv_of_onPlan running_onPlan, rfl, step_running⟩
theorem witness_ConfigurationNeverChanges : ∃ t, step running = .next t := step_running
theorem witness_ArrayHoldsWhatIsWritten : Memory.wf [(5, 0xA5)] = true ∧
    ∃ m' : Memory, Memory.wf m' = true ∧ ∀ c, Memory.read [(5, 0xA5)] c = Memory.read m' c :=
  ⟨by decide, [(5, 0xA5)], by decide, fun _ => rfl⟩
theorem witness_WritesWaitForTheDevice : ready State.reset ∧ State.reset.cfg.wf = true ∧
    rejection State.reset (.write 5 255) = none ∧ rejection State.reset (.erasebytes 5 20) = none ∧
    (∃ t, exec (.write 5 255) State.reset = .next t) ∧ ∃ t, exec (.erasebytes 5 20) State.reset = .next t :=
  ⟨reset_ready, by decide, by decide, by decide,
    ⟨_, exec_write rfl rfl (by decide) rfl (by decide) (by decide) (by decide) (by decide)⟩,
    ⟨_, exec_erasebytes rfl rfl (by decide) rfl (by decide)⟩⟩
/-- Idle, and inside the write pulse. -/
theorem witness_ResetFromAnyState : State.reset.storesCanonical = true ∧ State.reset.inStrobe = false ∧
    inPulse.storesCanonical = true ∧ inPulse.inStrobe = true := by decide
theorem witness_StepRunsTheDecodedOperation :
    (let s := present 0x20000000500000000 State.reset
     s.busy = false ∧ s.inited = true ∧ s.inputs = [.command 0x20000000500000000] ∧
     decode 0x20000000500000000 = .ok (.read 5) ∧
     ∀ n r, ([] : List HostInput) ≠ .reset n :: r ∧ ([] : List HostInput) ≠ .powerLoss n :: r) ∧
    ∃ n r, ([.reset 3] : List HostInput) = .reset n :: r ∨ ([.reset 3] : List HostInput) = .powerLoss n :: r :=
  ⟨⟨rfl, rfl, rfl, by decide, fun _ _ => ⟨by simp, by simp⟩⟩, ⟨3, [], .inl rfl⟩⟩
theorem witness_ExecIsAcceptanceThenItsEvents : State.reset.busy = false ∧ accept (.write 5 0xA5) State.reset = .next running :=
  ⟨rfl, accept_begun (i := .write 5 0xA5) rfl trivial (by decide)⟩
theorem witness_CommandWaitsWhileBusy : running.busy = true ∧ running.inputs = [] ∧
    ({ running with inputs := [.command 0] } : State).inputs = [.command 0] ∧
    ({ running with inputs := [.payload 0 0] } : State).inputs = [.payload 0 0] ∧
    ({ running with inputs := [.settle] } : State).inputs = [.settle] ∧ (∃ t, step running = .next t) ∧
    ({ running with inputs := [.reset 1] } : State).inputs = [.reset (0 + 1)] ∧
    ({ running with inputs := [.powerLoss 1] } : State).inputs = [.powerLoss (0 + 1)] ∧
    ({ running with inputs := [.reset 0] } : State).inputs = [.reset 0] ∧
    ({ running with inputs := [.powerLoss 0] } : State).inputs = [.powerLoss 0] :=
  ⟨rfl, rfl, rfl, rfl, rfl, step_running, rfl, rfl, rfl, rfl⟩
/-- The last entry, and the first that does not exist. -/
theorem witness_PayloadWriteSetsItsEntry :
    (let s : State := { State.reset with inputs := [.payload 2047 0xFFFFFFFF] }
     s.busy = false ∧ s.storesCanonical = true ∧ s.inputs = [.payload 2047 0xFFFFFFFF] ∧ 2047 < s.cfg.pbd) ∧
    (let s : State := { State.reset with inputs := [.payload 2048 0] }; ¬ 2048 < s.cfg.pbd) := by decide
theorem witness_IdleInputsAreServed : State.reset.busy = false ∧ State.reset.inputs = [] ∧
    ({ State.reset with inputs := [.settle] } : State).inputs = [.settle] ∧
    ({ State.reset with inputs := [.reset 2] } : State).inputs = [.reset 2] ∧
    ({ State.reset with inputs := [.powerLoss 0] } : State).inputs = [.powerLoss 0] := by decide

end Sys2Proof.Tests
end

section
/-! The data bus as the block samples it (20_memory.md R60, R66; 40_pin_primitives.md R122). -/

namespace Sys2Proof.Machine

/-- A sample moves the count of free draws at most. -/
theorem afterDraw_frame (s : State) (i : Fin 8) : s.afterDraw i = { s with draws := (s.afterDraw i).draws } := by
  unfold State.afterDraw
  split <;> rfl

/-- A sample happens on an input line only; it stores the level of the bus there, driven or free. -/
theorem pinRead_next {s t : State} {i : Fin 8} (h : pinRead i s = .next t) :
    s.dir.getLsbD i = INPUT ∧
      t = { s with samples := setBit s.samples i (s.dbus i), draws := (s.afterDraw i).draws } := by
  unfold pinRead at h
  split at h
  case isTrue => cases h
  case isFalse hd =>
    rw [afterDraw_frame] at h
    cases h
    exact ⟨Bool.eq_false_of_not_eq_true hd, rfl⟩

/-- The state after an event rd(Di): recording the level first does not change the level that is stored. -/
theorem perform_rd_next {s t : State} {i : Fin 8} (h : perform (.rd i) s = .next t) :
    t = { s with
      samples := setBit s.samples i (s.dbus i), trace := s.trace ++ [.rd i (s.dbus i)]
      draws := t.draws } := by
  obtain ⟨-, rfl⟩ := pinRead_next (s := { s with trace := s.trace ++ [.rd i (s.dbus i)] }) h
  rfl

/-- Settles O12: the one state a sample can lead to differs from `s` in the samples, the trace and the count of free draws. -/
theorem sampleReturnsTheBus : Obligations.SampleReturnsTheBus := by
  intro s t i h
  have stored : (setBit s.samples i (s.dbus i)).getLsbD i = s.dbus i := by
    rw [getLsbD_setBit, if_pos ⟨rfl, i.isLt⟩]
  rw [perform_rd_next h]
  exact ⟨stored, rfl, rfl, rfl, rfl, rfl⟩

end Sys2Proof.Machine
end

section
/-! The serialized word and its two bytes (30_encoding.md R90, R91). -/

namespace Sys2Proof.Machine

/-- The first byte weighs 256 in the word, for an address of any size: the concatenation of R91 is `(HB << 8) | LB`. -/
theorem addressWord_toNat_eq_bytes (a : Nat) (oe : Bool) :
    (addressWord a oe).toNat = (highByte a oe).toNat * 256 + (lowByte a).toNat := by
  unfold addressWord
  rw [BitVec.toNat_append, ← Nat.shiftLeft_add_eq_or_of_lt (lowByte a).isLt, Nat.shiftLeft_eq]

/-- Settles O5: the bytes are R91's by definition; their weights in the word and its value are the lemmas
`addressWord_toNat_eq_bytes` and `addressWord_toNat`. -/
theorem serializedWordValue : Obligations.SerializedWordValue := by
  intro address oe hrange
  have weights := addressWord_toNat_eq_bytes address oe
  have value := addressWord_toNat hrange oe
  exact ⟨rfl, rfl, weights, value⟩

end Sys2Proof.Machine
end

section
/-! The levels a trace presents at the rising edges of SRCLK, and the number they spell (40_pin_primitives.md R123,
41_shift_register_bus.md R149). -/

namespace Sys2Proof.Machine

open Sys2Proof.Spec

/-- The low `w` bits of `n`, the most significant first, spell `n mod 2^w`. -/
theorem ofBits_testBits (w n : Nat) : ofBits ((List.range w).reverse.map n.testBit) = n % 2 ^ w := by
  induction w generalizing n with
  | zero => rw [Nat.pow_zero, Nat.mod_one]; rfl
  | succ w ih =>
    have higher : n.testBit ∘ Nat.succ = (n / 2).testBit := funext (Nat.testBit_succ n)
    have lowest : (n.testBit 0).toNat = n % 2 := by rw [Nat.toNat_testBit, Nat.pow_zero, Nat.div_one]
    calc ofBits ((List.range (w + 1)).reverse.map n.testBit)
        = 2 * ofBits ((List.range w).reverse.map (n / 2).testBit) + (n.testBit 0).toNat := by
          simp [List.range_succ_eq_map, ofBits, ← higher]
      _ = n % 2 + 2 * (n / 2 % 2 ^ w) := by rw [ih, lowest, Nat.add_comm]
      _ = n % 2 ^ (w + 1) := by rw [Nat.pow_succ', Nat.mod_mul]

/-- The bits of a byte in the order of `ShiftOut` (R123). -/
def bitsOf (b : Byte) : List Level := (List.range 8).reverse.map b.getLsbD

@[simp] theorem length_bitsOf (b : Byte) : (bitsOf b).length = 8 := rfl

theorem ofBits_bitsOf (b : Byte) : ofBits (bitsOf b) = b.toNat :=
  (ofBits_testBits 8 b.toNat).trans (Nat.mod_eq_of_lt b.isLt)

/-- `ShiftOut` from SRCLK LOW clocks out the bits of its byte and leaves SER at the last of them (R123). -/
theorem serAtEdges_shiftOut (b v : Byte) (rest : List TraceEvent) (ser : Level) :
    serAtEdges ((shiftOut b).map (PinEvent.recordWith v) ++ rest) ser LOW =
      bitsOf b ++ serAtEdges rest (b.getLsbD 0) LOW := rfl

/-- The latch pulse clocks nothing out (R124). -/
theorem serAtEdges_latchPulse (v : Byte) (ser clk : Level) :
    serAtEdges (latchPulse.map (PinEvent.recordWith v)) ser clk = [] := rfl

/-- `setAddress` clocks out the first byte of the word, then the second (R140, R149). -/
theorem serAtEdges_setAddress (a : Nat) (oe : Bool) (v : Byte) (ser : Level) :
    serAtEdges ((setAddressEvents a oe).map (PinEvent.recordWith v)) ser LOW =
      bitsOf (highByte a oe) ++ bitsOf (lowByte a) := by
  rw [setAddressEvents, List.map_append, List.map_append, List.append_assoc, serAtEdges_shiftOut, serAtEdges_shiftOut,
    serAtEdges_latchPulse, List.append_nil]

/-- Settles O18: the levels clocked out are the bits of the two bytes of R91, so each half spells its byte, and the bytes decode
by their values `highByte_toNat` and `lowByte_toNat`; the latch holds the word of the same two bytes. -/
theorem setaddrTraceDecodesBack : Obligations.SetaddrTraceDecodesBack := by
  intro s addr oe ⟨inited, quiet⟩ nonneg le
  have legal : addr.toNat ≤ 32767 := by omega
  obtain ⟨-, -, clockLow, -⟩ := quiet_iff.1 quiet
  have edges := serAtEdges_setAddress addr.toNat oe 0 s.ser
  have high := highByte_toNat legal oe
  have low := lowByte_toNat addr.toNat
  refine ⟨_, exec_setaddr inited quiet nonneg le, ?_⟩
  simp only [clockLow, edges]
  refine ⟨rfl, _, _, rfl, rfl, ?flag, ?address, addressWord_oeN addr.toNat oe, ?abus⟩
  case flag =>
    rw [List.take_left' (length_bitsOf _), ofBits_bitsOf, high]
    split <;> omega
  case address =>
    rw [List.take_left' (length_bitsOf _), List.drop_left' (length_bitsOf _), ofBits_bitsOf, ofBits_bitsOf, high, low]
    split <;> omega
  case abus =>
    rw [State.abus, addressWord_abus legal, Int.toNat_of_nonneg nonneg]

end Sys2Proof.Machine
end

section
/-! A bulk write or erase at the end of its `k`-th transaction, and a reset there (43_bulk_operations.md R183;
70_reset_and_hazards.md R220, R225). -/

namespace Sys2Proof.Machine

open Sys2Proof.Spec

/-- Between two transactions no strobe is running: the next event turns a data line around, or none is left. -/
theorem inStrobe_bulkNext {u : State} (hop : u.op = .writebytes ∨ u.op = .erasebytes ∨ u.op = .dumprange) :
    (bulkNext u).inStrobe = false := by
  by_cases more : u.idx < u.oarg.toNat
  · have phase : (bulkNext u).phase = bulkEvents u := by rw [bulkNext_more more]
    rw [State.inStrobe, phase]
    rcases hop with hop | hop | hop <;> simp [bulkEvents, hop, writeEvents, readEvents, setDirection, dataLines]
  · rw [bulkNext_done more]; rfl

/-- A reset outside the strobe of a Write leaves the array alone (R220). -/
theorem applyReset_mem {s : State} (h : s.inStrobe = false) : (applyReset s).mem = s.mem := by
  rw [applyReset, resetRegisters_mem, abandonWrite, h]; rfl

/-- From the start of a bulk write, `k` transactions within the range and the array are 70 `k` events, which store the first `k`
bytes and which a reset does not undo. -/
theorem ticks_bulkNext_writes_prefix {u : State} (between : Between u) (idle : u.wbusy = false) (wf : Memory.wf u.mem = true)
    (hop : u.op = .writebytes ∨ u.op = .erasebytes) {k : Nat} (hidx : u.idx + k ≤ u.oarg.toNat)
    (hcur : u.cur + k ≤ 32768) (hn : u.cur + k ≤ u.cfg.n) :
    ∃ v, ticks (70 * k) (bulkNext u) = .next v ∧
      (∀ c, Memory.read v.mem c =
        if u.cur ≤ c ∧ c < u.cur + k then byteAt u (c - u.cur) else Memory.read u.mem c) ∧
      (applyReset v).mem = v.mem := by
  have op : (writeRun u k).op = u.op := by rw [writeRun_frame]
  have mem : (bulkNext (writeRun u k)).mem = (writeRun u k).mem := by rw [bulkNext_frame]
  refine ⟨_, ticks_writeRun between idle hop hidx hcur hn, fun c => ?_, applyReset_mem (inStrobe_bulkNext ?_)⟩
  · rw [mem, writeRun_mem wf]
  · rw [op]; exact hop.imp_right .inl

/-- The captured payload of WRITEBYTES is what the transactions store (R104, R170). -/
theorem byteAt_bulkStart_writebytes {s : State} {start len : Int} {j : Nat} (h : j < len.toNat) :
    byteAt (bulkStart .writebytes start len (payloadOf s.pbuf len) s) j = BitVec.ofNat 8 (element s j).toNat := by
  have captured : (payloadOf s.pbuf len).getD (0 + j) 0 = element s j := by
    simp [payloadOf_eq, h]
  exact congrArg byteOf captured

/-- ERASEBYTES stores the constant 0xFF (R174). -/
theorem byteAt_bulkStart_erasebytes {s : State} {start count : Int} {pb : List Int} (j : Nat) :
    byteAt (bulkStart .erasebytes start count pb s) j = 0xFF := rfl

/-- `ticks_bulkNext_writes_prefix` from the start of either operation, for a range the checks of R106 accept: IDX is 0, CUR is the
start address (R31), and `new` names the bytes that are stored. -/
theorem ticks_bulkStart_writes_prefix {s : State} {op : Op} {start len : Int} {pb : List Int} {new : Nat → Byte}
    (quiet : s.quiet = true) (cfg : s.cfg.wf = true) (stores : s.storesCanonical = true) (idle : s.wbusy = false)
    (hop : op = .writebytes ∨ op = .erasebytes) (hstart : 0 ≤ start) (hlen : 0 ≤ len) (hend : start + len ≤ s.cfg.n)
    (bytes : ∀ j < len.toNat, byteAt (bulkStart op start len pb s) j = new j) {k : Nat} (hk : k ≤ len.toNat) :
    ∃ v, ticks (70 * k) (bulkNext (bulkStart op start len pb s)) = .next v ∧
      (∀ c, Memory.read v.mem c = if start ≤ (c : Int) ∧ (c : Int) < start + k
        then new (c - start.toNat) else Memory.read s.mem c) ∧
      (applyReset v).mem = v.mem := by
  have cells := n_le cfg
  obtain ⟨wf, -⟩ := stores_iff.1 stores
  have fits : start.toNat + k ≤ s.cfg.n := by omega
  obtain ⟨v, run, array, reset⟩ := ticks_bulkNext_writes_prefix (u := bulkStart op start len pb s) (k := k)
    (bulkStart_between quiet) idle wf hop ((Nat.zero_add k).trans_le hk) (fits.trans cells) fits
  refine ⟨v, run, fun c => (array c).trans ?_, reset⟩
  have range : (start.toNat ≤ c ∧ c < start.toNat + k) ↔ (start ≤ (c : Int) ∧ (c : Int) < start + k) := by omega
  exact ite_congr (propext range) (fun h => bytes _ (by show c - start.toNat < _; omega)) fun _ => rfl

/-- Settles O37: acceptance begins the run at `bulkStart`, and `ticks_bulkStart_writes_prefix` says what its first `k` transactions
leave; WRITEBYTES and ERASEBYTES differ in the byte stored only. -/
theorem bulkWriteLeavesAPrefix : Obligations.BulkWriteLeavesAPrefix := by
  intro s start len i new ⟨inited, quiet⟩ cfg stores idle accepted operation
  rw [rejection_eq] at accepted
  rcases operation with ⟨rfl, bytes⟩ | ⟨rfl, bytes⟩
  · obtain ⟨⟨hstart, -⟩, ⟨hlen, hend⟩, -⟩ := checksOf_none.1 accepted
    refine ⟨_, accept_begun inited trivial accepted, fun k hk => ?_⟩
    rw [(begun_bulk s start len).1]
    exact ticks_bulkStart_writes_prefix quiet cfg stores idle (.inl rfl) hstart hlen hend
      (fun j hj => (byteAt_bulkStart_writebytes hj).trans (bytes j).symm) hk
  · obtain ⟨⟨hstart, -⟩, hlen, hend⟩ := checksOf_none.1 accepted
    refine ⟨_, accept_begun inited trivial accepted, fun k hk => ?_⟩
    rw [(begun_bulk s start len).2.1]
    exact ticks_bulkStart_writes_prefix quiet cfg stores idle (.inr rfl) hstart hlen hend
      (fun j _ => (byteAt_bulkStart_erasebytes j).trans (bytes j).symm) hk

end Sys2Proof.Machine
end

section
/-! SETADDR beyond the array (41_shift_register_bus.md R140; 70_reset_and_hazards.md R236). -/

namespace Sys2Proof.Machine

open Sys2Proof.Spec

/-- Settles O19: SETADDR completes for every address of 15 bits, and its word selects the address mod N (`cell_of_word`, R55); an
address from N on is one of them. -/
theorem setaddrSelectsModuloN : Obligations.SetaddrSelectsModuloN := by
  intro s addr oe ⟨inited, quiet⟩ _ fromN le
  have nonneg : 0 ≤ addr := (Int.natCast_nonneg s.cfg.n).trans fromN
  have legal : addr.toNat ≤ 32767 := by omega
  exact ⟨_, exec_setaddr inited quiet nonneg le, rfl, cell_of_word legal rfl⟩

end Sys2Proof.Machine
end

section
/-! What every step keeps (10_state.md R30 to R32, R36; 20_memory.md R50; 70_reset_and_hazards.md R220, R224, R225): each part
of the step keeps it, and `step_keeps` puts the parts together. -/

namespace Sys2Proof.Machine

/-! ### Reset and loss of power -/

/-- A Write that is cut short touches the devices at most. -/
theorem abandonWrite_frame (s : State) :
    abandonWrite s = { s with
      mem := (abandonWrite s).mem, draws := (abandonWrite s).draws, wbusy := (abandonWrite s).wbusy } := by
  unfold abandonWrite
  split <;> rfl

@[simp] theorem applyReset_busy (s : State) : (applyReset s).busy = false := rfl
@[simp] theorem applyPowerLoss_busy (s : State) : (applyPowerLoss s).busy = false := rfl

@[simp] theorem applyReset_cfg (s : State) : (applyReset s).cfg = s.cfg := by
  rw [applyReset, resetRegisters_cfg, abandonWrite_frame]

@[simp] theorem applyPowerLoss_cfg (s : State) : (applyPowerLoss s).cfg = s.cfg := applyReset_cfg s

/-! ### The quiet state -/

theorem quietInv_applyReset (s : State) : (applyReset s).quietInv := (quietInv_idle rfl).2 rfl

theorem quietInv_applyPowerLoss (s : State) : (applyPowerLoss s).quietInv := quietInv_applyReset s

/-- Settles O46: an event brings the lines nearer to the quiet levels, acceptance begins on a list that ends there, a reset sets
them, and nothing else the step does touches them. -/
theorem stepKeepsTheQuietState : Obligations.StepKeepsTheQuietState := fun _ _ =>
  step_keeps (P := State.quietInv) quietInv_tick quietInv_accept
    (inputs_keep := fun _ quiet => quiet)
    (raise_keeps := fun _ _ quiet => quiet)
    (reset_keeps := fun {s} _ => quietInv_applyReset s)
    (power_keeps := fun {s} _ => quietInv_applyPowerLoss s)
    (quiet_keeps := fun _ quiet => quiet)
    (payload_keeps := fun _ _ _ quiet _ => quiet)
    (settle_keeps := fun _ quiet => quiet)

/-- Settles O45: the quiet state, carried through the operation (`quietInv_accept`, `quietInv_tick`), is the quiet state itself
once the operation has ended (`exec_ends`). -/
theorem operationsEndQuiet : Obligations.OperationsEndQuiet := by
  intro s t i ⟨inited, quiet⟩ run
  have idle : s.busy = false := (quiet_iff.1 quiet).1
  have carried : t.quietInv := exec_keeps quietInv_tick quietInv_accept idle ((quietInv_idle idle).2 quiet) run
  obtain ⟨stays, -⟩ := exec_inited idle run
  exact ⟨stays.trans inited, (quietInv_idle (exec_ends idle run)).1 carried⟩

/-! ### The stores -/

theorem stores_abandonWrite {s : State} (h : s.storesCanonical = true) : (abandonWrite s).storesCanonical = true := by
  unfold abandonWrite
  split
  · obtain ⟨wf, within, buffer⟩ := stores_iff.1 h
    exact stores_iff.2 ⟨Memory.write_wf wf _ _, Memory.write_within within s.cell_lt _, buffer⟩
  · exact h

/-- A reset empties the payload buffer and leaves the array as the cut Write has left it (R220, R225). -/
theorem stores_applyReset {s : State} (h : s.storesCanonical = true) : (applyReset s).storesCanonical = true := by
  obtain ⟨wf, within, -⟩ := stores_iff.1 (stores_abandonWrite h)
  exact stores_iff.2 ⟨wf, within, rfl, rfl⟩

theorem stores_payload {s : State} {idx : Nat} (val : BitVec 32) (h : s.storesCanonical = true) (inside : idx < s.cfg.pbd) :
    ({ s with pbuf := PayloadBuffer.write s.pbuf idx val, rspValid := false } : State).storesCanonical = true := by
  obtain ⟨wf, within, bufferWf, bufferWithin⟩ := stores_iff.1 h
  exact stores_iff.2
    ⟨wf, within, PayloadBuffer.write_wf bufferWf idx val, PayloadBuffer.write_within bufferWithin inside val⟩

/-- Settles O47: the array changes by the device write and by a cut Write, at the selected cell; the payload buffer by a payload
write below PBD and by a reset; each leaves the canonical form within its space. -/
theorem stepKeepsTheStoresCanonical : Obligations.StepKeepsTheStoresCanonical := fun _ _ =>
  step_keeps (P := fun s => s.storesCanonical = true) stores_tick (fun _ => stores_accept)
    (inputs_keep := fun _ stores => stores)
    (raise_keeps := fun _ _ stores => stores)
    (reset_keeps := stores_applyReset)
    (power_keeps := stores_applyReset)
    (quiet_keeps := fun _ stores => stores)
    (payload_keeps := fun _ val _ stores inside => stores_payload val stores inside)
    (settle_keeps := fun _ stores => stores)

/-! ### The sequencer's place -/

/-- An event of no running operation starts none. -/
theorem tick_idle {s t : State} (idle : s.busy = false) (h : tick s = .next t) : t.busy = false :=
  tick_keeps_of (P := fun v => v.busy = false)
    (fun hv _ hu _ _ => by rw [perform_frame hu]; exact hv)
    (fun {_ _ u} hv _ hu _ => by
      have still : u.busy = false := by rw [perform_frame hu]; exact hv
      rcases endTransaction_phase u with ⟨ended, -⟩ | ⟨same, -⟩
      · exact ended
      · exact same.trans still)
    idle h

theorem onPlan_of_sequencerInv {s : State} (busy : s.busy = true) (h : s.sequencerInv) : s.onPlan := by
  obtain ⟨legal, place⟩ := h busy
  refine ⟨legal, ?_⟩
  rw [if_pos busy]
  exact place

/-- Idle, the sequencer has no place to keep. -/
theorem sequencerInv_idle {s : State} (idle : s.busy = false) : s.sequencerInv := by
  intro busy
  rw [idle] at busy
  cases busy

theorem sequencerInv_tick {s t : State} (h : s.sequencerInv) (run : tick s = .next t) : t.sequencerInv := by
  cases busy : s.busy with
  | false => exact sequencerInv_idle (tick_idle busy run)
  | true => exact sequencerInv_of_onPlan (onPlan_tick (onPlan_of_sequencerInv busy h) run)

theorem sequencerInv_accept {i : Instr} {s t : State} (idle : s.busy = false) (h : accept i s = .next t) : t.sequencerInv := by
  obtain ⟨-, ⟨code, -, rfl⟩ | ⟨checked, presented, rfl⟩⟩ := accept_cases h
  · exact sequencerInv_idle idle
  · exact sequencerInv_of_onPlan (onPlan_begun presented checked)

/-- Settles O48: a running operation moves along its event list (`onPlan_tick`), acceptance puts it at the head of the list
(`onPlan_begun`), and whatever else a step does is done, or ends, idle. -/
theorem stepKeepsTheSequencerInPlace : Obligations.StepKeepsTheSequencerInPlace := fun _ _ =>
  step_keeps (P := State.sequencerInv) sequencerInv_tick (fun idle _ => sequencerInv_accept idle)
    (inputs_keep := fun _ place => place)
    (raise_keeps := fun _ idle _ => sequencerInv_idle idle)
    (reset_keeps := fun {s} _ => sequencerInv_idle (applyReset_busy s))
    (power_keeps := fun {s} _ => sequencerInv_idle (applyPowerLoss_busy s))
    (quiet_keeps := fun idle _ => sequencerInv_idle idle)
    (payload_keeps := fun _ _ idle _ _ => sequencerInv_idle idle)
    (settle_keeps := fun idle _ => sequencerInv_idle idle)

/-! ### The configuration -/

/-- Settles O49: neither an event, nor acceptance, nor a reset writes the configuration record. -/
theorem configurationNeverChanges : Obligations.ConfigurationNeverChanges := by
  intro s t
  refine step_keeps (P := fun v => v.cfg = s.cfg) ?events ?acceptance
    (inputs_keep := fun _ same => same)
    (raise_keeps := fun _ _ same => same)
    (reset_keeps := fun {v} same => (applyReset_cfg v).trans same)
    (power_keeps := fun {v} same => (applyPowerLoss_cfg v).trans same)
    (quiet_keeps := fun _ same => same)
    (payload_keeps := fun _ _ _ same _ => same)
    (settle_keeps := fun _ same => same)
    rfl
  case events =>
    intro v w same h
    obtain ⟨-, kept, -⟩ := tick_inited h
    exact kept.trans same
  case acceptance =>
    intro i v w _ same h
    rw [accept_frame h]
    exact same

end Sys2Proof.Machine
end

section
/-! The command word and the items at the port (30_encoding.md R103 to R109). -/

namespace Sys2Proof.Machine

/-- Settles O1: each word is one closed computation of the decoder. -/
theorem workedCommandWordsDecode : Obligations.WorkedCommandWordsDecode := by
  unfold Obligations.WorkedCommandWordsDecode
  decide

/-- Settles O3: the decoder reads the three fields that a word was put together from (`opField_append`, `addrField_append`,
`argField_append`), and its answer is fixed by the code. -/
theorem commandWordFieldsDecode : Obligations.CommandWordFieldsDecode := by
  intro addr arg
  simp only [decode, opField_append, addrField_append, argField_append]
  exact ⟨rfl, rfl, rfl, rfl, rfl, rfl, rfl, rfl⟩

/-- The flag of SETADDR is arg[0] (R104). -/
theorem getLsbD_flag (oe : Bool) : (BitVec.ofNat 32 oe.toNat).getLsbD 0 = oe := by cases oe <;> rfl

/-- Settles O2: the encoder puts the word together from its fields, so `commandWordFieldsDecode` gives the operands as the fields
read them, and each field gives back an integer that fits it (`sext32_field32`). -/
theorem decodeInvertsEncode : Obligations.DecodeInvertsEncode := by
  intro i fits
  have back : ∀ {v : Int}, fitsField v = true → (field32 v).toInt = v := sext32_field32
  obtain ⟨setaddr, read, write, writebytes, erasebytes, dumprange, -⟩ :=
    commandWordFieldsDecode (field32 i.addrOperand) i.argBits
  cases i with
  | setaddr addr oe =>
    refine setaddr.trans ?_
    rw [Instr.addrOperand, back fits, Instr.argBits, getLsbD_flag]
  | read addr =>
    refine read.trans ?_
    rw [Instr.addrOperand, back fits]
  | write addr byte =>
    obtain ⟨addrFits, byteFits⟩ := (Bool.and_eq_true _ _).mp fits
    refine write.trans ?_
    rw [Instr.addrOperand, back addrFits, Instr.argBits, back byteFits]
  | writebytes start len =>
    obtain ⟨startFits, lenFits⟩ := (Bool.and_eq_true _ _).mp fits
    refine writebytes.trans ?_
    rw [Instr.addrOperand, back startFits, Instr.argBits, back lenFits]
  | erasebytes start count =>
    obtain ⟨startFits, countFits⟩ := (Bool.and_eq_true _ _).mp fits
    refine erasebytes.trans ?_
    rw [Instr.addrOperand, back startFits, Instr.argBits, back countFits]
  | dumprange start count =>
    obtain ⟨startFits, countFits⟩ := (Bool.and_eq_true _ _).mp fits
    refine dumprange.trans ?_
    rw [Instr.addrOperand, back startFits, Instr.argBits, back countFits]

/-! ### The opcode table -/

/-- Inversion of the decoder: a word that decodes carries its operation's code; a word that does not carries a reserved one. -/
theorem decode_cases (w : CmdWord) :
    (∃ i, decode w = .ok i ∧ opField w = i.opCode) ∨
    (∃ e, decode w = .error e ∧ (opField w = 0 ∨ opField w = 7)) := by
  have code : ∀ c : BitVec 3, (opField w).toNat = c.toNat → opField w = c := fun c h => BitVec.eq_of_toNat_eq h
  have bound := (opField w).isLt
  unfold decode
  split
  case h_1 h => exact .inl ⟨_, rfl, code 1 h⟩
  case h_2 h => exact .inl ⟨_, rfl, code 2 h⟩
  case h_3 h => exact .inl ⟨_, rfl, code 3 h⟩
  case h_4 h => exact .inl ⟨_, rfl, code 4 h⟩
  case h_5 h => exact .inl ⟨_, rfl, code 5 h⟩
  case h_6 h => exact .inl ⟨_, rfl, code 6 h⟩
  case h_7 n1 n2 n3 n4 n5 n6 =>
    have reserved : ∀ n < 2 ^ 3, n ≠ 1 → n ≠ 2 → n ≠ 3 → n ≠ 4 → n ≠ 5 → n ≠ 6 → n = 0 ∨ n = 7 := by omega
    exact .inr ⟨_, rfl, (reserved _ bound n1 n2 n3 n4 n5 n6).imp (code 0) (code 7)⟩

/-- Every row of the table constrains the code, and nothing else (R109). -/
theorem row_accepts_iff {r : OpcodeRow} (hr : r ∈ opcodeTable) (w : CmdWord) :
    r.accepts w = true ↔ opField w = opField r.pattern := by
  have codeOfRow : ∀ c : BitVec 3, opField (c ++ (0 : BitVec 64)) = c := by decide
  rw [Laws.EncodedOp.table_eq] at hr
  simp only [List.mem_cons, List.not_mem_nil, or_false] at hr
  rcases hr with rfl | rfl | rfl | rfl | rfl | rfl <;> rw [accepts_iff, codeOfRow]

/-- The row with an operation's code is the row with its name (R107, R109). -/
theorem row_code_iff_mnemonic (i : Instr) : ∀ r ∈ opcodeTable, i.opCode = opField r.pattern ↔ r.mnemonic = i.mnemonic := by
  cases i <;> (simp only [Instr.opCode, Instr.mnemonic]; decide)

/-- No row has a reserved code (R107, R109). -/
theorem row_code_not_reserved : ∀ r ∈ opcodeTable, opField r.pattern ≠ 0 ∧ opField r.pattern ≠ 7 := by decide

/-- Settles O4: a row accepts the words with its code (`row_accepts_iff`), and the code of a word is its operation's, or a
reserved one (`decode_cases`). -/
theorem tableRowsSelectTheOperation : Obligations.TableRowsSelectTheOperation := by
  intro w
  rcases decode_cases w with ⟨i, decodes, code⟩ | ⟨e, fails, reserved⟩
  · refine ⟨fun j hj r hr => ?_, fun e he => ?_⟩
    · obtain rfl : i = j := Except.ok.inj (decodes.symm.trans hj)
      rw [row_accepts_iff hr, code]
      exact row_code_iff_mnemonic i r hr
    · rw [decodes] at he
      cases he
  · refine ⟨fun j hj => ?_, fun _ _ => ⟨fun r hr => ?_, reserved⟩⟩
    · rw [fails] at hj
      cases hj
    · obtain ⟨not0, not7⟩ := row_code_not_reserved r hr
      rw [Bool.eq_false_iff, ne_eq, row_accepts_iff hr]
      rcases reserved with zero | seven
      · rw [zero]; exact not0.symm
      · rw [seven]; exact not7.symm

/-! ### The items -/

/-- Settles O7: a row base below 2^15 is its own 17-bit value; bit 16 in front of a byte adds 65536. -/
theorem itemsAtThePort : Obligations.ItemsAtThePort := by
  refine ⟨fun addr le => ?_, fun v => ?_⟩
  · rw [Item.encode, BitVec.toNat_ofNat]
    omega
  · have value : ((0 : BitVec 8) ++ v).toNat = v.toNat := by
      rw [BitVec.toNat_append]
      exact (congrArg (· ||| v.toNat) (Nat.zero_shiftLeft 8)).trans (Nat.zero_or _)
    have bound : v.toNat < 2 ^ 16 := v.isLt.trans (by decide)
    rw [Item.encode, BitVec.toNat_append, value, ← Nat.shiftLeft_add_eq_or_of_lt bound]
    rfl

end Sys2Proof.Machine
end

section
/-! The pin events and the two devices (20_memory.md R55 to R66; 30_encoding.md R95, R96; 40_pin_primitives.md R120 to R125). -/

namespace Sys2Proof.Machine

/-! ### A byte on the data lines -/

/-- Setting the eight bits of a register, D0 first, to the bits of `b` leaves `b` (R95). -/
theorem foldl_setBit_byte (b v : Byte) :
    (List.finRange 8).foldl (fun v (i : Fin 8) => setBit v i (b.getLsbD i)) v = b := by
  rw [finRange_eq]
  exact setBits_byte v b

/-- Settles O6: assembling reads the bits of the register that driving has set, so both halves are `foldl_setBit_byte`. -/
theorem driveThenSampleIsIdentity : Obligations.DriveThenSampleIsIdentity := by
  intro b dout samples
  rw [foldl_setBit_byte b dout]
  exact ⟨rfl, foldl_setBit_byte b samples⟩

/-! ### The shift register -/

/-- Settles O8: the stages after the 24 events are the old low byte above the new one (`performAll_shiftOut`). -/
theorem shiftOutMovesAByteIn : Obligations.ShiftOutMovesAByteIn := by
  intro s b clockLow
  refine ⟨_, performAll_shiftOut b s clockLow, rfl, fun k hk => ?_, fun k hk => ?_, rfl, rfl⟩
  · rw [BitVec.getLsbD_append, if_pos hk]
  · rw [BitVec.getLsbD_append, if_neg (by omega), Nat.add_sub_cancel, BitVec.getLsbD_setWidth, decide_eq_true hk,
      Bool.true_and]

/-- Settles O9: `performAll_latchPulse`, with the record of the two events written out. -/
theorem latchPulseCopiesStages : Obligations.LatchPulseCopiesStages := fun s latchLow => performAll_latchPulse s latchLow

/-- A write to SRCLK shifts at a rising edge (R56, R57). -/
theorem pinWrite_srclk (l : Level) (s : State) :
    pinWrite .srclk l s = .next (driveLevel .srclk l (if l && !s.srclk then shiftStages s else s)) := rfl

/-- A write to RCLK latches at a rising edge (R56, R58). -/
theorem pinWrite_rclk (l : Level) (s : State) :
    pinWrite .rclk l s = .next (driveLevel .rclk l (if l && !s.rclk then latchOutputs s else s)) := rfl

/-- A write of the level a line has is no edge (R56). -/
theorem pinWrite_same (s : State) :
    pinWrite .srclk s.srclk s = .next s ∧ pinWrite .rclk s.rclk s = .next s ∧ pinWrite .weN s.weN s = .next s := by
  refine ⟨?_, ?_, ?_⟩
  · rw [pinWrite_srclk, Bool.and_not_self]; rfl
  · rw [pinWrite_rclk, Bool.and_not_self]; rfl
  · rw [pinWrite, react, if_pos rfl]; rfl

/-- Bit 0 of the stages after a shift is SER, and every other bit is the one below it before (R57). -/
theorem getLsbD_shiftStages (s : State) :
    (shiftStages s).sr.getLsbD 0 = s.ser ∧ ∀ k < 15, (shiftStages s).sr.getLsbD (k + 1) = s.sr.getLsbD k := by
  refine ⟨?_, fun k hk => ?_⟩
  · rw [shiftStages_sr, BitVec.getLsbD_concat_zero]
  · rw [shiftStages_sr, BitVec.getLsbD_concat_succ, BitVec.getLsbD_setWidth, decide_eq_true hk, Bool.true_and]

/-- Settles O10: `pinWrite_srclk` and `pinWrite_rclk` at each pair of levels; a write that changes no level is
`pinWrite_same`. -/
theorem onlyEdgesMoveTheDevices : Obligations.OnlyEdgesMoveTheDevices := by
  intro s
  obtain ⟨sameClock, sameLatch, sameStrobe⟩ := pinWrite_same s
  obtain ⟨bit0, above⟩ := getLsbD_shiftStages s
  refine ⟨fun low => ?_, fun high => ?_, rfl, fun low => ?_, fun high => ?_, rfl, sameStrobe, fun _ => rfl⟩
  · refine ⟨driveLevel .srclk HIGH (shiftStages s), ?_, rfl, rfl, bit0, above⟩
    rw [pinWrite_srclk, low]
    rfl
  · rw [high] at sameClock
    exact sameClock
  · rw [pinWrite_rclk, low]
    rfl
  · rw [high] at sameLatch
    exact sameLatch

/-! ### The data bus -/

/-- The selected cell, by the number in the latches (R34, R55). -/
theorem cell_eq (s : State) : s.cell = s.q.toNat % 2 ^ 15 % s.cfg.n := by
  rw [State.cell, State.abus, BitVec.extractLsb'_toNat, Nat.shiftRight_zero]

theorem lvl_of_driven {s : State} {i : Fin 8} {l : Level} (h : s.line i = some l) : s.lvl (.d i) = l := by
  rw [State.lvl, State.dbus, h, Option.getD_some]

theorem lvl_of_free {s : State} {i : Fin 8} (h : s.line i = none) : s.lvl (.d i) = Config.freeLevel s.draws i := by
  rw [State.lvl, State.dbus, h, Option.getD_none]

/-- An input line while the latch is HIGH or the device is busy: nobody drives it (R60). -/
theorem line_input_free {s : State} {i : Fin 8} (input : s.dir.getLsbD i = INPUT) (nobody : s.oeN = HIGH ∨ s.wbusy = true) :
    s.line i = none := by
  rcases nobody with high | busy
  · rw [State.line, input, high]
  · rw [State.line, input, busy]
    cases s.oeN <;> rfl

/-- Settles O11: one line of R60 after the other decides `State.line`; the level and the sample follow from it. -/
theorem dataBusResolution : Obligations.DataBusResolution := by
  intro s i
  refine ⟨fun output high => ?_, fun output low => ?_, fun input low idle => ?_, fun input nobody => ?_⟩
  · exact lvl_of_driven (by rw [State.line, output, high])
  · exact lvl_of_free (by rw [State.line, output, low])
  · have driven : s.line i = some (s.cellByte.getLsbD i) := by rw [State.line, input, low, idle]
    have level : s.lvl (.d i) = s.cellByte.getLsbD i := lvl_of_driven driven
    exact ⟨by rw [level, State.cellByte, cell_eq], by rw [level]; exact pinRead_driven input driven⟩
  · have free := line_input_free input nobody
    exact ⟨lvl_of_free free, pinRead_free input free⟩

/-! ### The strobe -/

theorem strobeAllowed_iff {s : State} :
    s.strobeAllowed = true ↔ s.oeN = HIGH ∧ s.dir = BitVec.allOnes 8 ∧ s.wbusy = false := by
  simp [State.strobeAllowed, and_assoc]

/-- An edge of WE_n is the device's affair if the device allows it, and is refused if not (R63, R64). -/
theorem pinWrite_weN_edge {l : Level} {s : State} (edge : l ≠ s.weN) :
    pinWrite .weN l s =
      if s.strobeAllowed then .next (driveLevel .weN l (if l then deviceWrite s else s)) else .refused .strobeOutsideWrite := by
  rw [pinWrite, react, if_neg edge]
  split <;> rfl

/-- Settles O13: `pinWrite_weN_edge`, with the device's condition written out by `strobeAllowed_iff` and its cell by `cell_eq`. -/
theorem strobeEdgeStoresOrIsRefused : Obligations.StrobeEdgeStoresOrIsRefused := by
  intro s
  refine ⟨fun allowed => ⟨fun high => ?_, fun low => ?_⟩, fun forbidden l edge => ?_⟩
  · rw [pinWrite_weN_edge (by rw [high]; decide), if_pos (strobeAllowed_iff.2 allowed)]
    rfl
  · rw [pinWrite_weN_edge (by rw [low]; decide), if_pos (strobeAllowed_iff.2 allowed), ← cell_eq]
    rfl
  · rw [pinWrite_weN_edge edge, if_neg (mt strobeAllowed_iff.1 forbidden)]

/-! ### Directions and waits -/

/-- Bit `j` of a register of eight lines after bit `i` was set. -/
theorem getLsbD_setBit_line (v : Byte) (i j : Fin 8) (b : Bool) :
    (setBit v i b).getLsbD j = if j = i then b else v.getLsbD j := by
  rw [getLsbD_setBit]
  exact ite_congr (by simp [i.isLt, Fin.ext_iff]) (fun _ => rfl) fun _ => rfl

/-- Settles O14: the direction of the line decides the write and the sample; each sets one bit of its register
(`getLsbD_setBit_line`). -/
theorem lineDirectionGuardsItsUse : Obligations.LineDirectionGuardsItsUse := by
  intro s i l d
  refine ⟨fun input => ?_, fun output => ?_, fun output => ?_, rfl, fun j => getLsbD_setBit_line s.dir i j d⟩
  · rw [pinWrite, react, input]
    rfl
  · rw [pinRead, output]
    rfl
  · refine ⟨driveLevel (.d i) l s, ?_, rfl, fun j => getLsbD_setBit_line s.dout i j l⟩
    rw [pinWrite, react, output]
    rfl

/-- Settles O15: the model's two waits, by definition. -/
theorem recoveryWaitEndsTheWriteCycle : Obligations.RecoveryWaitEndsTheWriteCycle := fun _ => ⟨rfl, rfl⟩

end Sys2Proof.Machine
end

section
/-! SETADDR, READ and WRITE (41_shift_register_bus.md R140 to R149; 42_transaction_engine.md R150 to R164). -/

namespace Sys2Proof.Machine

open Sys2Proof.Spec

/-! ### What each of them answers -/

/-- An operation whose checks fail, in the spec's form (R190). -/
theorem exec_rejection {s : State} {i : Instr} {code : ResultCode} (inited : s.inited = true) (idle : s.busy = false)
    (h : rejection s i = some code) : exec i s = .next (rejected s code) :=
  exec_rejected inited idle ((rejection_eq s i).symm.trans h)

/-- Settles O16: `exec_setaddr`, with the word and the trace in the spec's form. -/
theorem setaddrFollowsItsRule : Obligations.SetaddrFollowsItsRule := by
  intro s addr oe ⟨inited, quiet⟩ nonneg le
  rw [exec_setaddr inited quiet nonneg le, setAddressTrace_eq, word_eq nonneg le]
  rfl

/-- Settles O17: SETADDR has no range check, and acceptance refuses what is no address of 15 bits. -/
theorem setaddrBeyond15BitsIsRefused : Obligations.SetaddrBeyond15BitsIsRefused := by
  intro s addr oe inited idle outside
  have notAddress : fits15 addr = false := by
    simp only [fits15, decide_eq_false_iff_not]
    omega
  have refused : accept (.setaddr addr oe) s = .refused .addressBeyond15Bits := by
    simp only [accept, acceptSetaddr, whenInitialised, inited, notAddress, if_true, Bool.false_eq_true, if_false]
  rw [exec_idle idle, refused]
  rfl

theorem writeEvents_ne_nil (a : Nat) (b : Byte) : writeEvents a b ≠ [] := List.ne_nil_of_length_pos (by simp)
theorem readEvents_ne_nil (a : Nat) : readEvents a ≠ [] := List.ne_nil_of_length_pos (by simp)
theorem setAddressEvents_ne_nil (a : Nat) (oe : Bool) : setAddressEvents a oe ≠ [] := List.ne_nil_of_length_pos (by simp)

/-- An address of the array is one of 15 bits (R9). -/
theorem le_of_cell {c : Config} {addr : Int} (wf : c.wf = true) (h : addr ≤ c.n - 1) : addr ≤ 32767 := by
  have cells := n_le wf
  omega

/-- Settles O21: `exec_read` in the spec's form, and the one check that can fail. -/
theorem readFollowsItsRule : Obligations.ReadFollowsItsRule := by
  intro s addr ⟨inited, quiet⟩ wf idle
  split
  case isTrue legal =>
    obtain ⟨nonneg, le⟩ := legal
    have le15 := le_of_cell wf le
    rw [exec_read inited quiet wf idle nonneg (by omega), readTrace_eq nonneg le15, word_eq nonneg le15]
    rfl
  case isFalse illegal =>
    have fails : rejection s (.read addr) = some .addrRange := if_pos (by omega)
    exact exec_rejection inited (quiet_iff.1 quiet).1 fails

/-- Settles O22: `exec_read_any`, where the device is busy: the byte sampled is `freeByte`. -/
theorem readOfABusyDeviceCompletes : Obligations.ReadOfABusyDeviceCompletes := by
  intro s addr ⟨inited, quiet⟩ wf busy nonneg le
  have sampled : sampleOf s addr.toNat = freeByte s.draws := if_pos busy
  have used : drawsAfter s = s.draws + 8 := if_pos busy
  refine ⟨_, exec_read_any inited quiet wf nonneg (by omega), rfl, rfl, busy, used, fun i => ?_⟩
  rw [sampled]
  exact getLsbD_freeByte s.draws i

/-- A byte operand, as the number it is. -/
theorem byteOf_toNat {v : Int} (nonneg : 0 ≤ v) (le : v ≤ 255) : (byteOf v).toNat = v.toNat := by
  rw [byteOf, BitVec.toNat_ofNat]
  omega

/-- Settles O23: `exec_write` in the spec's form, with one cell written (`Memory.read_write`); the checks in their order. -/
theorem writeFollowsItsRule : Obligations.WriteFollowsItsRule := by
  intro s addr byte ⟨inited, quiet⟩ wf stores idle
  have idleBlock := (quiet_iff.1 quiet).1
  refine ⟨fun outside => ?_, fun inside noByte => ?_, fun inside aByte => ?_⟩
  · have fails : rejection s (.write addr byte) = some .addrRange := if_pos (by omega)
    exact exec_rejection inited idleBlock fails
  · have fails : rejection s (.write addr byte) = some .dataRange :=
      (if_neg (by omega)).trans (if_pos (by omega))
    exact exec_rejection inited idleBlock fails
  · obtain ⟨nonneg, le⟩ := inside
    obtain ⟨byteNonneg, byteLe⟩ := aByte
    have le15 := le_of_cell wf le
    obtain ⟨memWf, -⟩ := stores_iff.1 stores
    refine ⟨_, exec_write inited quiet wf idle nonneg (by omega) byteNonneg byteLe, fun c => ?_, ?_⟩
    · have addressed : c = addr.toNat ↔ (c : Int) = addr := by omega
      rw [Memory.read_write memWf, apply_ite BitVec.toNat, byteOf_toNat byteNonneg byteLe]
      exact ite_congr (propext addressed) (fun _ => rfl) fun _ => rfl
    · rw [writeTrace_eq nonneg le15, word_eq nonneg le15]
      rfl

/-- Settles O24: the events run up to the falling edge of WE_n, which the busy device refuses (`performAll_write_busy`). -/
theorem writeToABusyDeviceIsRefused : Obligations.WriteToABusyDeviceIsRefused := by
  intro s addr byte ⟨inited, quiet⟩ _ busy nonneg le byteNonneg byteLe
  obtain ⟨idleBlock, -, clockLow, latchLow, strobeHigh, -⟩ := quiet_iff.1 quiet
  have checked : checksOf s (.write addr byte) = none :=
    checksOf_none.2 ⟨⟨nonneg, by omega⟩, byteNonneg, byteLe⟩
  have events : (begun s (.write addr byte)).phase = writeEvents addr.toNat (byteOf byte) := rfl
  rw [exec_idle idleBlock, accept_begun (i := .write addr byte) inited trivial checked, andThen_next,
    finish_single rfl (by rw [events]; exact writeEvents_ne_nil _ _) rfl, events,
    performAll_write_busy _ _ _ (by exact clockLow) (by exact latchLow) (by exact strobeHigh) (by exact busy)]
  rfl

end Sys2Proof.Machine
end

section
/-! Inside a single operation, after each of its events (41_shift_register_bus.md R145; 42_transaction_engine.md R152, R162,
R163; 70_reset_and_hazards.md R230, R235). -/

namespace Sys2Proof.Machine

/-! ### Between two events of a transaction -/

/-- After `k` events of a transaction the latches and DIR are as the first `k` events have left them, and the events left lead
on to the transaction's last state. -/
theorem ticks_split {es : List PinEvent} {u t : State} (hne : es ≠ []) (hp : u.phase = es)
    (run : performAll es { u with phase := [] } = .next t) {k : Nat} (hk : k ≤ es.length) :
    ∃ v w, ticks k u = .next v ∧ performAll (es.take k) { u with phase := [] } = .next w ∧
      performAll (es.drop k) w = .next t ∧ v.q = w.q ∧ v.dir = w.dir := by
  rcases Nat.lt_or_eq_of_le hk with before | rfl
  · obtain ⟨v, ticked, w, first, rfl⟩ := ticks_take hp run before
    have rest := run
    rw [← List.take_append_drop k es, performAll_append, first, andThen_next] at rest
    exact ⟨_, w, ticked, first, rest, rfl, rfl⟩
  · refine ⟨endTransaction t, t, ?_, ?_, ?_, ?_, ?_⟩
    · rw [ticks_events hne hp, run, andThen_next]
    · rw [List.take_length]; exact run
    · rw [List.drop_length]; rfl
    · rw [endTransaction_frame]
    · rw [endTransaction_frame]

/-! ### Where the latch pulse and the directions stand in the event lists (R141, R151, R161) -/

theorem setAddress_before_latch (a : Nat) (oe : Bool) : ∀ e ∈ (setAddressEvents a oe).take 48, notRclk e = true :=
  List.all_eq_true.1 rfl
theorem setAddress_after_latch (a : Nat) (oe : Bool) : ∀ e ∈ (setAddressEvents a oe).drop 49, notRclk e = true :=
  List.all_eq_true.1 rfl
theorem write_before_latch (a : Nat) (b : Byte) : ∀ e ∈ (writeEvents a b).take 56, notRclk e = true :=
  List.all_eq_true.1 rfl
theorem write_after_latch (a : Nat) (b : Byte) : ∀ e ∈ (writeEvents a b).drop 57, notRclk e = true :=
  List.all_eq_true.1 rfl
theorem read_after_directions (a : Nat) : ∀ e ∈ (readEvents a).drop 8, notMode e = true :=
  List.all_eq_true.1 rfl

/-- Settles O20: no latch pulse stands before event 48, and none after it. -/
theorem setaddrPresentsAtomically : Obligations.SetaddrPresentsAtomically := by
  intro s addr oe ⟨inited, quiet⟩ nonneg le
  obtain ⟨-, -, clockLow, latchLow, -⟩ := quiet_iff.1 quiet
  refine ⟨_, accept_begun (i := .setaddr addr oe) inited ⟨nonneg, le⟩ rfl, fun k hk => ?_⟩
  obtain ⟨v, w, ticked, first, rest, latches, -⟩ := ticks_split (setAddressEvents_ne_nil addr.toNat oe) rfl
    (performAll_setAddress addr.toNat oe { begun s (.setaddr addr oe) with phase := [] } clockLow latchLow) hk
  refine ⟨v, ticked, ?_⟩
  rw [latches]
  by_cases early : k ≤ 48
  · have kept := keep_q (fun e he => setAddress_before_latch addr.toNat oe e (List.take_subset_take_left _ early he)) first
    rw [if_pos early]
    exact kept
  · rw [if_neg early, word_eq nonneg le]
    have late : 49 ≤ k := by omega
    exact (keep_q (fun e he => setAddress_after_latch addr.toNat oe e (List.drop_subset_drop_left _ late he)) rest).symm

/-! ### Contention -/

/-- No line is contended while every line is an input, or OE_n is HIGH (R230). -/
theorem contention_false {s : State} (h : s.dir = 0 ∨ s.oeN = HIGH) : s.contention = false := by
  rcases h with input | high
  · simp [State.contention, input]
  · simp [State.contention, high]

/-- Once a line is an output, the latch alone decides (R230). -/
theorem contention_of_output {s : State} {i : Nat} (output : s.dir.getLsbD i = OUTPUT) : s.contention = !s.oeN := by
  have driven : s.dir ≠ 0 := by
    intro none
    rw [none] at output
    simp at output
  rw [State.contention, beq_eq_false_iff_ne.2 driven]
  rfl

/-- Settles O26: no direction changes from event 8 on, so DIR is what it is at the end, all lines INPUT. -/
theorem readEndsContentionAtItsDirections : Obligations.ReadEndsContentionAtItsDirections := by
  intro s addr ⟨inited, quiet⟩ wf nonneg le
  obtain ⟨-, -, clockLow, latchLow, -⟩ := quiet_iff.1 quiet
  have le15 := le_of_cell wf le
  have checked : checksOf s (.read addr) = none := checksOf_none.2 ⟨nonneg, by omega⟩
  refine ⟨_, accept_begun (i := .read addr) inited trivial checked, fun k from7 lt => ?_⟩
  obtain ⟨v, w, ticked, -, rest, -, directions⟩ := ticks_split (k := k + 1) (readEvents_ne_nil addr.toNat) rfl
    (performAll_read_any addr.toNat { begun s (.read addr) with phase := [] } (by omega) clockLow latchLow)
    (by rw [length_readEvents]; omega)
  have set : 8 ≤ k + 1 := by omega
  have kept := keep_dir (fun e he => read_after_directions addr.toNat e (List.drop_subset_drop_left _ set he)) rest
  exact ⟨v, ticked, contention_false (.inl (directions.trans kept.symm))⟩

/-- Not a line turned into an input. -/
def notInput : PinEvent → Bool
  | .mode _ false => false
  | _ => true

/-- A line that is an output stays one until it is turned into an input (R120). -/
theorem perform_output {e : PinEvent} (h : notInput e = true) {i : Nat} {s t : State} (output : s.dir.getLsbD i = OUTPUT)
    (ht : perform e s = .next t) : t.dir.getLsbD i = OUTPUT := by
  cases e with
  | mode j d =>
    cases d with
    | false => cases h
    | true =>
      cases ht
      rw [pinMode_dir, getLsbD_setBit]
      split
      · rfl
      · exact output
  | wr p l => rw [perform_dir rfl ht]; exact output
  | rd j => rw [perform_dir rfl ht]; exact output
  | delay w => rw [perform_dir rfl ht]; exact output

/-- From its first event on, line D0 is an output in a WRITE (R160). -/
theorem write_drives_line0 {a : Nat} {b : Byte} {k : Nat} {s t : State}
    (h : performAll ((writeEvents a b).take (k + 1)) s = .next t) : t.dir.getLsbD 0 = OUTPUT := by
  obtain ⟨u, first, rest⟩ := andThen_eq_next h
  have output : u.dir.getLsbD 0 = OUTPUT := by
    cases first
    rw [pinMode_dir, getLsbD_setBit]
    rfl
  have turnsNone : ∀ e ∈ (writeEvents a b).tail, notInput e = true := List.all_eq_true.1 rfl
  exact performAll_keeps (P := fun v => v.dir.getLsbD 0 = OUTPUT)
    (fun e he _ _ => perform_output (turnsNone e (List.take_subset _ _ he))) output rest

/-- Settles O25: a line is an output from event 0 on, so CONTENTION is OE_n = LOW, and OE_n is the old latch up to event 55 and
the new word, HIGH, from event 56 on. -/
theorem writeContentionWindow : Obligations.WriteContentionWindow := by
  intro s addr byte ⟨inited, quiet⟩ wf idle nonneg le byteNonneg byteLe
  obtain ⟨-, -, clockLow, latchLow, strobeHigh, -⟩ := quiet_iff.1 quiet
  have le15 := le_of_cell wf le
  have checked : checksOf s (.write addr byte) = none := checksOf_none.2 ⟨⟨nonneg, by omega⟩, byteNonneg, byteLe⟩
  refine ⟨_, accept_begun (i := .write addr byte) inited trivial checked, fun k lt => ?_⟩
  obtain ⟨v, w, ticked, first, rest, latches, directions⟩ :=
    ticks_split (k := k + 1) (writeEvents_ne_nil addr.toNat (byteOf byte)) rfl
      (performAll_write addr.toNat (byteOf byte) { begun s (.write addr byte) with phase := [] } (by omega) clockLow latchLow
        strobeHigh idle)
      (by rw [length_writeEvents]; omega)
  refine ⟨v, ticked, ?_⟩
  rw [contention_of_output (i := 0) (by rw [directions]; exact write_drives_line0 first), State.oeN, latches]
  by_cases early : k ≤ 55
  · have before : k + 1 ≤ 56 := by omega
    rw [keep_q (fun e he => write_before_latch addr.toNat _ e (List.take_subset_take_left _ before he)) first,
      decide_eq_true early, Bool.true_and]
    rfl
  · have after : 57 ≤ k + 1 := by omega
    have final := keep_q (fun e he => write_after_latch addr.toNat _ e (List.drop_subset_drop_left _ after he)) rest
    rw [← final, decide_eq_false early, Bool.false_and, addressWord_oeN]
    rfl

/-! ### Around the strobe -/

/-- The events of `Write` before its strobe (R161). -/
def setUpEvents (a : Nat) (b : Byte) : List PinEvent :=
  setDirection OUTPUT ++ setAddressEvents a false ++ driveByte b

theorem writeEvents_eq (a : Nat) (b : Byte) : writeEvents a b = setUpEvents a b ++ strobe := rfl

/-- What they leave: the address in the latches, the byte on eight output lines. -/
def setUp (s : State) (a : Nat) (b : Byte) : State :=
  { s with
    dir := BitVec.allOnes 8, dout := b
    sr := addressWord a false, q := addressWord a false, ser := (addressWord a false).getLsbD 0
    trace := s.trace ++ (setUpEvents a b).map (PinEvent.recordWith 0) }

theorem performAll_setUp (a : Nat) (b : Byte) (s : State) (clockLow : s.srclk = LOW) (latchLow : s.rclk = LOW) :
    performAll (setUpEvents a b) s = .next (setUp s a b) := by
  rw [setUpEvents, performAll_append, performAll_append, performAll_setDirection, andThen_next,
    performAll_setAddress _ _ _ (by exact clockLow) (by exact latchLow), andThen_next, performAll_driveByte _ _ (by rfl)]
  simp only [setUp, setUpEvents, if_true, List.map_append, List.append_assoc]

/-- The pulse: WE_n falls, the wait changes nothing, WE_n rises and the device takes the byte (R163). -/
theorem performAll_pulse {x : State} (strobeHigh : x.weN = HIGH) (allowed : x.strobeAllowed = true) :
    performAll (strobe.take 1) x = .next { x with weN := LOW, trace := x.trace ++ [.wr .weN LOW] } ∧
    performAll (strobe.take 2) x = .next { x with weN := LOW, trace := x.trace ++ [.wr .weN LOW] ++ [.delay .tWp] } ∧
    performAll (strobe.take 3) x = .next { x with
      weN := HIGH, mem := Memory.write x.mem x.cell x.dout, wbusy := true
      trace := x.trace ++ [.wr .weN LOW] ++ [.delay .tWp] ++ [.wr .weN HIGH] } := by
  have fall : performAll (strobe.take 1) x = .next { x with weN := LOW, trace := x.trace ++ [.wr .weN LOW] } := by
    have edge : LOW ≠ x.weN := by rw [strobeHigh]; decide
    show andThen (pinWrite .weN LOW { x with trace := x.trace ++ [.wr .weN LOW] }) _ = _
    rw [pinWrite_weN_edge (by exact edge), if_pos (by exact allowed)]
    rfl
  have wait : performAll (strobe.take 2) x =
      .next { x with weN := LOW, trace := x.trace ++ [.wr .weN LOW] ++ [.delay .tWp] } := by
    rw [show strobe.take 2 = strobe.take 1 ++ [.delay .tWp] from rfl, performAll_append, fall]
    rfl
  refine ⟨fall, wait, ?_⟩
  rw [show strobe.take 3 = strobe.take 2 ++ [.wr .weN HIGH] from rfl, performAll_append, wait, andThen_next]
  show andThen (pinWrite .weN HIGH { x with
    weN := LOW, trace := x.trace ++ [.wr .weN LOW] ++ [.delay .tWp] ++ [.wr .weN HIGH] }) _ = _
  rw [pinWrite_weN_edge (by simp), if_pos (by exact allowed)]
  rfl

/-- An accepted WRITE of an idle device comes to its strobe with the address, the directions and the byte in place (R161); then
the strobe's events follow. -/
theorem ticks_write_strobe {s : State} {addr byte : Int} (quiet : s.quiet = true) (idle : s.wbusy = false) (nonneg : 0 ≤ addr)
    (le : addr ≤ 32767) (byteNonneg : 0 ≤ byte) (byteLe : byte ≤ 255) :
    ∃ x : State, (x.oeN = HIGH ∧ (x.abus.toNat : Int) = addr ∧ x.dir = BitVec.allOnes 8 ∧ (x.dout.toNat : Int) = byte) ∧
      (x.weN = HIGH ∧ x.wbusy = false ∧ x.mem = s.mem) ∧
      ∀ j < 4, ticks (66 + j) (begun s (.write addr byte)) =
        andThen (performAll (strobe.take j) x) fun t => .next { t with phase := strobe.drop j } := by
  obtain ⟨-, -, clockLow, latchLow, strobeHigh, -⟩ := quiet_iff.1 quiet
  refine ⟨setUp { begun s (.write addr byte) with phase := [] } addr.toNat (byteOf byte),
    ⟨addressWord_oeN addr.toNat false, ?address, rfl, ?data⟩, ⟨strobeHigh, idle, rfl⟩, fun j hj => ?run⟩
  case address =>
    exact (congrArg Nat.cast (addressWord_abus (by omega) false)).trans (Int.toNat_of_nonneg nonneg)
  case data =>
    exact (congrArg Nat.cast (byteOf_toNat byteNonneg byteLe)).trans (Int.toNat_of_nonneg byteNonneg)
  case run =>
    have events : (begun s (.write addr byte)).phase =
        (setUpEvents addr.toNat (byteOf byte) ++ strobe.take j) ++ strobe.drop j := by
      rw [List.append_assoc, List.take_append_drop]
      exact writeEvents_eq _ _
    have left : strobe.drop j ≠ [] := by
      rw [ne_eq, List.drop_eq_nil_iff]
      exact Nat.not_le.2 hj
    have count : (setUpEvents addr.toNat (byteOf byte) ++ strobe.take j).length = 66 + j := by
      rw [List.length_append, List.length_take_of_le (Nat.le_of_lt hj)]
      rfl
    rw [← count, ticks_prefix events left, performAll_append,
      performAll_setUp _ _ { begun s (.write addr byte) with phase := [] } clockLow latchLow, andThen_next]

/-- Settles O27: the set-up is complete before the strobe (`ticks_write_strobe`), and the strobe moves WE_n, and at its rising
edge the array and WBUSY, only (`performAll_pulse`). -/
theorem writeHoldsAddressAndDataAcrossStrobe : Obligations.WriteHoldsAddressAndDataAcrossStrobe := by
  intro s addr byte ⟨inited, quiet⟩ wf idle nonneg le byteNonneg byteLe
  have checked : checksOf s (.write addr byte) = none := checksOf_none.2 ⟨⟨nonneg, by omega⟩, byteNonneg, byteLe⟩
  refine ⟨_, accept_begun (i := .write addr byte) inited trivial checked, fun k from65 to68 => ?_⟩
  obtain ⟨x, ⟨latchHigh, address, outputs, data⟩, ⟨strobeHigh, idle, mem⟩, run⟩ :=
    ticks_write_strobe quiet idle nonneg (le_of_cell wf le) byteNonneg byteLe
  obtain ⟨fallen, waited, risen⟩ := performAll_pulse strobeHigh (strobeAllowed_iff.2 ⟨latchHigh, outputs, idle⟩)
  have event : k = 65 ∨ k = 66 ∨ k = 67 ∨ k = 68 := by omega
  rcases event with rfl | rfl | rfl | rfl
  · exact ⟨_, run 0 (by decide), latchHigh, address, outputs, data, by simp [strobeHigh], by simp [idle], fun _ => mem⟩
  · have ticked := run 1 (by decide)
    rw [fallen, andThen_next] at ticked
    exact ⟨_, ticked, latchHigh, address, outputs, data, by simp, by simp [idle], fun _ => mem⟩
  · have ticked := run 2 (by decide)
    rw [waited, andThen_next] at ticked
    exact ⟨_, ticked, latchHigh, address, outputs, data, by simp, by simp [idle], fun _ => mem⟩
  · have ticked := run 3 (by decide)
    rw [risen, andThen_next] at ticked
    exact ⟨_, ticked, latchHigh, address, outputs, data, by simp, by simp, fun early => absurd early (by decide)⟩

end Sys2Proof.Machine
end

section
/-! The bulk operations (43_bulk_operations.md R170 to R178; 30_encoding.md R101; 20_memory.md R60, R64). -/

namespace Sys2Proof.Machine

open Sys2Proof.Spec

/-! ### The closed forms in the spec's words -/

/-- The last cell of a range that passed its checks, in the model's and in the spec's form. -/
theorem word_last {start len : Int} {k : Nat} (nonneg : 0 ≤ start) (hk : len = (k : Int) + 1) (le : start + len ≤ 32768) (oe : Bool) :
    word (start + len - 1) oe = addressWord (start.toNat + k) oe := by
  rw [word_eq (by omega) (by omega), show (start + len - 1).toNat = start.toNat + k by omega]

/-- The traces of the single writes of a range, one after the other (R171). -/
theorem writes_trace {start : Int} {count : Nat} {byte new : Nat → Byte} (nonneg : 0 ≤ start) (le : start + count ≤ 32768)
    (same : ∀ i < count, byte i = new i) :
    ((List.range count).flatMap fun i => (writeEvents (start.toNat + i) (byte i)).map (PinEvent.recordWith 0)) =
      (List.range count).flatMap fun (i : Nat) => writeTrace (start + (i : Int)) (new i) := by
  refine List.flatMap_congr fun i hi => ?_
  have inside : i < count := List.mem_range.1 hi
  rw [← writeTrace_eq (v := 0) (by omega) (by omega), same i inside, show (start + (i : Int)).toNat = start.toNat + i by omega]

/-- The traces of the single reads of a range, one after the other (R177). -/
theorem reads_trace {start : Int} {count : Nat} {sample : Nat → Byte} (nonneg : 0 ≤ start) (le : start + count ≤ 32768) :
    ((List.range count).flatMap fun i => (readEvents (start.toNat + i)).map (PinEvent.recordWith (sample i))) =
      (List.range count).flatMap fun (i : Nat) => readTrace (start + (i : Int)) (sample i) := by
  refine List.flatMap_congr fun i hi => ?_
  have inside : i < count := List.mem_range.1 hi
  rw [← readTrace_eq (by omega) (by omega), show (start + (i : Int)).toNat = start.toNat + i by omega]

/-- A bulk write from its start, completed: the array takes the bytes of the range, and the rest is as the last write leaves
it, or as it was if there was none (R171, R172). -/
theorem complete_writeRun {s : State} {op : Op} {start len : Int} {pb : List Int} {new : Nat → Byte} (quiet : s.quiet = true)
    (memWf : Memory.wf s.mem = true) (nonneg : 0 ≤ start) (lenNonneg : 0 ≤ len) (le : start + len ≤ 32768)
    (bytes : ∀ j < len.toNat, byteAt (bulkStart op start len pb s) j = new j) :
    ∃ t, complete (writeRun (bulkStart op start len pb s) len.toNat) = t ∧ Memory.wf t.mem = true ∧
      (∀ c, Memory.read t.mem c = if start ≤ (c : Int) ∧ (c : Int) < start + len
        then new (c - start.toNat) else Memory.read s.mem c) ∧
      t = { completed
              (if len = 0 then s else
                { latched s (word (start + len - 1) false) with
                  dir := BitVec.allOnes 8, dout := new (len.toNat - 1) })
              ((List.range len.toNat).flatMap fun (i : Nat) => writeTrace (start + (i : Int)) (new i)) [] with
            op := op, oaddr := start, oarg := len, pb := pb
            idx := len.toNat, cur := start.toNat + len.toNat, mem := t.mem } := by
  obtain ⟨idle, phase, -⟩ := quiet_iff.1 quiet
  have trace := writeRun_trace (bulkStart op start len pb s) len.toNat
  have array := writeRun_mem (u := bulkStart op start len pb s) memWf len.toNat
  refine ⟨_, rfl, writeRun_wf (u := bulkStart op start len pb s) memWf len.toNat, fun c => (array c).trans ?_, ?_⟩
  · have range : (start.toNat ≤ c ∧ c < start.toNat + len.toNat) ↔ (start ≤ (c : Int) ∧ (c : Int) < start + len) := by omega
    exact ite_congr (propext range) (fun h => bytes _ (by show c - start.toNat < _; omega)) fun _ => rfl
  · rw [← writes_trace nonneg (by omega) bytes]
    rcases Nat.eq_zero_or_eq_succ_pred len.toNat with none | some
    · have zero : len = 0 := by omega
      subst zero
      cases s
      subst idle phase
      rfl
    · generalize len.toNat.pred = k at some
      have last : len = (k : Int) + 1 := by omega
      have notZero : len ≠ 0 := by omega
      have lastByte : byteAt (bulkStart op start len pb s) k = new k := bytes k (by omega)
      have rest := writeRun_succ (bulkStart op start len pb s) k
      rw [some] at trace ⊢
      rw [trace, lastByte, show (bulkStart op start len pb s).idx + (k + 1) = k + 1 from Nat.zero_add _] at rest
      rw [if_neg notZero, word_last nonneg last le]
      generalize writeRun (bulkStart op start len pb s) (k + 1) = v at rest ⊢
      generalize v.mem = m at rest
      subst rest
      cases s
      subst idle phase
      rfl

/-- Settles O31: `exec_writebytes`, and `complete_writeRun` for the captured payload. -/
theorem writebytesFollowsItsRule : Obligations.WritebytesFollowsItsRule := by
  intro s start len ⟨inited, quiet⟩ wf stores idle accepted
  have cells := n_le wf
  obtain ⟨memWf, -⟩ := stores_iff.1 stores
  rw [rejection_eq] at accepted
  obtain ⟨⟨nonneg, -⟩, ⟨lenNonneg, le⟩, -⟩ := checksOf_none.1 accepted
  obtain ⟨t, run, -, array, rest⟩ := complete_writeRun quiet memWf nonneg lenNonneg (by omega)
    fun _ => byteAt_bulkStart_writebytes
  exact ⟨t, (exec_writebytes inited quiet wf idle accepted).trans (congrArg _ run), array, rest⟩

/-- Settles O32: `exec_erasebytes`, and `complete_writeRun` for the constant 0xFF. -/
theorem erasebytesFollowsItsRule : Obligations.ErasebytesFollowsItsRule := by
  intro s start count ⟨inited, quiet⟩ wf stores idle accepted
  have cells := n_le wf
  obtain ⟨memWf, -⟩ := stores_iff.1 stores
  rw [rejection_eq] at accepted
  obtain ⟨⟨nonneg, -⟩, countNonneg, le⟩ := checksOf_none.1 accepted
  obtain ⟨t, run, -, array, rest⟩ := complete_writeRun (new := fun _ => 0xFF) quiet memWf nonneg countNonneg (by omega)
    fun j _ => byteAt_bulkStart_erasebytes j
  refine ⟨t, (exec_erasebytes inited quiet wf idle accepted).trans (congrArg _ run), array, rest.trans ?_⟩
  split <;> rfl

/-! ### ERASEBYTES beside WRITEBYTES -/

/-- Where the payload is bytes, WRITEBYTES has the checks of ERASEBYTES (R106). -/
theorem rejection_writebytes_of_bytes {s : State} {start len : Int}
    (bytes : ∀ i < len.toNat, 0 ≤ element s i ∧ element s i ≤ 255) :
    rejection s (.writebytes start len) = rejection s (.erasebytes start len) := by
  have passing : ¬ ∃ i ∈ List.range len.toNat, element s i < 0 ∨ element s i > 255 := by
    rintro ⟨i, inside, noByte⟩
    have := bytes i (List.mem_range.1 inside)
    omega
  rw [rejection, rejection, if_neg passing]

/-- Settles O36: the checks agree (`rejection_writebytes_of_bytes`), and so do the closed forms of the two runs, in which every
byte is 0xFF (`complete_writeRun`); the arrays are canonical and read alike. -/
theorem eraseIsAConstantWrite : Obligations.EraseIsAConstantWrite := by
  intro s start count ⟨inited, quiet⟩ wf stores idle constant
  have cells := n_le wf
  obtain ⟨memWf, -⟩ := stores_iff.1 stores
  have checks : rejection s (.writebytes start count) = rejection s (.erasebytes start count) :=
    rejection_writebytes_of_bytes fun i hi => by rw [constant i hi]; decide
  cases accepted : rejection s (.erasebytes start count) with
  | some code =>
    have idleBlock := (quiet_iff.1 quiet).1
    exact ⟨_, _, exec_rejection inited idleBlock accepted, exec_rejection inited idleBlock (checks.trans accepted),
      rfl, rfl, rfl, rfl, rfl, rfl, rfl, rfl, rfl, rfl, rfl, rfl, rfl⟩
  | none =>
    have written := checks.trans accepted
    rw [rejection_eq] at accepted written
    obtain ⟨⟨nonneg, -⟩, countNonneg, le⟩ := checksOf_none.1 accepted
    obtain ⟨t, runErase, wfErase, arrayErase, restErase⟩ := complete_writeRun (new := fun _ => 0xFF) (op := .erasebytes)
      (pb := s.pb) quiet memWf nonneg countNonneg (by omega) fun j _ => byteAt_bulkStart_erasebytes j
    obtain ⟨u, runWrite, wfWrite, arrayWrite, restWrite⟩ := complete_writeRun (new := fun _ => 0xFF) (op := .writebytes)
      (pb := payloadOf s.pbuf count) quiet memWf nonneg countNonneg (by omega) fun j hj => by
        rw [byteAt_bulkStart_writebytes hj, constant j hj]; rfl
    have mem : t.mem = u.mem := Memory.ext wfErase wfWrite fun c => (arrayErase c).trans (arrayWrite c).symm
    refine ⟨t, u, (exec_erasebytes inited quiet wf idle accepted).trans (congrArg _ runErase),
      (exec_writebytes inited quiet wf idle written).trans (congrArg _ runWrite), ?_⟩
    rw [restErase, restWrite]
    exact ⟨rfl, rfl, mem, rfl, rfl, rfl, rfl, rfl, rfl, rfl, rfl, rfl, rfl⟩

/-! ### DUMPRANGE -/

/-- The items of a dump from its start are the report of what it samples (R176, R178). -/
theorem readRun_report {s : State} {start count : Int} {pb : List Int} {cell : Nat → Byte}
    (sampled : ∀ i < count.toNat, sampleAt (bulkStart .dumprange start count pb s) i = cell (start.toNat + i)) :
    (readRun (bulkStart .dumprange start count pb s) count.toNat).outq = report cell start.toNat count.toNat := by
  rw [readRun_outq rfl, report, ← report_eq]
  refine (List.nil_append _).trans (List.flatMap_congr fun i hi => ?_)
  have index : (bulkStart .dumprange start count pb s).idx + i = i := Nat.zero_add i
  rw [itemsAt, index, sampled i (List.mem_range.1 hi)]
  rfl

/-- Settles O33: `exec_dumprange`; each transaction samples its cell, and the rest is as the last one leaves it
(`readRun_succ`). -/
theorem dumprangeFollowsItsRule : Obligations.DumprangeFollowsItsRule := by
  intro s start count ⟨inited, quiet⟩ wf idle accepted
  have cells := n_le wf
  rw [rejection_eq] at accepted
  obtain ⟨⟨nonneg, -⟩, countNonneg, le⟩ := checksOf_none.1 accepted
  obtain ⟨idleBlock, phase, -⟩ := quiet_iff.1 quiet
  have notBusy : ¬ (bulkStart .dumprange start count s.pb s).wbusy = true := Bool.eq_false_iff.1 idle
  have sampled : ∀ i, sampleAt (bulkStart .dumprange start count s.pb s) i = Memory.read s.mem (start.toNat + i) :=
    fun i => if_neg notBusy
  have trace := readRun_trace (bulkStart .dumprange start count s.pb s) count.toNat
  have items := readRun_report fun i (_ : i < count.toNat) => sampled i
  have draws := readRun_draws (bulkStart .dumprange start count s.pb s) count.toNat
  rw [if_neg notBusy] at draws
  simp only [sampled] at trace
  rw [exec_dumprange inited quiet wf accepted, ← reads_trace nonneg (by omega)]
  rcases Nat.eq_zero_or_eq_succ_pred count.toNat with none | some
  · have zero : count = 0 := by omega
    subst zero
    cases s
    subst idleBlock phase
    rfl
  · generalize count.toNat.pred = k at some
    have last : count = (k : Int) + 1 := by omega
    have notZero : count ≠ 0 := by omega
    have rest := readRun_succ (bulkStart .dumprange start count s.pb s) k
    rw [some] at trace items draws ⊢
    rw [trace, items, draws, sampled, show (bulkStart .dumprange start count s.pb s).idx + (k + 1) = k + 1 from Nat.zero_add _]
      at rest
    rw [rest, if_neg notZero, word_last nonneg last (by omega)]
    cases s
    subst idleBlock phase
    rfl

/-- Settles O34: the dump of a busy device samples `freeByte` of eight new draws for each cell (`sampleAt`, `readRun_draws`). -/
theorem dumprangeOfABusyDeviceCompletes : Obligations.DumprangeOfABusyDeviceCompletes := by
  intro s start count ⟨inited, quiet⟩ wf busy accepted
  rw [rejection_eq] at accepted
  have deviceBusy : (bulkStart .dumprange start count s.pb s).wbusy = true := busy
  have frame := readRun_frame (bulkStart .dumprange start count s.pb s) count.toNat
  have draws := readRun_draws (bulkStart .dumprange start count s.pb s) count.toNat
  rw [if_pos deviceBusy] at draws
  refine ⟨_, exec_dumprange inited quiet wf accepted, rfl, ?mem, ?wbusy, draws,
    fun a => freeByte (s.draws + 8 * (a - start.toNat)), fun k _ j => ?free, readRun_report fun i _ => ?sampled⟩
  case mem => rw [complete_mem, frame]; rfl
  case wbusy => rw [complete_wbusy, frame]; exact busy
  case free => beta_reduce; rw [Nat.add_sub_cancel_left, getLsbD_freeByte]
  case sampled => rw [Nat.add_sub_cancel_left, sampleAt, if_pos deviceBusy]; rfl

/-! ### Nothing to do, and a busy device -/

/-- A bulk operation of no transaction completes at acceptance (R186). -/
theorem finish_bulkStart_none (op : Op) (start : Int) (pb : List Int) (s : State) :
    finish (bulkNext (bulkStart op start 0 pb s)) = .next (complete (bulkStart op start 0 pb s)) := by
  rw [bulkNext_done (Nat.lt_irrefl 0), finish_idle rfl]

/-- What a bulk write to a busy device answers, from its start (R64, R186). -/
theorem finish_bulkStart_busy {op : Op} {start len : Int} {pb : List Int} {s : State} (quiet : s.quiet = true)
    (busy : s.wbusy = true) (hop : op = .writebytes ∨ op = .erasebytes) :
    (0 < len → finish (bulkNext (bulkStart op start len pb s)) = .refused .strobeOutsideWrite) ∧
    (len = 0 → ∃ t, finish (bulkNext (bulkStart op start len pb s)) = .next t ∧ t.err = .ok ∧ t.trace = [] ∧
      t.mem = s.mem) := by
  refine ⟨fun some => ?_, fun none => ?_⟩
  · have first : (bulkStart op start len pb s).idx < (bulkStart op start len pb s).oarg.toNat := by
      show 0 < len.toNat
      omega
    exact ticks_write_refused (bulkStart_between quiet) busy hop first
  · subst none
    exact ⟨_, finish_bulkStart_none op start pb s, rfl, rfl, rfl⟩

/-- Settles O35: both operations begin at `bulkStart`, so `finish_bulkStart_busy` is their answer. -/
theorem bulkWriteToABusyDevice : Obligations.BulkWriteToABusyDevice := by
  intro s start len i ⟨inited, quiet⟩ _ busy operation accepted
  have idleBlock := (quiet_iff.1 quiet).1
  rw [rejection_eq] at accepted
  rcases operation with rfl | rfl
  · rw [exec_idle idleBlock, accept_begun (i := .writebytes start len) inited trivial accepted, andThen_next,
      (begun_bulk s start len).1]
    exact finish_bulkStart_busy quiet busy (.inl rfl)
  · rw [exec_idle idleBlock, accept_begun (i := .erasebytes start len) inited trivial accepted, andThen_next,
      (begun_bulk s start len).2.1]
    exact finish_bulkStart_busy quiet busy (.inr rfl)

end Sys2Proof.Machine
end

section
/-! What an operation leaves alone (41_shift_register_bus.md R142, R143; 42_transaction_engine.md R154, R163, R164;
43_bulk_operations.md R172, R177; 60_exceptions.md R190). -/

namespace Sys2Proof.Machine

open Sys2Proof.Spec

/-! ### The operations that store nothing -/

/-- What every operation that stores nothing leaves alone. -/
def storesNothingFrame (s t : State) : Prop :=
  (∀ c, Memory.read t.mem c = Memory.read s.mem c) ∧
  t.weN = s.weN ∧ t.srclk = s.srclk ∧ t.rclk = s.rclk ∧ t.dout = s.dout ∧ t.wbusy = s.wbusy ∧ t.pbuf = s.pbuf ∧
  t.inited = s.inited ∧ t.busy = s.busy ∧ t.phase = s.phase ∧ t.inputs = s.inputs ∧ t.cfg = s.cfg ∧ t.pb = s.pb

/-- A rejected operation leaves all of that alone (R190). -/
theorem storesNothingFrame_raiseError (s : State) (code : ResultCode) : storesNothingFrame s (raiseError code s) :=
  ⟨fun _ => rfl, rfl, rfl, rfl, rfl, rfl, rfl, rfl, rfl, rfl, rfl, rfl, rfl⟩

theorem setaddr_frame {s t : State} {addr : Int} {oe : Bool} (h : ready s) (run : exec (.setaddr addr oe) s = .next t) :
    storesNothingFrame s t ∧ (t.idx = s.idx ∧ t.cur = s.cur) ∧ t.dir = s.dir ∧ t.rdata = s.rdata := by
  obtain ⟨inited, quiet⟩ := h
  obtain ⟨-, ⟨code, -, rfl⟩ | ⟨-, ⟨nonneg, le⟩, -⟩⟩ := exec_cases (quiet_iff.1 quiet).1 run
  · exact ⟨storesNothingFrame_raiseError s code, ⟨rfl, rfl⟩, rfl, rfl⟩
  · rw [exec_setaddr inited quiet nonneg le] at run
    cases run
    exact ⟨⟨fun _ => rfl, rfl, rfl, rfl, rfl, rfl, rfl, rfl, rfl, rfl, rfl, rfl, rfl⟩, ⟨rfl, rfl⟩, rfl, rfl⟩

theorem read_frame {s t : State} {addr : Int} (h : ready s) (wf : s.cfg.wf = true) (run : exec (.read addr) s = .next t) :
    storesNothingFrame s t ∧ t.idx = s.idx ∧ t.cur = s.cur := by
  obtain ⟨inited, quiet⟩ := h
  obtain ⟨-, ⟨code, -, rfl⟩ | ⟨checked, -⟩⟩ := exec_cases (quiet_iff.1 quiet).1 run
  · exact ⟨storesNothingFrame_raiseError s code, rfl, rfl⟩
  · obtain ⟨nonneg, lt⟩ := checksOf_none.1 checked
    rw [exec_read_any inited quiet wf nonneg lt] at run
    cases run
    exact ⟨⟨fun _ => rfl, rfl, rfl, rfl, rfl, rfl, rfl, rfl, rfl, rfl, rfl, rfl, rfl⟩, rfl, rfl⟩

theorem dumprange_frame {s t : State} {start count : Int} (h : ready s) (wf : s.cfg.wf = true)
    (run : exec (.dumprange start count) s = .next t) : storesNothingFrame s t := by
  obtain ⟨inited, quiet⟩ := h
  obtain ⟨idle, phase, -⟩ := quiet_iff.1 quiet
  obtain ⟨-, ⟨code, -, rfl⟩ | ⟨checked, -⟩⟩ := exec_cases idle run
  · exact storesNothingFrame_raiseError s code
  · rw [exec_dumprange inited quiet wf checked, readRun_frame] at run
    cases run
    exact ⟨fun _ => rfl, rfl, rfl, rfl, rfl, rfl, rfl, rfl, idle.symm, phase.symm, rfl, rfl, rfl⟩

/-- Settles O41: one frame for each of the three operations. -/
theorem frameOfOperationsThatStoreNothing : Obligations.FrameOfOperationsThatStoreNothing := by
  intro s t i h wf run
  refine ⟨?_, ?_, ?_⟩
  · rintro (⟨addr, oe, rfl⟩ | ⟨addr, rfl⟩ | ⟨start, count, rfl⟩)
    · exact (setaddr_frame h run).1
    · exact (read_frame h wf run).1
    · exact dumprange_frame h wf run
  · rintro (⟨addr, oe, rfl⟩ | ⟨addr, rfl⟩)
    · obtain ⟨-, counters, -⟩ := setaddr_frame h run
      exact counters
    · exact (read_frame h wf run).2
  · rintro ⟨addr, oe, rfl⟩
    obtain ⟨-, -, data⟩ := setaddr_frame h run
    exact data

/-! ### The operations that store -/

/-- What every operation that stores leaves alone, the array apart. -/
def storesFrame (s t : State) : Prop :=
  t.rdata = s.rdata ∧ t.srclk = s.srclk ∧ t.rclk = s.rclk ∧ t.weN = s.weN ∧ t.wbusy = s.wbusy ∧ t.pbuf = s.pbuf ∧
  t.inited = s.inited ∧ t.busy = s.busy ∧ t.phase = s.phase ∧ t.inputs = s.inputs ∧ t.cfg = s.cfg

/-- A rejected operation leaves all of that alone (R190). -/
theorem storesFrame_raiseError (s : State) (code : ResultCode) : storesFrame s (raiseError code s) :=
  ⟨rfl, rfl, rfl, rfl, rfl, rfl, rfl, rfl, rfl, rfl, rfl⟩

/-- An accepted WRITE that answers found the device idle, since a busy one refuses it (R64). -/
theorem wbusy_of_write {s t : State} {addr byte : Int} (h : ready s) (wf : s.cfg.wf = true)
    (checked : checksOf s (.write addr byte) = none) (run : exec (.write addr byte) s = .next t) : s.wbusy = false := by
  obtain ⟨⟨nonneg, lt⟩, byteNonneg, byteLe⟩ := checksOf_none.1 checked
  by_contra busy
  rw [writeToABusyDeviceIsRefused s addr byte h wf (Bool.eq_true_of_not_eq_false busy) nonneg (by omega) byteNonneg byteLe]
    at run
  cases run

theorem write_frame {s t : State} {addr byte : Int} (h : ready s) (wf : s.cfg.wf = true) (stores : s.storesCanonical = true)
    (run : exec (.write addr byte) s = .next t) :
    (∀ c, ¬ storesTo (.write addr byte) c → Memory.read t.mem c = Memory.read s.mem c) ∧ storesFrame s t ∧
      t.idx = s.idx ∧ t.cur = s.cur ∧ t.pb = s.pb := by
  obtain ⟨idle, -⟩ := quiet_iff.1 h.2
  obtain ⟨-, ⟨code, -, rfl⟩ | ⟨checked, -⟩⟩ := exec_cases idle run
  · exact ⟨fun _ _ => rfl, storesFrame_raiseError s code, rfl, rfl, rfl⟩
  · have deviceIdle := wbusy_of_write h wf checked run
    obtain ⟨inited, quiet⟩ := h
    obtain ⟨⟨nonneg, lt⟩, byteNonneg, byteLe⟩ := checksOf_none.1 checked
    obtain ⟨memWf, -⟩ := stores_iff.1 stores
    rw [exec_write inited quiet wf deviceIdle nonneg lt byteNonneg byteLe] at run
    cases run
    refine ⟨fun c other => ?_, ⟨rfl, rfl, rfl, rfl, rfl, rfl, rfl, rfl, rfl, rfl, rfl⟩, rfl, rfl, rfl⟩
    have elsewhere : c ≠ addr.toNat := by
      intro same
      exact other (by show (c : Int) = addr; omega)
    rw [Memory.read_write memWf, if_neg elsewhere]

/-- A bulk write that answers has run all its transactions, whatever the device was doing: a busy one refuses the first. -/
theorem bulkWrite_answers {s t : State} {op : Op} {start len : Int} {pb : List Int} (quiet : s.quiet = true)
    (wf : s.cfg.wf = true) (hop : op = .writebytes ∨ op = .erasebytes) (nonneg : 0 ≤ start) (lenNonneg : 0 ≤ len)
    (le : start + len ≤ s.cfg.n) (run : finish (bulkNext (bulkStart op start len pb s)) = .next t) :
    t = complete (writeRun (bulkStart op start len pb s) len.toNat) := by
  have cells := n_le wf
  have fits : start.toNat + len.toNat ≤ s.cfg.n := by omega
  cases device : s.wbusy with
  | false =>
    rw [finish_writeRun (bulkStart_between quiet) device hop (Nat.zero_add len.toNat) (fits.trans cells) fits] at run
    exact (Host.Outcome.next.inj run).symm
  | true =>
    rcases Int.lt_or_eq_of_le lenNonneg with some | none
    · rw [(finish_bulkStart_busy quiet device hop).1 some] at run
      cases run
    · subst none
      rw [finish_bulkStart_none] at run
      exact (Host.Outcome.next.inj run).symm

/-- The frame of a bulk write from its start. -/
theorem bulkWrite_frame {s : State} {op : Op} {start len : Int} {pb : List Int} (quiet : s.quiet = true)
    (memWf : Memory.wf s.mem = true) (nonneg : 0 ≤ start) :
    (∀ c : Nat, ¬ (start ≤ (c : Int) ∧ (c : Int) < start + len) →
      Memory.read (complete (writeRun (bulkStart op start len pb s) len.toNat)).mem c = Memory.read s.mem c) ∧
    storesFrame s (complete (writeRun (bulkStart op start len pb s) len.toNat)) ∧
    (complete (writeRun (bulkStart op start len pb s) len.toNat)).pb = pb := by
  obtain ⟨idle, phase, -⟩ := quiet_iff.1 quiet
  refine ⟨fun c outside => ?_, ?_, ?_⟩
  · rw [complete_mem, writeRun_mem (u := bulkStart op start len pb s) memWf, if_neg]
    · rfl
    · rintro ⟨low, high⟩
      have low : start.toNat ≤ c := low
      have high : c < start.toNat + len.toNat := high
      omega
  · rw [writeRun_frame]
    exact ⟨rfl, rfl, rfl, rfl, rfl, rfl, rfl, idle.symm, phase.symm, rfl, rfl⟩
  · rw [writeRun_frame]
    rfl

theorem writebytes_frame {s t : State} {start len : Int} (h : ready s) (wf : s.cfg.wf = true)
    (stores : s.storesCanonical = true) (run : exec (.writebytes start len) s = .next t) :
    (∀ c, ¬ storesTo (.writebytes start len) c → Memory.read t.mem c = Memory.read s.mem c) ∧ storesFrame s t := by
  obtain ⟨inited, quiet⟩ := h
  obtain ⟨memWf, -⟩ := stores_iff.1 stores
  obtain ⟨-, ⟨code, -, rfl⟩ | ⟨checked, -, ran⟩⟩ := exec_cases (quiet_iff.1 quiet).1 run
  · exact ⟨fun _ _ => rfl, storesFrame_raiseError s code⟩
  · obtain ⟨⟨nonneg, -⟩, ⟨lenNonneg, le⟩, -⟩ := checksOf_none.1 checked
    rw [(begun_bulk s start len).1] at ran
    obtain rfl := bulkWrite_answers quiet wf (.inl rfl) nonneg lenNonneg le ran
    obtain ⟨outside, frame, -⟩ := bulkWrite_frame (op := .writebytes) (pb := payloadOf s.pbuf len) quiet memWf nonneg
    exact ⟨outside, frame⟩

theorem erasebytes_frame {s t : State} {start count : Int} (h : ready s) (wf : s.cfg.wf = true)
    (stores : s.storesCanonical = true) (run : exec (.erasebytes start count) s = .next t) :
    (∀ c, ¬ storesTo (.erasebytes start count) c → Memory.read t.mem c = Memory.read s.mem c) ∧ storesFrame s t ∧
      t.pb = s.pb := by
  obtain ⟨inited, quiet⟩ := h
  obtain ⟨memWf, -⟩ := stores_iff.1 stores
  obtain ⟨-, ⟨code, -, rfl⟩ | ⟨checked, -, ran⟩⟩ := exec_cases (quiet_iff.1 quiet).1 run
  · exact ⟨fun _ _ => rfl, storesFrame_raiseError s code, rfl⟩
  · obtain ⟨⟨nonneg, -⟩, countNonneg, le⟩ := checksOf_none.1 checked
    rw [(begun_bulk s start count).2.1] at ran
    obtain rfl := bulkWrite_answers quiet wf (.inr rfl) nonneg countNonneg le ran
    exact bulkWrite_frame quiet memWf nonneg

/-- Settles O42: one frame for each of the three operations. -/
theorem frameOfOperationsThatStore : Obligations.FrameOfOperationsThatStore := by
  intro s t i h wf stores run
  refine ⟨?_, ?_, ?_⟩
  · rintro (⟨addr, byte, rfl⟩ | ⟨start, len, rfl⟩ | ⟨start, count, rfl⟩)
    · obtain ⟨cells, frame, -⟩ := write_frame h wf stores run
      exact ⟨cells, frame⟩
    · exact writebytes_frame h wf stores run
    · obtain ⟨cells, frame, -⟩ := erasebytes_frame h wf stores run
      exact ⟨cells, frame⟩
  · rintro ⟨addr, byte, rfl⟩
    obtain ⟨-, -, registers⟩ := write_frame h wf stores run
    exact registers
  · rintro ⟨start, count, rfl⟩
    obtain ⟨-, -, payload⟩ := erasebytes_frame h wf stores run
    exact payload

/-! ### One cell, over any operation -/

/-- An operation that answers leaves WBUSY alone, and a cell too that it does not store to, or would store to if it were not
rejected (R71, R190). -/
theorem exec_keeps_cell {s t : State} {i : Instr} (h : ready s) (wf : s.cfg.wf = true) (stores : s.storesCanonical = true)
    (run : exec i s = .next t) :
    t.wbusy = s.wbusy ∧ ∀ c, (storesTo i c → rejection s i ≠ none) → Memory.read t.mem c = Memory.read s.mem c := by
  have rejected : ∀ {c}, storesTo i c → (storesTo i c → rejection s i ≠ none) → Memory.read t.mem c = Memory.read s.mem c := by
    intro c stored excused
    obtain ⟨code, fails⟩ := Option.ne_none_iff_exists'.1 (excused stored)
    rw [exec_rejection h.1 (quiet_iff.1 h.2).1 fails] at run
    cases run
    rfl
  have storing : (∀ c, ¬ storesTo i c → Memory.read t.mem c = Memory.read s.mem c) ∧ t.wbusy = s.wbusy := by
    cases i with
    | setaddr addr oe =>
      obtain ⟨⟨cells, -, -, -, -, wbusy, -⟩, -⟩ := setaddr_frame h run
      exact ⟨fun c _ => cells c, wbusy⟩
    | read addr =>
      obtain ⟨⟨cells, -, -, -, -, wbusy, -⟩, -⟩ := read_frame h wf run
      exact ⟨fun c _ => cells c, wbusy⟩
    | dumprange start count =>
      obtain ⟨cells, -, -, -, -, wbusy, -⟩ := dumprange_frame h wf run
      exact ⟨fun c _ => cells c, wbusy⟩
    | write addr byte =>
      obtain ⟨cells, ⟨-, -, -, -, wbusy, -⟩, -⟩ := write_frame h wf stores run
      exact ⟨cells, wbusy⟩
    | writebytes start len =>
      obtain ⟨cells, -, -, -, -, wbusy, -⟩ := writebytes_frame h wf stores run
      exact ⟨cells, wbusy⟩
    | erasebytes start count =>
      obtain ⟨cells, ⟨-, -, -, -, wbusy, -⟩, -⟩ := erasebytes_frame h wf stores run
      exact ⟨cells, wbusy⟩
  obtain ⟨cells, wbusy⟩ := storing
  refine ⟨wbusy, fun c excused => ?_⟩
  by_cases stored : storesTo i c
  · exact rejected stored excused
  · exact cells c stored

end Sys2Proof.Machine
end

section
/-! Several operations one after the other (20_memory.md R71; 44_common_laws.md R136). -/

namespace Sys2Proof.Machine

open Sys2Proof.Spec

/-- A state in which every legal operation completes: ready, a well-formed configuration, canonical stores, the device idle. -/
structure Serviceable (s : State) : Prop where
  ready : ready s
  wf : s.cfg.wf = true
  stores : s.storesCanonical = true
  idle : s.wbusy = false

/-- The range checks depend on the configuration and the payload buffer alone (R106). -/
theorem checksOf_congr {s t : State} (cfg : t.cfg = s.cfg) (pbuf : t.pbuf = s.pbuf) (i : Instr) :
    checksOf t i = checksOf s i := by
  cases i <;> simp only [checksOf, cfg, pbuf]

/-- What an operation that answers hands on to the next one. -/
theorem Serviceable.after_exec {s t : State} {i : Instr} (h : Serviceable s) (run : exec i s = .next t) :
    Serviceable t ∧ t.cfg = s.cfg ∧ ∀ j, rejection t j = rejection s j := by
  have idleBlock : s.busy = false := (quiet_iff.1 h.ready.2).1
  obtain ⟨-, cfg, -, pbuf⟩ := exec_inited idleBlock run
  obtain ⟨wbusy, -⟩ := exec_keeps_cell h.ready h.wf h.stores run
  refine ⟨⟨operationsEndQuiet s t i h.ready run, by rw [cfg]; exact h.wf, ?stores, wbusy.trans h.idle⟩, cfg, fun j => ?checks⟩
  case stores =>
    exact exec_keeps (P := fun v => v.storesCanonical = true) stores_tick (fun _ => stores_accept) idleBlock h.stores run
  case checks =>
    rw [rejection_eq, rejection_eq, checksOf_congr cfg pbuf]

/-- A legal WRITE completes, and what it stores (R160, R164). -/
theorem Serviceable.write_completes {s : State} {addr byte : Int} (h : Serviceable s) (nonneg : 0 ≤ addr) (le : addr ≤ s.cfg.n - 1)
    (byteNonneg : 0 ≤ byte) (byteLe : byte ≤ 255) :
    ∃ t, exec (.write addr byte) s = .next t ∧ Serviceable t ∧ t.cfg = s.cfg ∧
      t.mem = Memory.write s.mem addr.toNat (byteOf byte) := by
  have run := exec_write h.ready.1 h.ready.2 h.wf h.idle nonneg (by omega) byteNonneg byteLe
  obtain ⟨serviceable, cfg, -⟩ := h.after_exec run
  exact ⟨_, run, serviceable, cfg, rfl⟩

/-- A legal READ completes, and what it returns (R150, R153). -/
theorem Serviceable.read_completes {s : State} {addr : Int} (h : Serviceable s) (nonneg : 0 ≤ addr) (le : addr ≤ s.cfg.n - 1) :
    ∃ t, exec (.read addr) s = .next t ∧ t.err = .ok ∧ t.rdata = Memory.read s.mem addr.toNat :=
  ⟨_, exec_read h.ready.1 h.ready.2 h.wf h.idle nonneg (by omega), rfl, rfl⟩

theorem Serviceable.memWf {s : State} (h : Serviceable s) : Memory.wf s.mem = true := (stores_iff.1 h.stores).1

/-- The byte operand comes back as the integer it was. -/
theorem byteOf_toInt {v : Int} (nonneg : 0 ≤ v) (le : v ≤ 255) : ((byteOf v).toNat : Int) = v := by
  rw [byteOf_toNat nonneg le, Int.toNat_of_nonneg nonneg]

/-- Settles O28: the WRITE leaves the byte in the cell (`Memory.read_write`) and a state in which the READ completes. -/
theorem writeThenReadReturnsTheByte : Obligations.WriteThenReadReturnsTheByte := by
  intro s addr byte h wf stores idle nonneg le byteNonneg byteLe
  have serviceable : Serviceable s := ⟨h, wf, stores, idle⟩
  obtain ⟨t, written, after, cfg, mem⟩ := serviceable.write_completes nonneg le byteNonneg byteLe
  obtain ⟨u, read, -, data⟩ := after.read_completes nonneg (by rw [cfg]; exact le)
  refine ⟨t, u, written, read, ?_⟩
  rw [data, mem, Memory.read_write serviceable.memWf, if_pos rfl, byteOf_toInt byteNonneg byteLe]

/-- Operations that answer, none of which stores to cell `c` without being rejected, leave that cell (R71). -/
theorem Serviceable.after_execAll {s u : State} {ops : List Instr} {c : Nat} (h : Serviceable s)
    (excused : ∀ i ∈ ops, storesTo i c → rejection s i ≠ none) (run : execAll ops s = .next u) :
    Serviceable u ∧ u.cfg = s.cfg ∧ Memory.read u.mem c = Memory.read s.mem c := by
  induction ops generalizing s with
  | nil =>
    cases run
    exact ⟨h, rfl, rfl⟩
  | cons i ops ih =>
    obtain ⟨t, first, rest⟩ := andThen_eq_next run
    obtain ⟨after, cfg, checks⟩ := h.after_exec first
    obtain ⟨-, cells⟩ := exec_keeps_cell h.ready h.wf h.stores first
    obtain ⟨final, cfg', cell⟩ := ih after (fun j hj => by rw [checks]; exact excused j (List.mem_cons_of_mem _ hj)) rest
    exact ⟨final, cfg'.trans cfg, cell.trans (cells c (excused i (List.mem_cons_self ..)))⟩

/-- Settles O29: the operations between leave the cell and a state in which the READ completes (`Serviceable.after_execAll`). -/
theorem readReturnsTheLastWrite : Obligations.ReadReturnsTheLastWrite := by
  intro s addr byte ops h wf stores idle nonneg le byteNonneg byteLe excused
  have serviceable : Serviceable s := ⟨h, wf, stores, idle⟩
  refine ⟨?_, fun u run => ?_⟩
  · obtain ⟨t, written, after, cfg, mem⟩ := serviceable.write_completes nonneg le byteNonneg byteLe
    obtain ⟨-, -, checks⟩ := serviceable.after_exec written
    refine ⟨t, written, fun u run => ?_⟩
    obtain ⟨final, cfg', cell⟩ := after.after_execAll (fun i hi => by rw [checks]; exact excused i hi) run
    obtain ⟨v, read, ok, data⟩ := final.read_completes nonneg (by rw [cfg', cfg]; exact le)
    refine ⟨v, read, ok, ?_⟩
    rw [data, cell, mem, Memory.read_write serviceable.memWf, if_pos rfl, byteOf_toInt byteNonneg byteLe]
  · obtain ⟨final, cfg, cell⟩ := serviceable.after_execAll excused run
    obtain ⟨v, read, ok, data⟩ := final.read_completes nonneg (by rw [cfg]; exact le)
    exact ⟨v, read, ok, data.trans cell⟩

/-- Of two writes to one cell the later stays (R136). -/
theorem Memory.write_write {m : Memory} (wf : Memory.wf m = true) (a : Nat) (v w : Byte) :
    Memory.write (Memory.write m a v) a w = Memory.write m a w := by
  have once := Memory.write_wf wf a v
  refine Memory.ext (Memory.write_wf once a w) (Memory.write_wf wf a w) fun c => ?_
  rw [Memory.read_write once, Memory.read_write wf, Memory.read_write wf]
  split <;> rfl

/-- Writes to two cells commute (R136). -/
theorem Memory.write_comm {m : Memory} (wf : Memory.wf m = true) {a b : Nat} (ne : a ≠ b) (v w : Byte) :
    Memory.write (Memory.write m a v) b w = Memory.write (Memory.write m b w) a v := by
  have atA := Memory.write_wf wf a v
  have atB := Memory.write_wf wf b w
  refine Memory.ext (Memory.write_wf atA b w) (Memory.write_wf atB a v) fun c => ?_
  rw [Memory.read_write atA, Memory.read_write atB, Memory.read_write wf, Memory.read_write wf]
  by_cases atCellA : c = a
  · rw [if_pos atCellA, if_neg (by rw [atCellA]; exact ne), if_pos atCellA]
  · rw [if_neg atCellA, if_neg atCellA]

/-- Settles O30: the arrays after the two WRITEs are `Memory.write_comm` and `Memory.write_write` of the array before. -/
theorem storesCommuteOrOverwrite : Obligations.StoresCommuteOrOverwrite := by
  intro s a b x y h wf stores idle aNonneg aLe bNonneg bLe xNonneg xLe yNonneg yLe
  have serviceable : Serviceable s := ⟨h, wf, stores, idle⟩
  obtain ⟨t, first, afterA, cfgA, memA⟩ := serviceable.write_completes aNonneg aLe xNonneg xLe
  obtain ⟨u, second, -, -, memAB⟩ := afterA.write_completes bNonneg (by rw [cfgA]; exact bLe) yNonneg yLe
  obtain ⟨t', first', afterB, cfgB, memB⟩ := serviceable.write_completes bNonneg bLe yNonneg yLe
  obtain ⟨u', second', -, -, memBA⟩ := afterB.write_completes aNonneg (by rw [cfgB]; exact aLe) xNonneg xLe
  refine ⟨t, u, t', u', first, second, first', second', fun ne => ?_, fun eq => ?_⟩
  · have cells : a.toNat ≠ b.toNat := by omega
    rw [memAB, memA, memBA, memB, Memory.write_comm serviceable.memWf cells]
  · rw [memAB, memA, memB, eq, Memory.write_write serviceable.memWf]

/-- Settles O50: `Memory.write_wf`, `Memory.read_write` and `Memory.ext`. -/
theorem arrayHoldsWhatIsWritten : Obligations.ArrayHoldsWhatIsWritten := fun _ a v wf =>
  ⟨Memory.write_wf wf a v, Memory.read_write wf a v, fun _ wf' same => Memory.ext wf wf' same⟩

end Sys2Proof.Machine
end

section
/-! Results, event lists and waits of any operation (30_encoding.md R105, R106; 44_common_laws.md R134, R138; 60_exceptions.md
R190 to R194, R222; 70_reset_and_hazards.md R243). -/

namespace Sys2Proof.Machine

open Sys2Proof.Spec

/-- Settles O38: `exec_rejection` and `exec_accepted_err`; a range check gives one of three codes (`checksOf_code`). -/
theorem rejectionChangesOnlyErr : Obligations.RejectionChangesOnlyErr := by
  intro s i inited idle
  refine ⟨fun code fails => ⟨_, exec_rejection inited idle fails, rfl, ?_⟩, fun passes t run => ?_⟩
  · rw [rejection_eq] at fails
    rcases checksOf_code fails with rfl | rfl | rfl
    · exact .inl ⟨rfl, rfl⟩
    · exact .inr (.inl ⟨rfl, rfl⟩)
    · exact .inr (.inr ⟨rfl, rfl⟩)
  · rw [rejection_eq] at passes
    rw [State.rspErr, exec_accepted_err idle passes run]
    rfl

/-- The event list of an operation depends on the payload buffer and its operands alone (R134). -/
theorem planOf_congr {s t : State} (pbuf : t.pbuf = s.pbuf) (i : Instr) : planOf t i = planOf s i := by
  cases i <;> simp only [planOf, pbuf]

/-- An accepted operation that answers has produced its event list (R134, R182). -/
theorem exec_accepted_events {s t : State} {i : Instr} (idle : s.busy = false) (checked : checksOf s i = none)
    (run : exec i s = .next t) : t.trace.map TraceEvent.erase = planOf s i := by
  obtain ⟨-, ⟨code, fails, -⟩ | ⟨-, presented, ran⟩⟩ := exec_cases idle run
  · rw [checked] at fails
    cases fails
  · rw [accepted_plan checked presented ran, begun_plan]

/-- Settles O43: both states reject with one code, without an event, or both accept, with one event list
(`exec_accepted_events`) and the result OK. -/
theorem eventListIgnoresTheState : Obligations.EventListIgnoresTheState := by
  intro s s' t t' i ⟨inited, quiet⟩ ⟨inited', quiet'⟩ cfg _ pbuf run run'
  have idle := (quiet_iff.1 quiet).1
  have idle' := (quiet_iff.1 quiet').1
  have checks : checksOf s' i = checksOf s i := checksOf_congr cfg.symm pbuf.symm i
  cases checked : checksOf s i with
  | some code =>
    rw [exec_rejected inited idle checked] at run
    rw [exec_rejected inited' idle' (checks.trans checked)] at run'
    cases run
    cases run'
    exact ⟨rfl, rfl⟩
  | none =>
    have checked' := checks.trans checked
    rw [exec_accepted_events idle checked run, exec_accepted_events idle' checked' run', planOf_congr pbuf.symm,
      exec_accepted_err idle checked run, exec_accepted_err idle' checked' run']
    exact ⟨rfl, rfl⟩

/-! ### The time an operation waits -/

/-- The time a pin event waits at least (R125, R240, R241). -/
def PinEvent.waitNs (c : Config) : PinEvent → Nat
  | .mode _ _ => 0
  | .wr _ _ => 0
  | .rd _ => 0
  | .delay .tWp => c.tWp
  | .delay .tWc => c.tWc

/-- A trace waits as long as its events do (R243). -/
theorem waitNs_eq_sum (c : Config) (trace : List TraceEvent) :
    Trace.waitNs c trace = ((trace.map TraceEvent.erase).map (PinEvent.waitNs c)).sum := by
  induction trace with
  | nil => rfl
  | cons e trace ih =>
    rw [List.map_cons, List.map_cons, List.sum_cons, ← ih]
    cases e with
    | delay w => cases w <;> rfl
    | mode i d => exact (Nat.zero_add _).symm
    | wr p l => exact (Nat.zero_add _).symm
    | rd i l => exact (Nat.zero_add _).symm

/-- Not a wait. -/
def notDelay : PinEvent → Bool
  | .delay _ => false
  | _ => true

theorem waitNs_of_notDelay (c : Config) {es : List PinEvent} (h : ∀ e ∈ es, notDelay e = true) :
    (es.map (PinEvent.waitNs c)).sum = 0 := by
  refine List.sum_eq_zero fun n hn => ?_
  obtain ⟨e, he, rfl⟩ := List.mem_map.1 hn
  have := h e he
  cases e with
  | delay w => cases this
  | mode i d => rfl
  | wr p l => rfl
  | rd i => rfl

theorem waitNs_setAddress (c : Config) (a : Nat) (oe : Bool) : ((setAddressEvents a oe).map (PinEvent.waitNs c)).sum = 0 :=
  waitNs_of_notDelay c (List.all_eq_true.1 rfl)

theorem waitNs_read (c : Config) (a : Nat) : ((readEvents a).map (PinEvent.waitNs c)).sum = 0 :=
  waitNs_of_notDelay c (List.all_eq_true.1 rfl)

/-- Of the events of `Write` only the two of its strobe and recovery wait (R161, R163). -/
theorem waitNs_write (c : Config) (a : Nat) (b : Byte) : ((writeEvents a b).map (PinEvent.waitNs c)).sum = c.tWp + c.tWc := by
  have before : ((setUpEvents a b).map (PinEvent.waitNs c)).sum = 0 := waitNs_of_notDelay c (List.all_eq_true.1 rfl)
  have pulse : (strobe.map (PinEvent.waitNs c)).sum = c.tWp + c.tWc := by
    simp [strobe, PinEvent.waitNs]
  rw [writeEvents_eq, List.map_append, List.sum_append, before, pulse, Nat.zero_add]

/-- Transactions that each wait `w` wait `w` times their number. -/
theorem waitNs_transactions (c : Config) {events : Nat → List PinEvent} {w : Nat}
    (each : ∀ i, ((events i).map (PinEvent.waitNs c)).sum = w) (is : List Nat) :
    ((is.flatMap events).map (PinEvent.waitNs c)).sum = is.length * w := by
  induction is with
  | nil => rw [List.length_nil, Nat.zero_mul]; rfl
  | cons i is ih =>
    rw [List.flatMap_cons, List.map_append, List.sum_append, each, ih, List.length_cons, Nat.succ_mul, Nat.add_comm]

/-- Settles O51: the trace of an accepted operation is its event list (`exec_accepted_events`), and only `Write`'s events
wait. -/
theorem writesWaitForTheDevice : Obligations.WritesWaitForTheDevice := by
  intro s t i ⟨_, quiet⟩ _ accepted run
  rw [rejection_eq] at accepted
  rw [waitNs_eq_sum, exec_accepted_events (quiet_iff.1 quiet).1 accepted run]
  cases i with
  | setaddr addr oe => exact waitNs_setAddress _ _ _
  | read addr => exact waitNs_read _ _
  | write addr byte => exact waitNs_write _ _ _
  | writebytes start len =>
    rw [planOf, waitNs_transactions _ (fun _ => waitNs_write _ _ _), List.length_range']
  | erasebytes start count =>
    rw [planOf, waitNs_transactions _ (fun _ => waitNs_write _ _ _), List.length_range']
  | dumprange start count =>
    rw [planOf, waitNs_transactions _ (fun _ => waitNs_read _ _), List.length_range', Nat.mul_zero]

/-! ### What the shift stages and the latches held -/

theorem writeRun_bulkStart_forgets (s : State) (x y : Word16) (op : Op) (start arg : Int) (pb : List Int) (k : Nat) :
    complete (writeRun (bulkStart op start arg pb { s with sr := x, q := y }) (k + 1)) =
      complete (writeRun (bulkStart op start arg pb s) (k + 1)) :=
  congrArg complete (writeRun_forgets (bulkStart op start arg pb s) x y k)

theorem readRun_bulkStart_forgets (s : State) (x y : Word16) (op : Op) (start arg : Int) (pb : List Int) (k : Nat) :
    complete (readRun (bulkStart op start arg pb { s with sr := x, q := y }) (k + 1)) =
      complete (readRun (bulkStart op start arg pb s) (k + 1)) :=
  congrArg complete (readRun_forgets (bulkStart op start arg pb s) x y k)

/-- Settles O44: every word of the closed forms is the operation's own; a bulk operation forgets with its first transaction
(`writeRun_forgets`, `readRun_forgets`). -/
theorem resetDrawsAreForgotten : Obligations.ResetDrawsAreForgotten := by
  intro s x y i ⟨inited, quiet⟩ wf idle accepted operation
  rw [rejection_eq] at accepted
  have transactions : ∀ {n : Int}, 0 < n → ∃ k, n.toNat = k + 1 := fun {n} pos => ⟨n.toNat - 1, by omega⟩
  rcases operation with ⟨addr, oe, rfl, nonneg, le⟩ | ⟨addr, rfl⟩ | ⟨addr, byte, rfl⟩ | ⟨start, n, pos, rfl | rfl | rfl⟩
  · exact ⟨_, exec_setaddr inited quiet nonneg le, exec_setaddr inited quiet nonneg le⟩
  · obtain ⟨nonneg, lt⟩ := checksOf_none.1 accepted
    exact ⟨_, exec_read inited quiet wf idle nonneg lt, exec_read inited quiet wf idle nonneg lt⟩
  · obtain ⟨⟨nonneg, lt⟩, byteNonneg, byteLe⟩ := checksOf_none.1 accepted
    exact ⟨_, exec_write inited quiet wf idle nonneg lt byteNonneg byteLe,
      exec_write inited quiet wf idle nonneg lt byteNonneg byteLe⟩
  · obtain ⟨k, count⟩ := transactions pos
    have run := exec_writebytes inited quiet wf idle accepted
    have run' := exec_writebytes (s := { s with sr := x, q := y }) inited quiet wf idle accepted
    rw [count] at run run'
    exact ⟨_, run'.trans (congrArg Host.Outcome.next (writeRun_bulkStart_forgets s x y _ _ _ _ k)), run⟩
  · obtain ⟨k, count⟩ := transactions pos
    have run := exec_erasebytes inited quiet wf idle accepted
    have run' := exec_erasebytes (s := { s with sr := x, q := y }) inited quiet wf idle accepted
    rw [count] at run run'
    exact ⟨_, run'.trans (congrArg Host.Outcome.next (writeRun_bulkStart_forgets s x y _ _ _ _ k)), run⟩
  · obtain ⟨k, count⟩ := transactions pos
    have run := exec_dumprange inited quiet wf accepted
    have run' := exec_dumprange (s := { s with sr := x, q := y }) inited quiet wf accepted
    rw [count] at run run'
    exact ⟨_, run'.trans (congrArg Host.Outcome.next (readRun_bulkStart_forgets s x y _ _ _ _ k)), run⟩

end Sys2Proof.Machine
end

section
/-! Reset and loss of power (10_state.md R40; 70_reset_and_hazards.md R215, R220, R225). -/

namespace Sys2Proof.Machine

open Sys2Proof.Spec

/-- Settles O52: `State.reset` is a closed record. -/
theorem resetValues : Obligations.ResetValues := by
  unfold Obligations.ResetValues
  decide

/-- Settles O53: the configuration and the empty stores are checked by evaluation; an idle state has only to be quiet. -/
theorem resetStateIsSound : Obligations.ResetStateIsSound :=
  ⟨by decide, by decide, (quietInv_idle rfl).2 rfl, sequencerInv_idle rfl⟩

theorem abandonWrite_of_not_inStrobe {s : State} (h : s.inStrobe = false) : abandonWrite s = s := by
  rw [abandonWrite, h]
  rfl

theorem abandonWrite_of_inStrobe {s : State} (h : s.inStrobe = true) :
    abandonWrite s = { s with
      mem := Memory.write s.mem s.cell (Config.freeCell s.draws), draws := s.draws + 1, wbusy := true } := by
  rw [abandonWrite, h]
  rfl

/-- No strobe runs in an idle block. -/
theorem inStrobe_idle {s : State} (idle : s.busy = false) : s.inStrobe = false := by
  rw [State.inStrobe, idle, Bool.false_and]

/-- What a reset leaves of the shift register, the latches and the inputs, and the draws it uses (R220, R225). -/
theorem applyReset_devices (s : State) :
    (applyReset s).sr = s.sr ∧ (applyReset s).q = s.q ∧ (applyReset s).inputs = s.inputs ∧
      (applyReset s).draws = if s.inStrobe then s.draws + 1 else s.draws := by
  cases cut : s.inStrobe with
  | false =>
    rw [applyReset, abandonWrite_of_not_inStrobe cut]
    exact ⟨rfl, rfl, rfl, rfl⟩
  | true =>
    rw [applyReset, abandonWrite_of_inStrobe cut]
    exact ⟨rfl, rfl, rfl, rfl⟩

theorem registersReset_applyReset (s : State) : registersReset (applyReset s) :=
  ⟨rfl, rfl, rfl, rfl, rfl, rfl, rfl, rfl, rfl, rfl, rfl⟩

theorem registersReset_applyPowerLoss (s : State) : registersReset (applyPowerLoss s) :=
  ⟨rfl, rfl, rfl, rfl, rfl, rfl, rfl, rfl, rfl, rfl, rfl⟩

theorem arrayAfterCut_applyReset {s : State} (memWf : Memory.wf s.mem = true) : arrayAfterCut s (applyReset s) := by
  refine ⟨fun whole => ?_, fun cut => ?_⟩
  · rw [applyReset, abandonWrite_of_not_inStrobe whole]
    exact ⟨rfl, rfl⟩
  · rw [applyReset, abandonWrite_of_inStrobe cut]
    exact ⟨rfl, Memory.read_write memWf _ _⟩

theorem arrayAfterCut_applyPowerLoss {s : State} (memWf : Memory.wf s.mem = true) : arrayAfterCut s (applyPowerLoss s) :=
  arrayAfterCut_applyReset memWf

/-- Settles O54: a loss of power is a reset whose next draw goes to SR and Q; both leave the array as `abandonWrite` does. -/
theorem resetFromAnyState : Obligations.ResetFromAnyState := by
  intro s stores
  obtain ⟨memWf, -⟩ := stores_iff.1 stores
  obtain ⟨sr, q, inputs, draws⟩ := applyReset_devices s
  refine ⟨⟨registersReset_applyReset s, arrayAfterCut_applyReset memWf, sr, q, applyReset_cfg s, inputs⟩,
    registersReset_applyPowerLoss s, arrayAfterCut_applyPowerLoss memWf, ?_, ?_, ?_, applyPowerLoss_cfg s, inputs⟩
  · exact congrArg Config.freeStages draws
  · exact congrArg Config.freeLatches draws
  · exact congrArg (· + 1) draws

end Sys2Proof.Machine
end

section
/-! The block's host side (30_encoding.md R102 to R107; 60_exceptions.md R195, R201, R206; 70_reset_and_hazards.md R215, R220,
R222, R225). -/

namespace Sys2Proof.Machine

open Sys2Proof.Spec

/-! ### What a step answers, by what the port does -/

/-- The answer to what the port does. -/
def PortAction.result : PortAction → Result
  | .run i s => exec i s
  | .acceptOnly i s => accept i s
  | .answer r => r

/-- A step answers what the port does. -/
theorem step_eq_result (s : State) : step s = (serve s).result := by
  rw [step]
  cases serve s <;> rfl

theorem step_idle {s : State} (idle : s.busy = false) : step s = (serveIdle s).result := by
  rw [step_eq_result, serve, idle]
  rfl

theorem step_busy {s : State} (busy : s.busy = true) : step s = stepBusy s := by
  rw [step_eq_result, serve, busy]
  rfl

/-- The step that is presented a command (R102). -/
theorem step_command {s : State} {w : CmdWord} {rest : List HostInput} (idle : s.busy = false)
    (presented : s.inputs = .command w :: rest) : step s = (serveCommand w rest { s with inputs := rest }).result := by
  rw [step_idle idle]
  simp only [serveIdle, presented]

theorem step_command_uninitialised {s : State} {w : CmdWord} {rest : List HostInput} (idle : s.busy = false)
    (before : s.inited = false) (presented : s.inputs = .command w :: rest) : step s = .refused .notInitialised := by
  rw [step_command idle presented]
  simp only [serveCommand, before, Bool.false_eq_true, if_false, PortAction.result]

theorem step_command_error {s : State} {w : CmdWord} {rest : List HostInput} {e : DecodeError} (idle : s.busy = false)
    (inited : s.inited = true) (presented : s.inputs = .command w :: rest) (decodes : decode w = .error e) :
    step s = .next (raiseError .illegalOp { s with inputs := rest }) := by
  rw [step_command idle presented]
  simp only [serveCommand, inited, decodes, if_true, PortAction.result]

theorem step_command_ok {s : State} {w : CmdWord} {rest : List HostInput} {i : Instr} (idle : s.busy = false)
    (inited : s.inited = true) (presented : s.inputs = .command w :: rest) (decodes : decode w = .ok i) :
    step s = if cutAhead rest then accept i { s with inputs := rest } else exec i { s with inputs := rest } := by
  rw [step_command idle presented]
  simp only [serveCommand, inited, decodes, if_true]
  cases cutAhead rest <;> rfl

/-! ### Commands -/

/-- The reserved codes are no operation's (R107). -/
theorem decode_reserved {w : CmdWord} (reserved : opField w = 0 ∨ opField w = 7) : ∃ e, decode w = .error e := by
  rcases decode_cases w with ⟨i, -, code⟩ | ⟨e, fails, -⟩
  · rw [code] at reserved
    cases i <;> exact absurd reserved (by simp only [Instr.opCode]; decide)
  · exact ⟨e, fails⟩

/-- Settles O39: a reserved code does not decode (`decode_reserved`), and the step answers ILLEGAL_OP. -/
theorem reservedCodesAnswerIllegalOp : Obligations.ReservedCodesAnswerIllegalOp := by
  intro s w rest inited idle presented reserved
  obtain ⟨e, fails⟩ := decode_reserved reserved
  exact ⟨_, step_command_error idle inited presented fails, rfl, rfl⟩

/-- Every acceptance asks for INITED first (R222). -/
theorem accept_uninitialised {i : Instr} {s : State} (before : s.inited = false) : accept i s = .refused .notInitialised := by
  have notInitialised : ¬ s.inited = true := by rw [before]; decide
  cases i <;> exact if_neg notInitialised

/-- Settles O40: `exec` is refused by its acceptance, the step by the port. -/
theorem operationsBeforeResetAreRefused : Obligations.OperationsBeforeResetAreRefused := by
  intro s before idle
  refine ⟨fun i => ?_, fun w rest presented => step_command_uninitialised idle before presented⟩
  rw [exec_idle idle, accept_uninitialised before]
  rfl

/-- When a command is only accepted (log 7). -/
theorem cutAhead_iff {rest : List HostInput} :
    cutAhead rest = true ↔ ∃ n r, rest = .reset n :: r ∨ rest = .powerLoss n :: r := by
  unfold cutAhead
  split
  case h_1 n r => exact ⟨fun _ => ⟨n, r, .inl rfl⟩, fun _ => rfl⟩
  case h_2 n r => exact ⟨fun _ => ⟨n, r, .inr rfl⟩, fun _ => rfl⟩
  case h_3 noReset noPowerLoss =>
    refine ⟨fun h => absurd h (by decide), ?_⟩
    rintro ⟨n, r, rfl | rfl⟩
    · exact absurd rfl (noReset n r)
    · exact absurd rfl (noPowerLoss n r)

/-- Settles O55: `step_command_ok`, by whether a reset or a loss of power stands behind the command (`cutAhead_iff`). -/
theorem stepRunsTheDecodedOperation : Obligations.StepRunsTheDecodedOperation := by
  intro s w rest i idle inited presented decodes
  refine ⟨fun alone => ?_, fun cut => ?_⟩
  · have whole : ¬ cutAhead rest = true := by
      rw [cutAhead_iff]
      rintro ⟨n, r, reset | powerLoss⟩
      · exact (alone n r).1 reset
      · exact (alone n r).2 powerLoss
    rw [step_command_ok idle inited presented decodes, if_neg whole]
  · rw [step_command_ok idle inited presented decodes, if_pos (cutAhead_iff.2 cut)]

/-- Settles O56: from an idle state there is nothing to finish before the acceptance (`exec_idle`). -/
theorem execIsAcceptanceThenItsEvents : Obligations.ExecIsAcceptanceThenItsEvents := by
  intro s u i idle accepted
  rw [exec_idle idle, accepted, andThen_next, finish]

/-! ### While an operation runs -/

/-- What is neither a reset nor a loss of power waits (R102, R206; log 8). -/
theorem stepBusy_waits {s : State} {rest : List HostInput}
    (waiting : s.inputs = [] ∨ (∃ w, s.inputs = .command w :: rest) ∨ (∃ idx val, s.inputs = .payload idx val :: rest) ∨
      s.inputs = .settle :: rest) : stepBusy s = tick s := by
  rcases waiting with h | ⟨w, h⟩ | ⟨idx, val, h⟩ | h <;> simp only [stepBusy, h]

/-- No event takes an input (R206). -/
theorem tick_inputs {s t : State} (h : tick s = .next t) : t.inputs = s.inputs := by
  obtain ⟨-, -, inputs, -⟩ := tick_inited h
  exact inputs

/-- Settles O57: `stepBusy` by the head of the inputs; an event takes none of them (`tick_inputs`). -/
theorem commandWaitsWhileBusy : Obligations.CommandWaitsWhileBusy := by
  intro s rest busy
  rw [step_busy busy]
  refine ⟨fun waiting => ?_, fun n later => ?_, fun n later => ?_, fun due => ?_, fun due => ?_⟩
  · rw [stepBusy_waits waiting]
    exact ⟨rfl, fun t => tick_inputs⟩
  · have nearer : stepBusy s = tick { s with inputs := .reset n :: rest } := by simp only [stepBusy, later]
    rw [nearer]
    exact ⟨rfl, fun t => tick_inputs⟩
  · have nearer : stepBusy s = tick { s with inputs := .powerLoss n :: rest } := by simp only [stepBusy, later]
    rw [nearer]
    exact ⟨rfl, fun t => tick_inputs⟩
  · simp only [stepBusy, due]
  · simp only [stepBusy, due]

/-! ### While none runs -/

/-- Settles O58: `serveIdle` by the head of the inputs; idle, no Write is cut short, so a reset leaves the devices alone. -/
theorem idleInputsAreServed : Obligations.IdleInputsAreServed := by
  intro s n rest idle
  have whole : abandonWrite { s with inputs := rest } = { s with inputs := rest } :=
    abandonWrite_of_not_inStrobe (inStrobe_idle idle)
  rw [step_idle idle]
  refine ⟨fun none => ?_, fun settle => ?_, fun reset => ?_, fun powerLoss => ?_⟩
  · simp only [serveIdle, none, PortAction.result]
  · simp only [serveIdle, settle, PortAction.result, letSettle]
  · refine ⟨resetRegisters { s with inputs := rest }, ?_, ⟨rfl, rfl⟩, rfl, rfl, rfl, rfl, rfl, rfl⟩
    simp only [serveIdle, reset, PortAction.result, applyReset, whole]
  · refine ⟨applyPowerLoss { s with inputs := rest }, ?_, ⟨rfl, rfl⟩, rfl, ?_⟩
    · simp only [serveIdle, powerLoss, PortAction.result]
    · rw [applyPowerLoss, applyReset, whole]
      exact ⟨rfl, rfl, rfl, rfl, rfl⟩

/-- Settles O59: `servePayload` on either side of PBD, and the read after the write (`PayloadBuffer.read_write`). -/
theorem payloadWriteSetsItsEntry : Obligations.PayloadWriteSetsItsEntry := by
  intro s idx val rest idle stores presented
  obtain ⟨-, -, bufferWf, -⟩ := stores_iff.1 stores
  have served : step s = servePayload idx val { s with inputs := rest } := by
    rw [step_idle idle]
    simp only [serveIdle, presented, PortAction.result]
  rw [served]
  refine ⟨fun inside => ⟨_, if_pos inside, fun i => ?_, rfl⟩, fun outside => if_neg outside⟩
  rw [element, PayloadBuffer.read_write bufferWf, apply_ite BitVec.toInt]
  rfl

end Sys2Proof.Machine
end
